-- ==== Sys2Proof/Word.lean ====
section
/-! DEFINITION. The word types of the core (00_scope.md R5, R9; 20_memory.md R67). -/

namespace Sys2Proof

/-- A command header, a payload word, a 32-bit register (R80, R28). -/
abbrev Word := BitVec 32

/-- A payload byte, an item of `DEM_OUT`, an immediate operand (R67, R84). -/
abbrev Byte := BitVec 8

/-- One 16-bit PCM sample in two's complement (R5). -/
abbrev Sample := BitVec 16

/-- An address of the register read space: 12-bit byte addresses (R60). -/
abbrev RegAddr := BitVec 12

end Sys2Proof
end

