-- ==== Sys2Proof/Syntax.lean ====
section
/-! DEFINITION. The commands of FSKC command set version 1: one constructor per row of
spec/opcode_table.json (30_encoding.md R83, R88). -/

namespace Sys2Proof

/-- The two units a command can address (R3, R82). -/
inductive UnitId
  | mod
  | dem
deriving DecidableEq, Repr

/-- The five configuration fields of a unit (00_scope.md R4, 40_control.md R103). -/
inductive CfgField
  | baud
  | space
  | mark
  | sampleRate
  | samplesPerFrame
deriving DecidableEq, Repr

/-- A decoded command. Payload words that the command discards (NOP) are kept, so that no bit of an
encoding is lost. -/
inductive Instr
  /-- NOP (R101): the ignored ARG and the discarded payload words. -/
  | nop (arg : Byte) (payload : List Word)
  /-- GRST (R102). -/
  | grst
  /-- M.CFGW (R104). -/
  | mCfgw (field : CfgField) (value : Word)
  /-- M.START (R110). -/
  | mStart
  /-- M.BYTE (R138). -/
  | mByte (b : Byte)
  /-- M.END (R143). -/
  | mEnd
  /-- M.RST (R112). -/
  | mRst
  /-- D.CFGW (R105). -/
  | dCfgw (field : CfgField) (value : Word)
  /-- D.START (R111). -/
  | dStart
  /-- D.FRAME (R172): the payload words, two samples in each. -/
  | dFrame (payload : List Word)
  /-- D.END (R174). -/
  | dEnd
  /-- D.CLS (R173): the space-detector and the mark-detector result. -/
  | dCls (space mark : Bool)
  /-- D.RST (R113). -/
  | dRst
deriving DecidableEq, Repr

end Sys2Proof
end

