-- ==== Sys2Proof/WellFormed.lean ====
section
/-! DEFINITION. Which terms of `Instr` have an encoding: LEN is a 16-bit field (30_encoding.md R81), so a
payload has at most 65535 words (R91). -/

namespace Sys2Proof

/-- The payload fits the LEN field (R81, R85). -/
def payloadFits (payload : List Word) : Bool := payload.length < 65536

/-- A command that 1 + LEN words can carry. Every other operand is bounded by its type. -/
def Instr.wf : Instr → Bool
  | .nop _ payload => payloadFits payload
  | .grst => true
  | .mCfgw _ _ => true
  | .mStart => true
  | .mByte _ => true
  | .mEnd => true
  | .mRst => true
  | .dCfgw _ _ => true
  | .dStart => true
  | .dFrame payload => payloadFits payload
  | .dEnd => true
  | .dCls _ _ => true
  | .dRst => true

end Sys2Proof
end

