-- ==== Sys2Proof/Decode.lean ====
section
/-! DEFINITION. From command words to commands and back (30_encoding.md). The unit of the command stream
is the 32-bit word (R60, R80); a byte transport carries each word little-endian (R66). -/

namespace Sys2Proof

/-! ## Header fields (R81) -/

/-- UNIT = h[31:28]. -/
def hdrUnit (h : Word) : BitVec 4 := h.extractLsb' 28 4

/-- OP = h[27:24]. -/
def hdrOp (h : Word) : BitVec 4 := h.extractLsb' 24 4

/-- ARG = h[23:16]. -/
def hdrArg (h : Word) : Byte := h.extractLsb' 16 8

/-- LEN = h[15:0], the number of payload words. -/
def hdrLen (h : Word) : Nat := (h.extractLsb' 0 16).toNat

/-- The header with the given fields, UNIT in the top bits (R81). -/
def mkHeader (unit op : BitVec 4) (arg : Byte) (len : BitVec 16) : Word := unit ++ op ++ arg ++ len

/-! ## Legality (R88) -/

/-- `Legal(h)`: the table of R88, row by row. It depends on the header alone. -/
def legal (h : Word) : Bool :=
  let u := (hdrUnit h).toNat
  let o := (hdrOp h).toNat
  let a := (hdrArg h).toNat
  let l := hdrLen h
  (u == 0 && o == 0)
    || (u == 0 && o == 1 && a == 0 && l == 0)
    || ((u == 1 || u == 2) && o == 1 && a ≤ 4 && l == 1)
    || ((u == 1 || u == 2) && o == 2 && a == 0 && l == 0)
    || (u == 1 && o == 3 && l == 0)
    || (u == 2 && o == 3 && a == 0)
    || ((u == 1 || u == 2) && o == 4 && a == 0 && l == 0)
    || (u == 2 && o == 5 && a ≤ 3 && l == 0)
    || ((u == 1 || u == 2) && o == 15 && a == 0 && l == 0)

/-! ## Decoding one delivered command -/

/-- Why the decoder rejects a header: the part of R88's table it breaks. -/
inductive Reject
  /-- UNIT 3..15 (R82). -/
  | reservedUnit
  /-- an OP whose cell in R83 is "reserved". -/
  | reservedOp
  /-- an ARG that R84 does not allow. -/
  | badArg
  /-- a LEN that R85 does not allow. -/
  | badLen
deriving DecidableEq, Repr

/-- What the decoder answers for a header and its LEN payload words. -/
inductive Decoded
  | instr (i : Instr)
  | reject (why : Reject)
deriving DecidableEq, Repr

/-- The configuration field with index `ARG` (R103); indices 5..255 are illegal. -/
def cfgFieldOf (arg : Byte) : Option CfgField :=
  match arg.toNat with
  | 0 => some .baud
  | 1 => some .space
  | 2 => some .mark
  | 3 => some .sampleRate
  | 4 => some .samplesPerFrame
  | _ => none

/-- The index of a configuration field (R103). -/
def cfgIndex : CfgField → Byte
  | .baud => 0
  | .space => 1
  | .mark => 2
  | .sampleRate => 3
  | .samplesPerFrame => 4

/-- A command that takes ARG = 0 and LEN = 0 (R84, R85). -/
def decodeBare (i : Instr) (h : Word) : Decoded :=
  if hdrArg h ≠ 0 then .reject .badArg
  else if hdrLen h ≠ 0 then .reject .badLen
  else .instr i

/-- A CFGW command: field index in ARG, LEN = 1, the value in payload word 0 (R84 to R86). -/
def decodeCfgw (mk : CfgField → Word → Instr) (h : Word) (payload : List Word) : Decoded :=
  match cfgFieldOf (hdrArg h) with
  | none => .reject .badArg
  | some f =>
    match payload with
    | [v] => .instr (mk f v)
    | _ => .reject .badLen

/-- M.BYTE: any ARG, LEN = 0 (R84, R85). -/
def decodeByte (h : Word) : Decoded :=
  if hdrLen h ≠ 0 then .reject .badLen else .instr (.mByte (hdrArg h))

/-- D.FRAME: ARG = 0, any LEN (R84, R85). -/
def decodeFrame (h : Word) (payload : List Word) : Decoded :=
  if hdrArg h ≠ 0 then .reject .badArg else .instr (.dFrame payload)

/-- D.CLS: ARG[0] space, ARG[1] mark, ARG[7:2] zero, LEN = 0 (R84, R85). -/
def decodeCls (h : Word) : Decoded :=
  if (hdrArg h).extractLsb' 2 6 ≠ 0 then .reject .badArg
  else if hdrLen h ≠ 0 then .reject .badLen
  else .instr (.dCls ((hdrArg h).getLsbD 0) ((hdrArg h).getLsbD 1))

/-- The opcode map of UNIT 0 (R83). -/
def decodeGlobal (h : Word) (payload : List Word) : Decoded :=
  match (hdrOp h).toNat with
  | 0 => .instr (.nop (hdrArg h) payload)
  | 1 => decodeBare .grst h
  | _ => .reject .reservedOp

/-- The opcode map of UNIT 1, MOD (R83). -/
def decodeMod (h : Word) (payload : List Word) : Decoded :=
  match (hdrOp h).toNat with
  | 1 => decodeCfgw .mCfgw h payload
  | 2 => decodeBare .mStart h
  | 3 => decodeByte h
  | 4 => decodeBare .mEnd h
  | 15 => decodeBare .mRst h
  | _ => .reject .reservedOp

/-- The opcode map of UNIT 2, DEM (R83). -/
def decodeDem (h : Word) (payload : List Word) : Decoded :=
  match (hdrOp h).toNat with
  | 1 => decodeCfgw .dCfgw h payload
  | 2 => decodeBare .dStart h
  | 3 => decodeFrame h payload
  | 4 => decodeBare .dEnd h
  | 5 => decodeCls h
  | 15 => decodeBare .dRst h
  | _ => .reject .reservedOp

/-- The command of header `h` with its LEN payload words, or the name of what is wrong (R83 to R89). -/
def decodeCommand (h : Word) (payload : List Word) : Decoded :=
  match (hdrUnit h).toNat with
  | 0 => decodeGlobal h payload
  | 1 => decodeMod h payload
  | 2 => decodeDem h payload
  | _ => .reject .reservedUnit

/-! ## Taking one command off the stream (R80, R91) -/

/-- The stream holds at least `n` words. -/
def hasWords : Nat → List Word → Bool
  | 0, _ => true
  | _ + 1, [] => false
  | n + 1, _ :: ws => hasWords n ws

/-- The header, its LEN payload words and the rest of the stream, or none while the command has not been
delivered whole (R63, R91, R241). Whether the header is legal plays no part. -/
def takeCommand : List Word → Option (Word × List Word × List Word)
  | [] => none
  | h :: ws =>
    if hasWords (hdrLen h) ws then some (h, ws.take (hdrLen h), ws.drop (hdrLen h)) else none

/-- The decoder over the stream: the answer for the first whole command, and the words after it. -/
def decode (stream : List Word) : Option (Decoded × List Word) :=
  match takeCommand stream with
  | none => none
  | some (h, payload, rest) => some (decodeCommand h payload, rest)

/-! ## Encoding (R81, R83 to R86, R93) -/

/-- ARG of D.CLS from the detector pair: bit 0 space, bit 1 mark (R84). -/
def clsArg (space mark : Bool) : Byte := (0 : BitVec 6) ++ BitVec.ofBool mark ++ BitVec.ofBool space

/-- The header word of a command. This is also the word a unit fault records in FCMD (R203). -/
def encodeHeader : Instr → Word
  | .nop arg payload => mkHeader 0 0 arg (BitVec.ofNat 16 payload.length)
  | .grst => mkHeader 0 1 0 0
  | .mCfgw f _ => mkHeader 1 1 (cfgIndex f) 1
  | .mStart => mkHeader 1 2 0 0
  | .mByte b => mkHeader 1 3 b 0
  | .mEnd => mkHeader 1 4 0 0
  | .mRst => mkHeader 1 15 0 0
  | .dCfgw f _ => mkHeader 2 1 (cfgIndex f) 1
  | .dStart => mkHeader 2 2 0 0
  | .dFrame payload => mkHeader 2 3 0 (BitVec.ofNat 16 payload.length)
  | .dEnd => mkHeader 2 4 0 0
  | .dCls s m => mkHeader 2 5 (clsArg s m) 0
  | .dRst => mkHeader 2 15 0 0

/-- The payload words of a command (R85). -/
def encodePayload : Instr → List Word
  | .nop _ payload => payload
  | .grst => []
  | .mCfgw _ v => [v]
  | .mStart => []
  | .mByte _ => []
  | .mEnd => []
  | .mRst => []
  | .dCfgw _ v => [v]
  | .dStart => []
  | .dFrame payload => payload
  | .dEnd => []
  | .dCls _ _ => []
  | .dRst => []

/-- The 1 + LEN words of a command (R80). -/
def encode (i : Instr) : List Word := encodeHeader i :: encodePayload i

/-! ## Byte transports (R66) -/

/-- The four bytes of a word, bits 7:0 first. -/
def wordBytes (w : Word) : List Byte :=
  [w.extractLsb' 0 8, w.extractLsb' 8 8, w.extractLsb' 16 8, w.extractLsb' 24 8]

/-- The word that four bytes carry, the first byte in bits 7:0. -/
def bytesWord (b0 b1 b2 b3 : Byte) : Word := b3 ++ b2 ++ b1 ++ b0

/-- The whole words of a byte stream, and the bytes that do not fill a word yet. -/
def wordsOfBytes : List Byte → List Word × List Byte
  | b0 :: b1 :: b2 :: b3 :: bs =>
    (bytesWord b0 b1 b2 b3 :: (wordsOfBytes bs).1, (wordsOfBytes bs).2)
  | bs => ([], bs)

/-- The bytes of a sequence of words, in order. -/
def bytesOfWords (ws : List Word) : List Byte := ws.flatMap wordBytes

/-! ## The opcode table's numbering of bits -/

/-- The next `n` words of the number `v`, 32 bits each, lowest bits first. -/
def wordsOfNat : Nat → Nat → List Word
  | 0, _ => []
  | n + 1, v => BitVec.ofNat 32 v :: wordsOfNat n (v >>> 32)

/-- The words of the instruction whose `nbits` lowest bits are `w` and whose other bits are 0: the header
and as many payload words as its LEN says. -/
def tableWords (nbits w : Nat) : List Word :=
  let v := w % 2 ^ nbits
  BitVec.ofNat 32 v :: wordsOfNat (hdrLen (BitVec.ofNat 32 v)) (v >>> 32)

/-- The instruction the decoder reads from a table word, none where it rejects. -/
def decodeTableWord (nbits w : Nat) : Option Instr :=
  match decode (tableWords nbits w) with
  | some (.instr i, _) => some i
  | _ => none

end Sys2Proof
end

