-- ==== Sys2Proof/Config.lean ====
section
/-! DEFINITION. The parameters of the core (00_scope.md R5, R7, R8) and the two functions the spec
leaves free. -/

namespace Sys2Proof

/-- A tone detector `DETECT(f, sr, spf, θ, x)` (R8): target frequency, sample rate, frame size, threshold
and the normalized samples of one frame, to "energy at the target frequency exceeds the threshold". -/
abbrev Detector := Nat → Nat → Nat → Rat → List Rat → Bool

/-- SR_DEFAULT (R5): the sample rate a raw 0 selects. -/
def Config.srDefault : Nat := 8000

/-- SPF_MAX (R5, I2): the largest effective samples per frame of this hardware. -/
def Config.spfMax : Nat := 65535

/-- DETECT_THRESHOLD (R5): 0.5. -/
def Config.detectThreshold : Rat := 1 / 2

/-- FREE VALUE. The external tone detector (R8, R164, U2, U3), a pure function of its arguments (I14).
Assumption log entry 1. -/
opaque Config.detect : Nat → Nat → Nat → Rat → List Rat → Bool

/-- FREE VALUE. `TONE_PCM(f, j)` at sample rate `sr`, arguments in the order `f sr j`, for the angles off the
π/4 grid at which the model's enclosure of the sine leaves more than one value (R7, D11, I1).
Assumption log entry 2. -/
opaque Config.toneOffGrid : Nat → Nat → Nat → BitVec 16

end Sys2Proof
end

