-- ==== Sys2Proof/Machine/State.lean ====
section
/-! DEFINITION. The state of the core (10_state.md) and its value after power-on (R41, R231). -/

namespace Sys2Proof.Machine

/-- Why the machine stops. It has no constructor: no rule of the spec stops the core. A unit fault is a
next state with the unit in ERROR (R203), an illegal header is a next state too (R89, R207), and no
behaviour is left undefined. Nobody raises it, so it is safe. Assumption log entry 12. -/
inductive Fault
deriving DecidableEq, Repr

/-- Why an instruction has no meaning. -/
inductive Refusal
  /-- Raised only by an arm of `exec` whose instruction has no meaning yet (safe). There is none: every
  arm calls a meaning. -/
  | notModelled (mnemonic : String)
deriving DecidableEq, Repr

/-- The cause codes of a unit fault (60_exceptions.md R202). -/
inductive Cause
  /-- 0x00: the unit is not in ERROR. -/
  | none
  /-- 0x01 E_ILLEGAL_CMD. -/
  | illegalCmd
  /-- 0x02 E_STATE. -/
  | state
  /-- 0x03 E_FRAME_LEN. -/
  | frameLen
  /-- 0x10 E_CFG_MISSING. -/
  | cfgMissing
  /-- 0x11 E_CFG_SPF_ZERO. -/
  | cfgSpfZero
  /-- 0x12 E_CFG_SPF_RANGE. -/
  | cfgSpfRange
  /-- 0x13 E_CFG_NONINT. -/
  | cfgNonint
  /-- 0x20 E_PREAMBLE. -/
  | preamble
  /-- 0x21 E_BITPOS_OVF. -/
  | bitposOvf
deriving DecidableEq, Repr

/-- `M.STATE` (R24). -/
inductive ModState
  | idle
  | run
  | done
  | error
deriving DecidableEq, Repr

/-- `D.STATE` (R31). -/
inductive DemState
  | idle
  | preambleSpace
  | preambleMark
  | decode
  | done
  | error
deriving DecidableEq, Repr

/-- The five raw configuration registers of a unit (R28, R34). -/
structure RawCfg where
  baud : Word
  space : Word
  mark : Word
  sr : Word
  spf : Word
deriving DecidableEq, Repr

/-- The modulator unit MOD (R24 to R30). `M.BUFCNT` is the length of `buf`, not a field. -/
structure ModUnit where
  /-- `M.STATE` (R24). -/
  state : ModState
  /-- `M.FIRST` (R26): the preamble has not been emitted yet. -/
  first : Bool
  /-- `M.CAUSE` (R27). -/
  cause : Cause
  /-- `M.FCMD` (R27): the header of the command that faulted. -/
  fcmd : Word
  /-- `M.BAUD` to `M.SPF` (R28). -/
  cfg : RawCfg
  /-- `M.SR_EFF` (R29). -/
  srEff : Word
  /-- `M.SPF_EFF` (R29). -/
  spfEff : Word
  /-- `M.NSYM` (R29). -/
  nsym : Word
  /-- `M.BUF` (R30), oldest sample first. -/
  buf : List Sample
deriving DecidableEq, Repr

/-- The demodulator unit DEM (R31 to R39). -/
structure DemUnit where
  /-- `D.STATE` (R31). -/
  state : DemState
  /-- `D.CAUSE` (R33). -/
  cause : Cause
  /-- `D.FCMD` (R33). -/
  fcmd : Word
  /-- `D.BAUD` to `D.SPF` (R34). -/
  cfg : RawCfg
  /-- `D.SR_EFF` (R35). -/
  srEff : Word
  /-- `D.SPF_EFF` (R35). -/
  spfEff : Word
  /-- `D.KSYM` (R35). -/
  ksym : Word
  /-- `D.CLOCK` (R36), a count of frames. -/
  clock : Word
  /-- `D.SPACES` (R37). -/
  spaces : Word
  /-- `D.MARKS` (R37). -/
  marks : Word
  /-- `D.ACC` (R38). -/
  acc : Byte
  /-- `D.BITPOS` (R39). -/
  bitpos : BitVec 4
deriving DecidableEq, Repr

/-- An item of `MOD_OUT` (R40). -/
inductive ModItem
  /-- `FRAME(s)`: exactly `M.SPF_EFF` samples. -/
  | frame (samples : List Sample)
  /-- `TAIL(s)`: the 1 to `M.SPF_EFF` − 1 samples left at M.END (R145). -/
  | tail (samples : List Sample)
deriving DecidableEq, Repr

/-- The whole state. The two units share nothing (R3, R72). -/
structure State where
  /-- `G.STATUS.ILL` (R23). -/
  ill : Bool
  mod : ModUnit
  dem : DemUnit
  /-- `MOD_OUT` (R40), head first. -/
  modOut : List ModItem
  /-- `DEM_OUT` (R40), head first. -/
  demOut : List Byte
  /-- The MODEL's own field: command words the host has delivered and the core has not accepted
  (R63, R241). Assumption log entry 3. -/
  cmdIn : List Word
deriving DecidableEq, Repr

/-- Raw configuration after reset: every register 0 (R41). -/
def RawCfg.reset : RawCfg := { baud := 0, space := 0, mark := 0, sr := 0, spf := 0 }

/-- MOD after any reset (R41): IDLE, FIRST = 1, everything else 0 or empty. -/
def ModUnit.reset : ModUnit :=
  { state := .idle, first := true, cause := .none, fcmd := 0, cfg := RawCfg.reset,
    srEff := 0, spfEff := 0, nsym := 0, buf := [] }

/-- DEM after any reset (R41): IDLE, everything else 0. -/
def DemUnit.reset : DemUnit :=
  { state := .idle, cause := .none, fcmd := 0, cfg := RawCfg.reset,
    srEff := 0, spfEff := 0, ksym := 0, clock := 0, spaces := 0, marks := 0, acc := 0, bitpos := 0 }

/-- The state after power-on (R231): both units reset, ILL 0, both queues empty. No command word has
been delivered. -/
def State.reset : State :=
  { ill := false, mod := ModUnit.reset, dem := DemUnit.reset, modOut := [], demOut := [], cmdIn := [] }

end Sys2Proof.Machine
end

