-- ==== Sys2Proof/Machine/Flags.lean ====
section
/-! DEFINITION. The flag-like state: state and cause codes, the three status words, and which states
accept which commands (10_state.md R23 to R27, R31 to R33; 40_control.md R100). -/

namespace Sys2Proof.Machine

/-- The code of `M.STATE` in `M.STATUS[1:0]` (R24, R25). -/
def ModState.code : ModState → BitVec 2
  | .idle => 0
  | .run => 1
  | .done => 2
  | .error => 3

/-- The code of `D.STATE` in `D.STATUS[2:0]` (R31, R32). -/
def DemState.code : DemState → BitVec 3
  | .idle => 0
  | .preambleSpace => 1
  | .preambleMark => 2
  | .decode => 3
  | .done => 4
  | .error => 5

/-- The 8-bit cause code (R202). -/
def Cause.code : Cause → BitVec 8
  | .none => 0x00
  | .illegalCmd => 0x01
  | .state => 0x02
  | .frameLen => 0x03
  | .cfgMissing => 0x10
  | .cfgSpfZero => 0x11
  | .cfgSpfRange => 0x12
  | .cfgNonint => 0x13
  | .preamble => 0x20
  | .bitposOvf => 0x21

/-- `G.STATUS` (R23): ILL in bit 0, the mirrors MERR in bit 1 and DERR in bit 2, the rest 0. -/
def State.gStatus (s : State) : Word :=
  (0 : BitVec 29) ++ BitVec.ofBool (s.dem.state == .error) ++ BitVec.ofBool (s.mod.state == .error)
    ++ BitVec.ofBool s.ill

/-- `M.STATUS` (R25): STATE in bits 1:0, FIRST in bit 3, CAUSE in bits 15:8, reserved bits 0. -/
def ModUnit.status (m : ModUnit) : Word :=
  (0 : BitVec 16) ++ m.cause.code ++ (0 : BitVec 4) ++ BitVec.ofBool m.first ++ (0 : BitVec 1)
    ++ m.state.code

/-- `D.STATUS` (R32): STATE in bits 2:0, CAUSE in bits 15:8, reserved bits 0. -/
def DemUnit.status (d : DemUnit) : Word :=
  (0 : BitVec 16) ++ d.cause.code ++ (0 : BitVec 5) ++ d.state.code

/-- `StateOK(M, o)` for o ∈ {1, 2}: CFGW and START need IDLE (R100). -/
def ModState.acceptsConfig : ModState → Bool
  | .idle => true
  | .run => false
  | .done => false
  | .error => false

/-- `StateOK(M, o)` for o ∈ {3, 4}: M.BYTE and M.END need RUN (R100). -/
def ModState.acceptsStream : ModState → Bool
  | .idle => false
  | .run => true
  | .done => false
  | .error => false

/-- `StateOK(D, o)` for o ∈ {1, 2}: CFGW and START need IDLE (R100). -/
def DemState.acceptsConfig : DemState → Bool
  | .idle => true
  | .preambleSpace => false
  | .preambleMark => false
  | .decode => false
  | .done => false
  | .error => false

/-- `StateOK(D, o)` for o ∈ {3, 4, 5}: D.FRAME, D.END and D.CLS need a protocol state (R100). -/
def DemState.acceptsStream : DemState → Bool
  | .idle => false
  | .preambleSpace => true
  | .preambleMark => true
  | .decode => true
  | .done => false
  | .error => false

end Sys2Proof.Machine
end

