-- ==== Sys2Proof/Machine/Operands.lean ====
section
/-! DEFINITION. Operand forms: the integer operators of 00_scope.md R10, the configuration fields of
40_control.md R103, and the samples of a frame (30_encoding.md R87; 42_demodulator.md R161, R163;
41_modulator.md R133; 20_memory.md R64). -/

namespace Sys2Proof.Machine

/-- `ceil_div(a, b)` (R10). -/
def ceilDiv (a b : Nat) : Nat := (a + b - 1) / b

/-- Writes one raw configuration register (R103, R104). -/
def RawCfg.write (c : RawCfg) (f : CfgField) (v : Word) : RawCfg :=
  match f with
  | .baud => { c with baud := v }
  | .space => { c with space := v }
  | .mark => { c with mark := v }
  | .sampleRate => { c with sr := v }
  | .samplesPerFrame => { c with spf := v }

/-- Reads one raw configuration register (R103). -/
def RawCfg.read (c : RawCfg) (f : CfgField) : Word :=
  match f with
  | .baud => c.baud
  | .space => c.space
  | .mark => c.mark
  | .sampleRate => c.sr
  | .samplesPerFrame => c.spf

/-- Sample `i` of a D.FRAME payload (R87): the low half of word `i div 2` for even `i`, the high half
for odd `i`. -/
def sampleAt (payload : List Word) (i : Nat) : Sample :=
  (payload.getD (i / 2) 0).extractLsb' (16 * (i % 2)) 16

/-- The `n` samples of a D.FRAME payload (R87). Bits of the payload beyond them are ignored (I6). -/
def frameSamples (n : Nat) (payload : List Word) : List Sample := (List.range n).map (sampleAt payload)

/-- Packs samples two per word, the even sample in the low half, padding 0 (R87, R93 `d.frame`). -/
def packSamples : List Sample → List Word
  | [] => []
  | [a] => [(0 : Sample) ++ a]
  | a :: b :: rest => (b ++ a) :: packSamples rest

/-- `Norm(r)` (R161): r / 32768 for a negative sample, else r / 32767, as an exact rational. -/
def normPcm (r : Sample) : Rat := if r.toInt < 0 then (r.toInt : Rat) / 32768 else (r.toInt : Rat) / 32767

/-- `trunc(q)` (R10): toward zero. -/
def truncRat (q : Rat) : Int := if q < 0 then q.ceil else q.floor

/-- `PCM16(v)` (R133) of a rational sample. -/
def pcm16 (v : Rat) : Int := if v < 0 then truncRat (v * 32768) else truncRat (v * 32767)

/-- The three-way class of a frame (R163). -/
inductive ToneClass
  | space
  | mark
  | ambig
deriving DecidableEq, Repr

/-- `Cls(s, m)` (R163). -/
def classify (s m : Bool) : ToneClass :=
  if s && !m then .space else if m && !s then .mark else .ambig

/-- The class of a frame under a detector (R162, R163): two calls, one at `D.SPACE` and one at `D.MARK`,
on the normalized samples. -/
def frameClass (detect : Detector) (d : DemUnit) (payload : List Word) : ToneClass :=
  let n := d.spfEff.toNat
  let x := (frameSamples n payload).map normPcm
  classify (detect d.cfg.space.toNat d.srEff.toNat n Config.detectThreshold x)
    (detect d.cfg.mark.toNat d.srEff.toNat n Config.detectThreshold x)

/-- The samples of an output item. -/
def ModItem.samples : ModItem → List Sample
  | .frame s => s
  | .tail s => s

/-- The bytes of one sample, bits 7:0 first (R64). -/
def sampleBytes (r : Sample) : List Byte := [r.extractLsb' 0 8, r.extractLsb' 8 8]

/-- An output item delivered as bytes: little-endian PCM, for FRAME and TAIL alike (R64, D35). -/
def ModItem.bytes (item : ModItem) : List Byte := item.samples.flatMap sampleBytes

end Sys2Proof.Machine
end

