-- ==== Sys2Proof/Machine/Ops.lean ====
section
/-! DEFINITION. The shared operations: fault entry and its return (60_exceptions.md), the resets
(70_reset_and_hazards.md), the checks every command passes (40_control.md R100), validation (R106) and
the two output ports (10_state.md R40). -/

namespace Sys2Proof.Machine

/-! ## Taking a fault, and the way back -/

/-- `raise Fault(R, cause)` by a command with header `h` (R203): exactly three writes, STATE to ERROR,
CAUSE and FCMD. The one operation every unit fault goes through. -/
def State.raiseFault (u : UnitId) (cause : Cause) (h : Word) (s : State) : State :=
  match u with
  | .mod => { s with mod := { s.mod with state := .error, cause := cause, fcmd := h } }
  | .dem => { s with dem := { s.dem with state := .error, cause := cause, fcmd := h } }

/-- `raise Illegal()` (R207): the sticky global flag, and nothing else. -/
def State.raiseIllegal (s : State) : State := { s with ill := true }

/-- `ResetUnit(R)` (R112, R113, R209): the unit's registers and M.BUF take their reset value; the queues,
ILL and the other unit stay. The only return from a fault. -/
def State.resetUnit (u : UnitId) (s : State) : State :=
  match u with
  | .mod => { s with mod := ModUnit.reset }
  | .dem => { s with dem := DemUnit.reset }

/-- GRST (R102, R230): both units reset and ILL cleared; the queues stay. -/
def State.resetAll (s : State) : State :=
  { (s.resetUnit .mod).resetUnit .dem with ill := false }

/-- Whether a unit is in ERROR. -/
def State.inError (u : UnitId) (s : State) : Bool :=
  match u with
  | .mod => s.mod.state == .error
  | .dem => s.dem.state == .error

/-! ## The checks of Step (R100, R206) -/

/-- A legal MOD command other than M.RST: no effect in ERROR, E_STATE where StateOK is false, else the
command's rule `act`. -/
def modCommand (h : Word) (ok : ModState → Bool) (act : State → State) (s : State) : State :=
  if s.inError .mod then s
  else if ok s.mod.state then act s
  else s.raiseFault .mod .state h

/-- A legal DEM command other than D.RST: no effect in ERROR, E_STATE where StateOK is false, else the
command's rule `act`. -/
def demCommand (h : Word) (ok : DemState → Bool) (act : State → State) (s : State) : State :=
  if s.inError .dem then s
  else if ok s.dem.state then act s
  else s.raiseFault .dem .state h

/-- E_ILLEGAL_CMD in the addressed unit, or no effect if it is in ERROR (R89). -/
def illegalInUnit (u : UnitId) (h : Word) (s : State) : State :=
  if s.inError u then s else s.raiseFault u .illegalCmd h

/-- The effect of a header that is not legal (R89, R206, R207). -/
def illegalCommand (h : Word) (s : State) : State :=
  match (hdrUnit h).toNat with
  | 1 => illegalInUnit .mod h s
  | 2 => illegalInUnit .dem h s
  | _ => s.raiseIllegal

/-! ## Validation (R106, R107) -/

/-- The effective sample rate: a raw 0 selects 8000. -/
def RawCfg.effSr (c : RawCfg) : Nat := if c.sr = 0 then Config.srDefault else c.sr.toNat

/-- The effective samples per frame: a raw 0 selects `sr div (5 · baud)`. -/
def RawCfg.effSpf (c : RawCfg) : Nat :=
  if c.spf = 0 then c.effSr / (5 * c.baud.toNat) else c.spf.toNat

/-- What `Validate(R)` returns. -/
inductive Validated
  | cause (c : Cause)
  | ok (sr spf : Nat)
deriving DecidableEq, Repr

/-- `Validate(R)` (R106): the checks in the spec's order; the last one is MOD's alone. -/
def validate (u : UnitId) (c : RawCfg) : Validated :=
  if c.baud = 0 ∨ c.space = 0 ∨ c.mark = 0 then .cause .cfgMissing
  else if c.effSpf = 0 then .cause .cfgSpfZero
  else if Config.spfMax < c.effSpf then .cause .cfgSpfRange
  else if u = .mod ∧ c.effSr % c.baud.toNat ≠ 0 then .cause .cfgNonint
  else .ok c.effSr c.effSpf

/-! ## The output queues (R11, R40) -/

/-- `EmitM(item)`, for a run of items in order. -/
def State.emitMod (items : List ModItem) (s : State) : State := { s with modOut := s.modOut ++ items }

/-- `EmitD(byte)`. -/
def State.emitDem (b : Byte) (s : State) : State := { s with demOut := s.demOut ++ [b] }

end Sys2Proof.Machine
end

