-- ==== Sys2Proof/Machine/Control.lean ====
section
/-! DEFINITION. Control and configuration commands (40_control.md): NOP, GRST, M.CFGW, D.CFGW, M.START,
D.START, M.RST, D.RST. -/

namespace Sys2Proof.Machine

/-- NOP (R101): no effect, in every state. -/
def execNop (_arg : Byte) (_payload : List Word) (s : State) : Host.Outcome State Fault Refusal := .next s

/-- GRST (R102): acts in every state. -/
def execGrst (s : State) : Host.Outcome State Fault Refusal := .next s.resetAll

/-- The rule of M.CFGW (R104): `M.<field F> <- v`, any value, no check. -/
def writeModCfg (f : CfgField) (v : Word) (s : State) : State :=
  { s with mod := { s.mod with cfg := s.mod.cfg.write f v } }

/-- M.CFGW (R104). -/
def execMCfgw (f : CfgField) (v : Word) (s : State) : Host.Outcome State Fault Refusal :=
  .next (modCommand (encodeHeader (.mCfgw f v)) ModState.acceptsConfig (writeModCfg f v) s)

/-- The rule of D.CFGW (R105). -/
def writeDemCfg (f : CfgField) (v : Word) (s : State) : State :=
  { s with dem := { s.dem with cfg := s.dem.cfg.write f v } }

/-- D.CFGW (R105). -/
def execDCfgw (f : CfgField) (v : Word) (s : State) : Host.Outcome State Fault Refusal :=
  .next (demCommand (encodeHeader (.dCfgw f v)) DemState.acceptsConfig (writeDemCfg f v) s)

/-- The rule of M.START (R110): a cause faults and leaves the effective registers as they were. -/
def startMod (h : Word) (s : State) : State :=
  match validate .mod s.mod.cfg with
  | .cause c => s.raiseFault .mod c h
  | .ok sr spf =>
    { s with mod := { s.mod with
        srEff := BitVec.ofNat 32 sr
        spfEff := BitVec.ofNat 32 spf
        nsym := BitVec.ofNat 32 (sr / s.mod.cfg.baud.toNat)
        first := true
        buf := []
        state := .run } }

/-- M.START (R110). -/
def execMStart (s : State) : Host.Outcome State Fault Refusal :=
  .next (modCommand (encodeHeader .mStart) ModState.acceptsConfig (startMod (encodeHeader .mStart)) s)

/-- The rule of D.START (R111). The product `spf · baud` is exact (up to 2^48). -/
def startDem (h : Word) (s : State) : State :=
  match validate .dem s.dem.cfg with
  | .cause c => s.raiseFault .dem c h
  | .ok sr spf =>
    { s with dem := { s.dem with
        srEff := BitVec.ofNat 32 sr
        spfEff := BitVec.ofNat 32 spf
        ksym := BitVec.ofNat 32 (ceilDiv sr (spf * s.dem.cfg.baud.toNat))
        clock := 0
        spaces := 0
        marks := 0
        acc := 0
        bitpos := 0
        state := .preambleSpace } }

/-- D.START (R111). -/
def execDStart (s : State) : Host.Outcome State Fault Refusal :=
  .next (demCommand (encodeHeader .dStart) DemState.acceptsConfig (startDem (encodeHeader .dStart)) s)

/-- M.RST (R112): acts in every state, ERROR among them. -/
def execMRst (s : State) : Host.Outcome State Fault Refusal := .next (s.resetUnit .mod)

/-- D.RST (R113): acts in every state, ERROR among them. -/
def execDRst (s : State) : Host.Outcome State Fault Refusal := .next (s.resetUnit .dem)

end Sys2Proof.Machine
end

