-- ==== Sys2Proof/Machine/Demodulator.lean ====
section
/-! DEFINITION. Demodulator commands (42_demodulator.md): D.FRAME, D.CLS and D.END, the symbol-timing
state machine, the votes, the symbol decision and the clock re-arm. Counters are computed exactly and
narrowed when a register is written (R9, R186; assumption log entry 5). -/

namespace Sys2Proof.Machine

/-- `Vote(c)` (R168). -/
def DemUnit.vote (c : ToneClass) (d : DemUnit) : DemUnit :=
  match c with
  | .space => { d with spaces := BitVec.ofNat 32 (d.spaces.toNat + 1) }
  | .mark => { d with marks := BitVec.ofNat 32 (d.marks.toNat + 1) }
  | .ambig => d

/-- The bit of a symbol decision (R169): 1 if MARKS > SPACES; a tie decides 0. -/
def DemUnit.decidedBit (d : DemUnit) : Bool := d.spaces.toNat < d.marks.toNat

/-- The error of a symbol decision (R169): the minority count. -/
def DemUnit.decisionErr (d : DemUnit) : Word := if d.decidedBit then d.spaces else d.marks

/-- The fold of R170: shift right by one, the bit into position 7. -/
def foldBit (acc : Byte) (bit : Bool) : Byte :=
  (acc >>> 1) ||| (if bit then 0x80 else 0x00)

/-- `Decide()` (R169 to R171), for the command with header `h`: clear the votes, fold the bit, emit the
byte at the eighth bit, re-arm the clock to the error. The E_BITPOS_OVF branch keeps the writes made
before its `raise` (R12, R204; assumption log entry 9). -/
def decideSymbol (h : Word) (s : State) : State :=
  let d := s.dem
  let acc := foldBit d.acc d.decidedBit
  let pos := d.bitpos.toNat + 1
  let d' := { d with spaces := 0, marks := 0 }
  if pos = 8 then
    ({ s with dem := { d' with acc := 0, bitpos := 0, clock := d.decisionErr } }).emitDem acc
  else if 8 < pos then
    ({ s with dem := { d' with acc := acc, bitpos := BitVec.ofNat 4 pos } }).raiseFault .dem .bitposOvf h
  else
    { s with dem := { d' with acc := acc, bitpos := BitVec.ofNat 4 pos, clock := d.decisionErr } }

/-- The PREAMBLE_SPACE case (R165). -/
def stepPreambleSpace (c : ToneClass) (s : State) : State :=
  match c with
  | .mark => { s with dem := { s.dem with clock := 0, state := .preambleMark } }
  | .space => s
  | .ambig => s

/-- The PREAMBLE_MARK case (R166): class, then advance, then compare. -/
def stepPreambleMark (h : Word) (c : ToneClass) (s : State) : State :=
  match c with
  | .space => s.raiseFault .dem .preamble h
  | .ambig => s.raiseFault .dem .preamble h
  | .mark =>
    if s.dem.ksym.toNat ≤ s.dem.clock.toNat + 1 then
      { s with dem := { s.dem with clock := 0, state := .decode } }
    else
      { s with dem := { s.dem with clock := BitVec.ofNat 32 (s.dem.clock.toNat + 1) } }

/-- The DECODE case (R167): vote, advance, and decide at the boundary. -/
def stepDecode (h : Word) (c : ToneClass) (s : State) : State :=
  let n := s.dem.clock.toNat + 1
  let s' := { s with dem := { s.dem.vote c with clock := BitVec.ofNat 32 n } }
  if s.dem.ksym.toNat ≤ n then decideSymbol h s' else s'

/-- `DemodStep(c)` (R165 to R167), for the command with header `h`. Its callers have checked that the
state is a protocol state; in the others it does nothing (assumption log entry 8). -/
def demodStep (h : Word) (c : ToneClass) (s : State) : State :=
  match s.dem.state with
  | .preambleSpace => stepPreambleSpace c s
  | .preambleMark => stepPreambleMark h c s
  | .decode => stepDecode h c s
  | .idle => s
  | .done => s
  | .error => s

/-- The rule of D.FRAME (R172) with the detector as a parameter (R8): LEN first, then unpack, normalize,
detect, classify and step. -/
def deliverFrame (detect : Detector) (h : Word) (payload : List Word) (s : State) : State :=
  if payload.length ≠ ceilDiv s.dem.spfEff.toNat 2 then s.raiseFault .dem .frameLen h
  else demodStep h (frameClass detect s.dem payload) s

/-- D.FRAME under a given detector (R8, R172). -/
def frameCommand (detect : Detector) (payload : List Word) (s : State) : State :=
  demCommand (encodeHeader (.dFrame payload)) DemState.acceptsStream
    (deliverFrame detect (encodeHeader (.dFrame payload)) payload) s

/-- D.FRAME (R172), with this core's detector. -/
def execDFrame (payload : List Word) (s : State) : Host.Outcome State Fault Refusal :=
  .next (frameCommand Config.detect payload s)

/-- D.CLS (R173): the detector pair is the operand. -/
def execDCls (space mark : Bool) (s : State) : Host.Outcome State Fault Refusal :=
  .next (demCommand (encodeHeader (.dCls space mark)) DemState.acceptsStream
    (demodStep (encodeHeader (.dCls space mark)) (classify space mark)) s)

/-- The rule of D.END (R174). The branch at BITPOS = 8 is kept as the spec keeps it (C3, R183). -/
def endDem (s : State) : State :=
  if s.dem.bitpos.toNat = 8 then
    ({ s with dem := { s.dem with acc := 0, bitpos := 0, state := .done } }).emitDem s.dem.acc
  else
    { s with dem := { s.dem with state := .done } }

/-- D.END (R174). -/
def execDEnd (s : State) : Host.Outcome State Fault Refusal :=
  .next (demCommand (encodeHeader .dEnd) DemState.acceptsStream endDem s)

end Sys2Proof.Machine
end

