-- ==== Sys2Proof/Machine/Tone.lean ====
section
/-! DEFINITION. The tone generator (00_scope.md R7; 41_modulator.md R131, R134). `TONE_PCM(f, j)` is PCM16 of
sin(2π·f·j / sr) over the exact reals. On the π/4 grid it is the spec's table; elsewhere the sine is
enclosed between two rationals, and where both truncate to one integer that integer is the value. Assumption log
entry 2. -/

namespace Sys2Proof.Machine

/-! ## On the grid -/

/-- The table of R134: PCM16 of the sine of a multiple of π/4, at index (8·f·j / sr) mod 8. -/
def gridTone : Nat → Sample
  | 0 => 0
  | 1 => 23169
  | 2 => 32767
  | 3 => 23169
  | 4 => 0
  | 5 => BitVec.ofInt 16 (-23170)
  | 6 => BitVec.ofInt 16 (-32768)
  | _ => BitVec.ofInt 16 (-23170)

/-! ## Off the grid -/

/-- A rational below π, and 10⁻²⁰ above it one above π. -/
def piBelow : Rat := 314159265358979323846 / 100000000000000000000

/-- The distance from `piBelow` to a rational above π. -/
def piGap : Rat := 1 / 100000000000000000000

/-- The next terms of the sine's power series after `acc`: `term` is the term of degree 2·`k` − 1, and `n`
terms are added. -/
def sineSeries (sq : Rat) : Nat → Nat → Rat → Rat → Rat
  | 0, _, _, acc => acc
  | n + 1, k, term, acc =>
    sineSeries sq n (k + 1) (-(term * sq) / ((2 * k) * (2 * k + 1))) (acc + term)

/-- x − x³/3! + x⁵/5! − …, the first `n` terms. For x ≥ 0 an even `n` is below the sine and an odd `n` is
above it. -/
def sineSum (x : Rat) (n : Nat) : Rat := sineSeries (x * x) n 1 x 0

/-- Rationals around sin(π·`g` / `sr`), for 0 ≤ g ≤ sr / 2 and sr > 0. At g = sr / 6 the sine is 1/2 exactly.
DESIGN CHOICE at sr = 0, which no started unit has: both bounds are 0, so `sineTone` determines nothing there
(assumption log entry 2). -/
def sineBounds (g sr : Nat) : Rat × Rat :=
  if 0 < g ∧ 6 * g = sr then (1 / 2, 1 / 2)
  else
    let x := piBelow * g / sr
    let slack := piGap * g / sr
    (sineSum x 12 - slack, sineSum x 13 + slack)

/-- The phase f·j / sr folded into a quarter turn: the sign of the sine (true below 0), and `g` with
|sin(2π·f·j / sr)| = sin(π·g / sr). -/
def foldPhase (f sr j : Nat) : Bool × Nat :=
  let n := f * j % sr
  let neg := decide (sr ≤ 2 * n)
  let h := if neg then 2 * n - sr else 2 * n
  (neg, min h (sr - h))

/-- PCM16 of the sine (R133) where the enclosure determines it: its bounds are positive and truncate to
the same integer. At sr = 0 there is none. -/
def sineTone (f sr j : Nat) : Option Int :=
  let p := foldPhase f sr j
  let b := sineBounds p.2 sr
  let scale : Rat := if p.1 then 32768 else 32767
  let lo := (b.1 * scale).floor
  if 0 < b.1 ∧ lo = (b.2 * scale).floor then some (if p.1 then -lo else lo) else none

/-- `TONE_PCM(f, j)` at sample rate `sr` (R7). Where 8·f·j / sr is an integer it is the table's entry (R134);
elsewhere PCM16 of the enclosed sine; where the enclosure is too wide to tell, the free value of Config.
DESIGN CHOICE at sr = 0, which no started unit has and R7 does not speak of: 0 where f·j = 0, else the
free value (assumption log entry 2). -/
def tonePcm (f sr j : Nat) : Sample :=
  if 8 * f * j % sr = 0 then gridTone (8 * f * j / sr % 8)
  else
    match sineTone f sr j with
    | some n => BitVec.ofInt 16 n
    | none => Config.toneOffGrid f sr j

end Sys2Proof.Machine
end

