-- ==== Sys2Proof/Machine/Modulator.lean ====
section
/-! DEFINITION. Modulator commands (41_modulator.md): M.BYTE and M.END, the symbols, the preamble, the
sample accumulator and the framer. -/

namespace Sys2Proof.Machine

/-! ## Symbols -/

/-- The frequency of a symbol (R130): f(0) = `M.SPACE`, f(1) = `M.MARK`. -/
def ModUnit.freq (m : ModUnit) (b : Bool) : Nat := if b then m.cfg.mark.toNat else m.cfg.space.toNat

/-- `Sym(b)` (R131, R132): NSYM samples, the sample index restarting at 0. -/
def sym (m : ModUnit) (b : Bool) : List Sample :=
  (List.range m.nsym.toNat).map (tonePcm (m.freq b) m.srEff.toNat)

/-- The preamble (R135): one space symbol, then one mark symbol. -/
def preambleSamples (m : ModUnit) : List Sample := sym m false ++ sym m true

/-- `Bits(b)` (R136, R137): eight symbols, bit 0 first. -/
def byteSamples (m : ModUnit) (b : Byte) : List Sample :=
  (List.range 8).flatMap fun i => sym m (b.getLsbD i)

/-! ## The framer (R138, R139) -/

/-- `while |buf| ≥ spf` of R138: slices complete frames off the front, at most `fuel` of them, and answers
the frames and the leftover samples. -/
def frameLoop (spf : Nat) : Nat → List Sample → List ModItem × List Sample
  | 0, buf => ([], buf)
  | fuel + 1, buf =>
    if spf ≤ buf.length then
      (.frame (buf.take spf) :: (frameLoop spf fuel (buf.drop spf)).1,
        (frameLoop spf fuel (buf.drop spf)).2)
    else ([], buf)

/-- The framer. Each pass takes `spf` samples, so `|buf| div spf` passes end the loop. With spf = 0, which
no started unit has (R106), there is no pass: assumption log entry 7. -/
def slice (spf : Nat) (buf : List Sample) : List ModItem × List Sample :=
  frameLoop spf (buf.length / spf) buf

/-! ## Commands -/

/-- The rule of M.BYTE (R138). -/
def pushByte (b : Byte) (s : State) : State :=
  let m := s.mod
  let pre := if m.first then preambleSamples m else []
  let r := slice m.spfEff.toNat (m.buf ++ pre ++ byteSamples m b)
  ({ s with mod := { m with first := false, buf := r.2 } }).emitMod r.1

/-- M.BYTE (R138). -/
def execMByte (b : Byte) (s : State) : Host.Outcome State Fault Refusal :=
  .next (modCommand (encodeHeader (.mByte b)) ModState.acceptsStream (pushByte b) s)

/-- The rule of M.END (R143, R145): a TAIL if samples are left, and none otherwise. -/
def endMod (s : State) : State :=
  let m := s.mod
  ({ s with mod := { m with buf := [], state := .done } }).emitMod
    (if m.buf.isEmpty then [] else [.tail m.buf])

/-- M.END (R143). -/
def execMEnd (s : State) : Host.Outcome State Fault Refusal :=
  .next (modCommand (encodeHeader .mEnd) ModState.acceptsStream endMod s)

end Sys2Proof.Machine
end

