-- ==== Sys2Proof/Machine/Dispatch.lean ====
section
/-! DEFINITION. What one decoded command does: one arm per constructor of `Instr`, each one direct call of
its meaning. -/

namespace Sys2Proof.Machine

def exec (i : Instr) (s : State) : Host.Outcome State Fault Refusal :=
  match i with
  | .nop arg payload => Sys2Proof.Machine.execNop arg payload s
  | .grst => Sys2Proof.Machine.execGrst s
  | .mCfgw f v => Sys2Proof.Machine.execMCfgw f v s
  | .mStart => Sys2Proof.Machine.execMStart s
  | .mByte b => Sys2Proof.Machine.execMByte b s
  | .mEnd => Sys2Proof.Machine.execMEnd s
  | .mRst => Sys2Proof.Machine.execMRst s
  | .dCfgw f v => Sys2Proof.Machine.execDCfgw f v s
  | .dStart => Sys2Proof.Machine.execDStart s
  | .dFrame payload => Sys2Proof.Machine.execDFrame payload s
  | .dEnd => Sys2Proof.Machine.execDEnd s
  | .dCls space mark => Sys2Proof.Machine.execDCls space mark s
  | .dRst => Sys2Proof.Machine.execDRst s

end Sys2Proof.Machine
end

