-- ==== Sys2Proof/Machine/Fetch.lean ====
section
/-! DEFINITION. How the step takes its next command from the command channel (30_encoding.md R80, R91;
70_reset_and_hazards.md R241). The core has no program counter (R21). -/

namespace Sys2Proof.Machine

/-- What the step finds on the command channel. -/
inductive Fetched
  /-- No whole command has been delivered: the core waits (R232, R241). -/
  | waiting
  /-- A legal command; `after` is the state with its words accepted. -/
  | command (i : Instr) (after : State)
  /-- A header the decoder rejects; `after` is the state with its words accepted and discarded. -/
  | illegal (header : Word) (after : State)

/-- The next command of the stream. Its 1 + LEN words are removed, whether or not it is legal (R80). -/
def State.fetch (s : State) : Fetched :=
  match takeCommand s.cmdIn with
  | none => .waiting
  | some (h, payload, rest) =>
    match decodeCommand h payload with
    | .instr i => .command i { s with cmdIn := rest }
    | .reject _ => .illegal h { s with cmdIn := rest }

/-- Puts words at the head of the command channel, where the next command is fetched. -/
def State.withWords (s : State) (ws : List Word) : State := { s with cmdIn := ws ++ s.cmdIn }

end Sys2Proof.Machine
end

