-- ==== Sys2Proof/Machine/Step.lean ====
section
/-! DEFINITION. One step of the core: `Step(h, P)` of 40_control.md R100 on the next delivered command. -/

namespace Sys2Proof.Machine

/-- One step (R63, R100): wait while no whole command has been delivered, else execute exactly one
command. It is a function of the state (R199). -/
def step (s : State) : Host.Outcome State Fault Refusal :=
  match s.fetch with
  | .waiting => .next s
  | .command i after => exec i after
  | .illegal h after => .next (illegalCommand h after)

/-- The state with the words of a table instruction at the head of the command channel. It stands for
the host's delivery of that command: assumption log entry 3. -/
def State.withFetchWord (s : State) (nbits w : Nat) : State := s.withWords (tableWords nbits w)

end Sys2Proof.Machine
end

