-- ==== Sys2Proof/Machine/Assembler.lean ====
section
/-! DEFINITION. The assembler notation (30_encoding.md R93) and its pseudo-instructions (R94): from lines
of text to commands and words. Lexical details the spec does not give: assumption log entry 13. -/

namespace Sys2Proof.Machine

/-! ## Pseudo-instructions (R94) -/

/-- `m.init b, s, k [, r [, p]]`: an omitted field emits no write. -/
def asmModInit (b sp mk : Word) (sr spf : Option Word) : List Instr :=
  [.mCfgw .baud b, .mCfgw .space sp, .mCfgw .mark mk]
    ++ (sr.map (Instr.mCfgw .sampleRate)).toList
    ++ (spf.map (Instr.mCfgw .samplesPerFrame)).toList ++ [.mStart]

/-- `d.init`: the same expansion with `d.` in place of `m.`. -/
def asmDemInit (b sp mk : Word) (sr spf : Option Word) : List Instr :=
  [.dCfgw .baud b, .dCfgw .space sp, .dCfgw .mark mk]
    ++ (sr.map (Instr.dCfgw .sampleRate)).toList
    ++ (spf.map (Instr.dCfgw .samplesPerFrame)).toList ++ [.dStart]

/-- `m.bytes b0, ..., bn-1`: a chunk of the byte stream. -/
def asmBytes (bs : List Byte) : List Instr := bs.map .mByte

/-- `m.ascii "text"`: one M.BYTE per character; each must be a code point 0..255. -/
def asmAscii (text : List Char) : Option (List Instr) :=
  text.mapM fun c => if c.toNat < 256 then some (.mByte (BitVec.ofNat 8 c.toNat)) else none

/-- `d.frame s0, ..., sn-1`: the samples packed two per word (R87). -/
def asmFrame (samples : List Sample) : Instr := .dFrame (packSamples samples)

/-! ## Operands -/

/-- The value of a digit in base 10 or 16. -/
def digitValue (base : Nat) (c : Char) : Option Nat :=
  let v :=
    if '0' ≤ c ∧ c ≤ '9' then c.toNat - '0'.toNat
    else if 'a' ≤ c ∧ c ≤ 'f' then c.toNat - 'a'.toNat + 10
    else if 'A' ≤ c ∧ c ≤ 'F' then c.toNat - 'A'.toNat + 10
    else base
  if v < base then some v else none

/-- The number that digits continue from `acc`. -/
def digitsFrom (base : Nat) : Nat → List Char → Option Nat
  | acc, [] => some acc
  | acc, c :: cs =>
    match digitValue base c with
    | none => none
    | some v => digitsFrom base (acc * base + v) cs

/-- A decimal or `0x` hexadecimal number (R93). -/
def parseNat : List Char → Option Nat
  | [] => none
  | '0' :: 'x' :: c :: cs => digitsFrom 16 0 (c :: cs)
  | cs => digitsFrom 10 0 cs

/-- A number with an optional minus sign, for samples. -/
def parseInt : List Char → Option Int
  | '-' :: cs => (parseNat cs).map fun n => -(n : Int)
  | cs => (parseNat cs).map fun n => (n : Int)

/-- A number below 2^`w`, as a field of that width. -/
def asmField (w : Nat) (cs : List Char) : Option (BitVec w) :=
  match parseNat cs with
  | some n => if n < 2 ^ w then some (BitVec.ofNat w n) else none
  | none => none

/-- A sample in -32768..32767 (R93). -/
def asmSample (cs : List Char) : Option Sample :=
  match parseInt cs with
  | some n => if -32768 ≤ n ∧ n ≤ 32767 then some (BitVec.ofInt 16 n) else none
  | none => none

/-- A configuration field by name or by number (R93, R103). -/
def asmCfgField (cs : List Char) : Option CfgField :=
  match String.ofList cs with
  | "baud" => some .baud
  | "space" => some .space
  | "mark" => some .mark
  | "sr" => some .sampleRate
  | "spf" => some .samplesPerFrame
  | _ => (asmField 8 cs).bind cfgFieldOf

/-- A detector pair by name or by number (R93). -/
def asmCls (cs : List Char) : Option (Bool × Bool) :=
  match String.ofList cs with
  | "none" => some (false, false)
  | "space" => some (true, false)
  | "mark" => some (false, true)
  | "both" => some (true, true)
  | _ => (asmField 2 cs).map fun c => (c.getLsbD 0, c.getLsbD 1)

/-- The operands of `m.init` and `d.init`. -/
def asmInit (mk : Word → Word → Word → Option Word → Option Word → List Instr)
    (ops : List (List Char)) : Option (List Instr) :=
  match ops.mapM (asmField 32) with
  | some [b, s, k] => some (mk b s k none none)
  | some [b, s, k, r] => some (mk b s k (some r) none)
  | some [b, s, k, r, p] => some (mk b s k (some r) (some p))
  | _ => none

/-- The operands of `m.cfgw` and `d.cfgw`. -/
def asmCfgw (mk : CfgField → Word → Instr) : List (List Char) → Option (List Instr)
  | [f, v] =>
    match asmCfgField f, asmField 32 v with
    | some f, some v => some [mk f v]
    | _, _ => none
  | _ => none

/-- The operands of `nop`: none, or ARG and the payload words. -/
def asmNop : List (List Char) → Option (List Instr)
  | [] => some [.nop 0 []]
  | a :: ws =>
    match asmField 8 a, ws.mapM (asmField 32) with
    | some a, some ws => some [.nop a ws]
    | _, _ => none

/-- A command without operands. -/
def asmBare (i : Instr) : List (List Char) → Option (List Instr)
  | [] => some [i]
  | _ => none

/-- The operand of `m.byte`. -/
def asmByte : List (List Char) → Option (List Instr)
  | [b] => (asmField 8 b).map fun b => [.mByte b]
  | _ => none

/-- The operand of `d.cls`. -/
def asmClsLine : List (List Char) → Option (List Instr)
  | [c] => (asmCls c).map fun p => [.dCls p.1 p.2]
  | _ => none

/-- One mnemonic with its operands (R93, R94), less `m.ascii`. -/
def asmCommand (mnemonic : String) (ops : List (List Char)) : Option (List Instr) :=
  match mnemonic with
  | "nop" => asmNop ops
  | "grst" => asmBare .grst ops
  | "m.cfgw" => asmCfgw .mCfgw ops
  | "d.cfgw" => asmCfgw .dCfgw ops
  | "m.start" => asmBare .mStart ops
  | "d.start" => asmBare .dStart ops
  | "m.byte" => asmByte ops
  | "m.end" => asmBare .mEnd ops
  | "d.end" => asmBare .dEnd ops
  | "m.rst" => asmBare .mRst ops
  | "d.rst" => asmBare .dRst ops
  | "d.frame" => (ops.mapM asmSample).map fun ss => [asmFrame ss]
  | "d.cls" => asmClsLine ops
  | "m.init" => asmInit asmModInit ops
  | "d.init" => asmInit asmDemInit ops
  | "m.bytes" => (ops.mapM (asmField 8)).map asmBytes
  | _ => none

/-! ## Lines -/

/-- The line without its comment: `;` outside a quoted text starts one. -/
def stripComment (quoted : Bool) : List Char → List Char
  | [] => []
  | '"' :: cs => '"' :: stripComment (!quoted) cs
  | ';' :: cs => if quoted then ';' :: stripComment quoted cs else []
  | c :: cs => c :: stripComment quoted cs

/-- Spaces, tabs and carriage returns separate tokens. -/
def isBlank (c : Char) : Bool := c == ' ' || c == '\t' || c == '\r'

/-- A token without blanks at its ends. -/
def trimBlanks (cs : List Char) : List Char :=
  ((cs.dropWhile isBlank).reverse.dropWhile isBlank).reverse

/-- The parts of a text between separators. -/
def splitAtChar (sep : Char) : List Char → List (List Char)
  | [] => [[]]
  | c :: cs =>
    if c == sep then [] :: splitAtChar sep cs
    else
      match splitAtChar sep cs with
      | [] => [[c]]
      | part :: parts => (c :: part) :: parts

/-- The operand list of a line: none if it is blank, else the parts between commas. -/
def splitOperands (cs : List Char) : List (List Char) :=
  if (trimBlanks cs).isEmpty then [] else (splitAtChar ',' cs).map trimBlanks

/-- The characters between the quotes of a quoted text. -/
def unquote (cs : List Char) : Option (List Char) :=
  match trimBlanks cs with
  | '"' :: rest =>
    match rest.reverse with
    | '"' :: body => if body.contains '"' then none else some body.reverse
    | _ => none
  | _ => none

/-- The commands, if each has an encoding. DESIGN CHOICE (assumption log entry 13): R93 gives no bound on the
payload words of `nop` and on the samples of `d.frame`, and a command of more than 65535 payload
words has no encoding (R81, R91), so such a line is malformed. -/
def asmEncodable (is : List Instr) : Option (List Instr) := if is.all Instr.wf then some is else none

/-- The commands of one line (R93): one command or pseudo-instruction, or none on a blank line. -/
def assembleLine (line : List Char) : Option (List Instr) :=
  let text := trimBlanks (stripComment false line)
  let mnemonic := text.takeWhile fun c => !isBlank c
  let rest := text.dropWhile fun c => !isBlank c
  if mnemonic.isEmpty then some []
  else if mnemonic = ['m', '.', 'a', 's', 'c', 'i', 'i'] then (unquote rest).bind asmAscii
  else (asmCommand (String.ofList mnemonic) (splitOperands rest)).bind asmEncodable

/-- The commands of a program text, line by line; none if a line is malformed. -/
def assemble (text : List Char) : Option (List Instr) :=
  ((splitAtChar '\n' text).mapM assembleLine).map List.flatten

/-- The command words of a program text. -/
def assembleWords (text : List Char) : Option (List Word) :=
  (assemble text).map fun is => is.flatMap encode

end Sys2Proof.Machine
end

