-- ==== Sys2Proof/Machine/HostPort.lean ====
section
/-! DEFINITION. The host's read side (40_control.md R114 to R116) and the delivery of command words
(70_reset_and_hazards.md R241). None of these is a command (30_encoding.md R92). -/

namespace Sys2Proof.Machine

/-- REGRD(addr) (R61, R114): the register at `addr`, reserved bits 0; 0 at an unmapped or misaligned
address. No side effect. -/
def State.regRead (s : State) (addr : RegAddr) : Word :=
  match addr.toNat with
  | 0x000 => s.gStatus
  | 0x100 => s.mod.status
  | 0x104 => s.mod.fcmd
  | 0x110 => s.mod.cfg.baud
  | 0x114 => s.mod.cfg.space
  | 0x118 => s.mod.cfg.mark
  | 0x11C => s.mod.cfg.sr
  | 0x120 => s.mod.cfg.spf
  | 0x130 => s.mod.srEff
  | 0x134 => s.mod.spfEff
  | 0x138 => s.mod.nsym
  | 0x140 => BitVec.ofNat 32 s.mod.buf.length
  | 0x200 => s.dem.status
  | 0x204 => s.dem.fcmd
  | 0x210 => s.dem.cfg.baud
  | 0x214 => s.dem.cfg.space
  | 0x218 => s.dem.cfg.mark
  | 0x21C => s.dem.cfg.sr
  | 0x220 => s.dem.cfg.spf
  | 0x230 => s.dem.srEff
  | 0x234 => s.dem.spfEff
  | 0x238 => s.dem.ksym
  | 0x240 => s.dem.clock
  | 0x244 => s.dem.spaces
  | 0x248 => s.dem.marks
  | 0x24C => s.dem.acc.setWidth 32
  | 0x250 => s.dem.bitpos.setWidth 32
  | _ => 0

/-- MPOP (R115): the head of `MOD_OUT`, or NONE, and the state after. -/
def State.mpop (s : State) : Option ModItem × State :=
  match s.modOut with
  | [] => (none, s)
  | item :: rest => (some item, { s with modOut := rest })

/-- DPOP (R116): the head of `DEM_OUT`, or NONE, and the state after. -/
def State.dpop (s : State) : Option Byte × State :=
  match s.demOut with
  | [] => (none, s)
  | b :: rest => (some b, { s with demOut := rest })

/-- The host puts words on the command channel (R60, R241). They may be part of a command, one command
or many. -/
def State.deliver (ws : List Word) (s : State) : State := { s with cmdIn := s.cmdIn ++ ws }

/-- The host operations (R92). -/
inductive HostOp
  | regrd (addr : RegAddr)
  | mpop
  | dpop
deriving DecidableEq, Repr

/-- What a host operation returns. -/
inductive HostReply
  | word (w : Word)
  | item (i : Option ModItem)
  | byte (b : Option Byte)
deriving DecidableEq, Repr

/-- One host operation: the reply and the state after it (R69: only the pops change anything). -/
def hostOp (op : HostOp) (s : State) : HostReply × State :=
  match op with
  | .regrd addr => (.word (s.regRead addr), s)
  | .mpop => (.item s.mpop.1, s.mpop.2)
  | .dpop => (.byte s.dpop.1, s.dpop.2)

end Sys2Proof.Machine
end

