-- ==== Sys2Proof/Machine/Session.lean ====
section
/-! DEFINITION. A host session: deliveries, steps of the core and host operations in one order
(20_memory.md R71; 70_reset_and_hazards.md R230, R241). -/

namespace Sys2Proof.Machine

/-- What can happen at the host interface. -/
inductive HostAction
  /-- The host delivers words on the command channel. -/
  | deliver (ws : List Word)
  /-- The core takes one step: it accepts and executes one command, or waits. -/
  | accept
  /-- A host operation between two commands. -/
  | op (o : HostOp)
  /-- Power-on (R230): everything reset, both queues emptied, nothing delivered. -/
  | powerOn
deriving DecidableEq, Repr

/-- One event of a session: the replies it gives and the state after it. A step that stopped would leave
the state as it was; none does (assumption log entry 12). -/
def hostAction (a : HostAction) (s : State) : List HostReply × State :=
  match a with
  | .deliver ws => ([], s.deliver ws)
  | .accept =>
    match step s with
    | .next t => ([], t)
    | .fault _ => ([], s)
    | .refused _ => ([], s)
  | .op o => ([(hostOp o s).1], (hostOp o s).2)
  | .powerOn => ([], State.reset)

/-- A whole session: every reply in order, and the last state. -/
def hostRun : List HostAction → State → List HostReply × State
  | [], s => ([], s)
  | a :: as, s =>
    ((hostAction a s).1 ++ (hostRun as (hostAction a s).2).1, (hostRun as (hostAction a s).2).2)

end Sys2Proof.Machine
end

