-- ==== Sys2Proof/Safety.lean ====
section
/-! DEFINITION. The terms claims are stated in: runs of commands, the invariants of 10_state.md R44, the
sample sequence of a stream (41_modulator.md R137), the frame-aligned loop-back (42_demodulator.md R187)
and the two named properties of the free functions (R7, R195). -/

namespace Sys2Proof.Machine

/-! ## Runs -/

/-- Executing the commands in order, each answering a next state, leads from `s` to `t`. -/
def RunsTo : List Instr → State → State → Prop
  | [], s, t => t = s
  | i :: is, s, t => ∃ u, exec i s = .next u ∧ RunsTo is u t

/-- Whether a command reads or writes a unit (R72): GRST addresses both, NOP neither. -/
def touches (u : UnitId) : Instr → Bool
  | .nop _ _ => false
  | .grst => true
  | .mCfgw _ _ => u == .mod
  | .mStart => u == .mod
  | .mByte _ => u == .mod
  | .mEnd => u == .mod
  | .mRst => u == .mod
  | .dCfgw _ _ => u == .dem
  | .dStart => u == .dem
  | .dFrame _ => u == .dem
  | .dEnd => u == .dem
  | .dCls _ _ => u == .dem
  | .dRst => u == .dem

/-! ## The opcode table -/

/-- A row of spec/opcode_table.json: a header belongs to it when its bits under `mask` are `pattern` and
its ARG is at most `maxArg` (the table's constraint on the CFGW rows). -/
structure OpcodeRow where
  mnemonic : String
  pattern : Word
  mask : Word
  maxArg : Nat
deriving DecidableEq, Repr

/-- The 13 rows, as the table has them. -/
def opcodeRows : List OpcodeRow :=
  [ ⟨"NOP", 0x00000000, 0xFF000000, 255⟩,
    ⟨"GRST", 0x01000000, 0xFFFFFFFF, 255⟩,
    ⟨"M.CFGW", 0x11000001, 0xFF00FFFF, 4⟩,
    ⟨"M.START", 0x12000000, 0xFFFFFFFF, 255⟩,
    ⟨"M.BYTE", 0x13000000, 0xFF00FFFF, 255⟩,
    ⟨"M.END", 0x14000000, 0xFFFFFFFF, 255⟩,
    ⟨"M.RST", 0x1F000000, 0xFFFFFFFF, 255⟩,
    ⟨"D.CFGW", 0x21000001, 0xFF00FFFF, 4⟩,
    ⟨"D.START", 0x22000000, 0xFFFFFFFF, 255⟩,
    ⟨"D.FRAME", 0x23000000, 0xFFFF0000, 255⟩,
    ⟨"D.END", 0x24000000, 0xFFFFFFFF, 255⟩,
    ⟨"D.CLS", 0x25000000, 0xFFFCFFFF, 255⟩,
    ⟨"D.RST", 0x2F000000, 0xFFFFFFFF, 255⟩ ]

/-- The table's name of a command. -/
def mnemonicOf : Instr → String
  | .nop _ _ => "NOP"
  | .grst => "GRST"
  | .mCfgw _ _ => "M.CFGW"
  | .mStart => "M.START"
  | .mByte _ => "M.BYTE"
  | .mEnd => "M.END"
  | .mRst => "M.RST"
  | .dCfgw _ _ => "D.CFGW"
  | .dStart => "D.START"
  | .dFrame _ => "D.FRAME"
  | .dEnd => "D.END"
  | .dCls _ _ => "D.CLS"
  | .dRst => "D.RST"

/-- The register addresses that R61 maps. -/
def mappedAddrs : List Nat :=
  [0x000, 0x100, 0x104, 0x110, 0x114, 0x118, 0x11C, 0x120, 0x130, 0x134, 0x138, 0x140,
   0x200, 0x204, 0x210, 0x214, 0x218, 0x21C, 0x220, 0x230, 0x234, 0x238, 0x240, 0x244, 0x248, 0x24C,
   0x250]

/-! ## Invariants between commands (R44) -/

/-- R44 item 1. -/
abbrev ModInv (m : ModUnit) : Prop :=
  (m.state = .run ∨ m.state = .done → m.buf.length < m.spfEff.toNat) ∧ (m.state = .done → m.buf = [])

/-- R44 items 2 to 6, and `D.KSYM > 0` in PREAMBLE_SPACE, which makes them inductive. -/
abbrev DemInv (d : DemUnit) : Prop :=
  (d.state = .preambleSpace ∨ d.state = .preambleMark →
      d.spaces = 0 ∧ d.marks = 0 ∧ d.acc = 0 ∧ d.bitpos = 0)
    ∧ (d.state = .preambleSpace → d.clock = 0 ∧ 0 < d.ksym.toNat)
    ∧ (d.state = .preambleMark → d.clock.toNat < d.ksym.toNat)
    ∧ (d.state = .decode →
        d.spaces.toNat + d.marks.toNat ≤ d.clock.toNat ∧ d.clock.toNat < d.ksym.toNat)
    ∧ d.bitpos.toNat ≤ 7
    ∧ d.acc.toNat % 2 ^ (8 - d.bitpos.toNat) = 0

/-- The invariants of R44 for both units. -/
abbrev Inv (s : State) : Prop := ModInv s.mod ∧ DemInv s.dem

/-- CAUSE and FCMD are 0 outside ERROR, and a unit in ERROR has a cause (R27, R33, R202). -/
abbrev FaultRegsInv (s : State) : Prop :=
  (s.mod.state = .error ↔ s.mod.cause ≠ .none) ∧ (s.mod.state ≠ .error → s.mod.fcmd = 0)
    ∧ (s.dem.state = .error ↔ s.dem.cause ≠ .none) ∧ (s.dem.state ≠ .error → s.dem.fcmd = 0)

/-- The effective registers of MOD agree with its raw configuration while a stream lasts, and are 0
before it (R29, R41, R110). -/
abbrev ModCfgInv (m : ModUnit) : Prop :=
  (m.state = .idle → m.srEff = 0 ∧ m.spfEff = 0 ∧ m.nsym = 0 ∧ m.buf = [] ∧ m.first = true)
    ∧ (m.state = .run ∨ m.state = .done →
        validate .mod m.cfg = .ok m.srEff.toNat m.spfEff.toNat
          ∧ m.nsym.toNat * m.cfg.baud.toNat = m.srEff.toNat
          ∧ (m.first = true → m.buf = []))

/-- The effective registers of DEM agree with its raw configuration while a stream lasts, and are 0
before it (R35, R41, R111). -/
abbrev DemCfgInv (d : DemUnit) : Prop :=
  (d.state = .idle → d.srEff = 0 ∧ d.spfEff = 0 ∧ d.ksym = 0)
    ∧ (d.state ≠ .idle ∧ d.state ≠ .error →
        validate .dem d.cfg = .ok d.srEff.toNat d.spfEff.toNat
          ∧ d.ksym.toNat = ceilDiv d.srEff.toNat (d.spfEff.toNat * d.cfg.baud.toNat))

/-! ## The modulator's stream -/

/-- `S(m)` of R137 for the bytes `bs` of a stream. -/
def streamSamples (m : ModUnit) (bs : List Byte) : List Sample :=
  if bs.isEmpty then [] else preambleSamples m ++ bs.flatMap (byteSamples m)

/-- MOD right after a successful M.START (R110): in RUN, no byte sent, and at least one sample to a
frame. -/
abbrev ModFresh (m : ModUnit) : Prop :=
  m.state = .run ∧ m.first = true ∧ m.buf = [] ∧ 0 < m.spfEff.toNat

/-! ## The demodulator's stream -/

/-- DEM right after a successful D.START (R111). -/
abbrev DemFresh (d : DemUnit) : Prop :=
  d.state = .preambleSpace ∧ d.clock = 0 ∧ d.spaces = 0 ∧ d.marks = 0 ∧ d.acc = 0 ∧ d.bitpos = 0
    ∧ 0 < d.ksym.toNat

/-- The command that injects a frame class the way an ideal detector reports a symbol of bit `b`. -/
def clsOf (b : Bool) : Instr := .dCls (!b) b

/-- The bits of a byte in transmission order (R65). -/
def byteBits (b : Byte) : List Bool := (List.range 8).map b.getLsbD

/-- The symbols of a stream of at least one byte: the preamble, then the payload bits (R137). -/
def streamBits (bs : List Byte) : List Bool := false :: true :: bs.flatMap byteBits

/-- The frames of a symbol sequence at `p` frames per symbol (R187), as D.CLS commands. -/
def clsFrames (p : Nat) (bits : List Bool) : List Instr :=
  bits.flatMap fun b => List.replicate p (clsOf b)

/-- Feeding frames of samples to DEM in order, each as one D.FRAME under the detector `detect` (R187). -/
def feedFrames (detect : Detector) (frames : List (List Sample)) (s : State) : State :=
  frames.foldl (fun t f => frameCommand detect (packSamples f) t) s

/-- The class of the frame a command delivers to DEM (R163, R172, R173): of the operand pair for D.CLS, of the
samples under the core's detector for a D.FRAME of the right length. -/
def frameClassOf (i : Instr) (s : State) : Option ToneClass :=
  match i with
  | .dFrame payload =>
    if payload.length = ceilDiv s.dem.spfEff.toNat 2 then some (frameClass Config.detect s.dem payload)
    else none
  | .dCls space mark => some (classify space mark)
  | _ => none

/-- A command delivers a frame and makes a symbol decision in this state (R167): the frame reaches the
boundary. -/
def decidesNow (i : Instr) (s : State) : Bool :=
  (frameClassOf i s).isSome && s.dem.state == .decode && decide (s.dem.ksym.toNat ≤ s.dem.clock.toNat + 1)

/-- How many symbol decisions a run of commands makes (R179). -/
def decisions : List Instr → State → Nat
  | [], _ => 0
  | i :: is, s =>
    (if decidesNow i s then 1 else 0)
      + (match exec i s with
          | .next t => decisions is t
          | .fault _ => 0
          | .refused _ => 0)

/-! ## Named properties of the free functions -/

/-- The ideal-detector property (R195) for the symbols of a modulator: true on every frame that lies
within a symbol of the tone, false on the other tone's. Nothing is said of other frames. -/
def IdealDetector (detect : Detector) (m : ModUnit) : Prop :=
  ∀ (b : Bool) (k : Nat), k + m.spfEff.toNat ≤ m.nsym.toNat →
    let x := (((sym m b).drop k).take m.spfEff.toNat).map normPcm
    detect (m.freq b) m.srEff.toNat m.spfEff.toNat Config.detectThreshold x = true
      ∧ detect (m.freq (!b)) m.srEff.toNat m.spfEff.toNat Config.detectThreshold x = false

/-- `n` is PCM16 of the real `v` (R133). -/
def IsPcm16 (v : ℝ) (n : Int) : Prop :=
  (v < 0 → n = ⌈v * 32768⌉) ∧ (0 ≤ v → n = ⌊v * 32767⌋)

/-- The specification of TONE_PCM (R7): PCM16 of the exact sine. It holds on the π/4 grid and wherever the
enclosure determines the value; at the other angles it is a named assumption about
`Config.toneOffGrid` (assumption log entry 2). -/
def ToneFollowsFormula : Prop :=
  ∀ f sr j : Nat, 0 < sr → IsPcm16 (Real.sin (2 * Real.pi * f * j / sr)) (tonePcm f sr j).toInt

end Sys2Proof.Machine
end

