-- ==== Sys2Proof/Certificates/Slice0/Obligations.lean ====
section
/-! DEFINITION. The statements for the provers. Each docstring names the rule of spec/ it formalises.
No statement rests on the value of a free function of Config: where one stands in a statement, the
statement holds for every value of it. -/

open Sys2Proof Sys2Proof.Machine

/-! ## Encoding -/

/-- R80, R81, R84 to R88: decoding the words of a well-formed command gives the command back and leaves the
rest of the stream; and a command the decoder accepts is well formed and encodes to exactly the words
it was read from, so no header has a second reading and no bit of one is dropped. -/
def Obligations.DecodeAndEncodeAgree : Prop :=
  (∀ (i : Instr) (rest : List Word), i.wf = true →
    decode (encode i ++ rest) = some (.instr i, rest)) ∧
  ∀ (h : Word) (payload : List Word) (i : Instr), payload.length = hdrLen h →
    decodeCommand h payload = .instr i → i.wf = true ∧ encode i = h :: payload

/-- R83, R88 and opcode_table.json: the decoder answers a command of a row exactly for the headers that
match the row's pattern under its mask and meet its constraint on ARG, and a command of some row
exactly for the headers that R88 calls legal. -/
def Obligations.DecoderFollowsOpcodeTable : Prop :=
  ∀ (h : Word) (payload : List Word), payload.length = hdrLen h →
    (∀ row ∈ opcodeRows, (∃ i, decodeCommand h payload = .instr i ∧ mnemonicOf i = row.mnemonic) ↔
      (h &&& row.mask = row.pattern ∧ (hdrArg h).toNat ≤ row.maxArg)) ∧
    ((∃ i, decodeCommand h payload = .instr i) ↔ legal h = true)

/-- R80, R63: a command is its header and LEN payload words, whatever the header. A step takes exactly these
words off the stream once all are there. While they are not (R232, R241), that a step answers the
same state is the model's choice: assumption log entry 3, DESIGN CHOICE. -/
def Obligations.StepTakesWholeCommands : Prop :=
  (∀ i : Instr, i.wf = true → (encode i).length = 1 + hdrLen (encodeHeader i)) ∧
  (∀ s : State, s.cmdIn = [] → step s = .next s) ∧
  ∀ (s : State) (h : Word) (ws : List Word), s.cmdIn = h :: ws →
    (hdrLen h ≤ ws.length → ∃ t, step s = .next t ∧ t.cmdIn = ws.drop (hdrLen h)) ∧
    (ws.length < hdrLen h → step s = .next s)

/-- R63, R100: where the stream decodes to a command, the step is that command's execution on the state
with its words accepted. -/
def Obligations.StepRunsDecodedInstruction : Prop :=
  ∀ (s : State) (i : Instr) (rest : List Word), decode s.cmdIn = some (.instr i, rest) →
    step s = exec i { s with cmdIn := rest }

/-- R89: an illegal header sets ILL if its UNIT is 0 or at least 3; else it raises E_ILLEGAL_CMD in the
addressed unit, with itself in FCMD, unless that unit is in ERROR. Its payload is discarded. -/
def Obligations.StepOnIllegalHeader : Prop :=
  ∀ (s : State) (h : Word) (ws : List Word), s.cmdIn = h :: ws → hdrLen h ≤ ws.length →
    legal h = false →
    let s' : State := { s with cmdIn := ws.drop (hdrLen h) }
    ((hdrUnit h).toNat = 0 ∨ 3 ≤ (hdrUnit h).toNat → step s = .next { s' with ill := true }) ∧
    ((hdrUnit h).toNat = 1 → s.mod.state ≠ .error →
      step s = .next { s' with mod := { s.mod with state := .error, cause := .illegalCmd, fcmd := h } }) ∧
    ((hdrUnit h).toNat = 1 → s.mod.state = .error → step s = .next s') ∧
    ((hdrUnit h).toNat = 2 → s.dem.state ≠ .error →
      step s = .next { s' with dem := { s.dem with state := .error, cause := .illegalCmd, fcmd := h } }) ∧
    ((hdrUnit h).toNat = 2 → s.dem.state = .error → step s = .next s')

/-- R93: words written out from the assembler table decode to the commands they stand for. -/
def Obligations.SpecWordsDecode : Prop :=
  decode [0x11000001, 0x000003E8] = some (.instr (.mCfgw .baud 1000), []) ∧
  decode [0x13010000, 0x14000000] = some (.instr (.mByte 1), [0x14000000]) ∧
  decode [0x25020000] = some (.instr (.dCls false true), []) ∧
  decode [0x23000001, 0x7FFF0000] = some (.instr (.dFrame [0x7FFF0000]), []) ∧
  decode [0x01000000] = some (.instr .grst, []) ∧
  decode [0x00FF0001, 0x12345678] = some (.instr (.nop 0xFF [0x12345678]), []) ∧
  decode [0x11050001, 1] = some (.reject .badArg, [])

/-- R87: sample i of a frame is the low half of payload word i div 2 for even i and the high half for odd i,
and with an odd number of samples the upper half of the last word plays no part. Where the payload has no
word i div 2, which D.FRAME's length check rules out, that the sample is 0 is the model's choice:
assumption log entry 11, DESIGN CHOICE. -/
def Obligations.FramePayloadPacking : Prop :=
  (∀ (n : Nat) (payload : List Word), (frameSamples n payload).length = n ∧
    ∀ i < n, (frameSamples n payload)[i]? =
      some (if i % 2 = 0 then (payload.getD (i / 2) 0).extractLsb' 0 16
        else (payload.getD (i / 2) 0).extractLsb' 16 16)) ∧
  ∀ (n : Nat) (ws : List Word) (lo hi hi' : Sample), n = 2 * ws.length + 1 →
    frameSamples n (ws ++ [hi ++ lo]) = frameSamples n (ws ++ [hi' ++ lo])

/-- R64, R66, R87, R93: byte k of a word carries its bits 8k+7..8k, and the bytes of words carry back the words;
byte 2i of a delivered item is bits 7:0 of its sample i, and byte 2i + 1 is bits 15:8; packing samples
into ceil_div(n, 2) payload words and unpacking as many gives them back. -/
def Obligations.SerializationsRoundTrip : Prop :=
  (∀ (w : Word) (k j : Nat), k < 4 → j < 8 →
    ((wordBytes w).getD k 0).getLsbD j = w.getLsbD (8 * k + j)) ∧
  (∀ ws : List Word, (bytesOfWords ws).length = 4 * ws.length ∧
    wordsOfBytes (bytesOfWords ws) = (ws, [])) ∧
  (∀ item : ModItem, item.bytes.length = 2 * item.samples.length ∧
    ∀ (i : Nat) (r : Sample), item.samples[i]? = some r →
      item.bytes[2 * i]? = some (r.extractLsb' 0 8) ∧
      item.bytes[2 * i + 1]? = some (r.extractLsb' 8 8)) ∧
  ∀ xs : List Sample, frameSamples xs.length (packSamples xs) = xs ∧
    (packSamples xs).length = ceilDiv xs.length 2

/-! ## Reset, host operations, control -/

/-- R231: after power-on G.STATUS is 0, M.STATUS is 8, and every other register reads 0. M.BUF and the
queues are empty. -/
def Obligations.PowerOnRegisters : Prop :=
  (∀ a : RegAddr, State.reset.regRead a = if a = 0x100 then 0x00000008 else 0) ∧
  State.reset.mod.state = .idle ∧ State.reset.mod.first = true ∧ State.reset.dem.state = .idle ∧
  State.reset.mod.buf = [] ∧ State.reset.modOut = [] ∧ State.reset.demOut = []

/-- R230: the four resets. Each acts in every state; GRST clears ILL; only power-on empties the queues. -/
def Obligations.FourResets : Prop :=
  let cfg : RawCfg := { baud := 0, space := 0, mark := 0, sr := 0, spf := 0 }
  let m : ModUnit :=
    { state := .idle, first := true, cause := .none, fcmd := 0, cfg := cfg,
      srEff := 0, spfEff := 0, nsym := 0, buf := [] }
  let d : DemUnit :=
    { state := .idle, cause := .none, fcmd := 0, cfg := cfg, srEff := 0, spfEff := 0,
      ksym := 0, clock := 0, spaces := 0, marks := 0, acc := 0, bitpos := 0 }
  ∀ s : State,
    exec .grst s = .next { s with ill := false, mod := m, dem := d } ∧
    exec .mRst s = .next { s with mod := m } ∧
    exec .dRst s = .next { s with dem := d } ∧
    (hostAction .powerOn s).2.ill = false ∧ (hostAction .powerOn s).2.mod = m ∧
    (hostAction .powerOn s).2.dem = d ∧ (hostAction .powerOn s).2.modOut = [] ∧
    (hostAction .powerOn s).2.demOut = []

/-- R101: NOP changes nothing, whatever its ARG and payload, in every state. -/
def Obligations.NopChangesNothing : Prop :=
  ∀ (arg : Byte) (payload : List Word) (s : State), exec (.nop arg payload) s = .next s

/-- R61, R114, and the layouts of R23, R25 and R32: in every state each mapped address reads its own register;
a read of an unmapped or misaligned address returns 0; the three status words hold the codes of R24, R31 and
R202 in their fields, with reserved bits 0. The premise on M.BUF is R144: a count below 2^32. -/
def Obligations.RegisterReadsAndStatusWords : Prop :=
  (∀ (s : State) (a : RegAddr), a.toNat ∉ mappedAddrs ∨ a.toNat % 4 ≠ 0 → s.regRead a = 0) ∧
  (∀ s : State,
    s.regRead 0x104 = s.mod.fcmd ∧ s.regRead 0x110 = s.mod.cfg.baud ∧ s.regRead 0x114 = s.mod.cfg.space ∧
    s.regRead 0x118 = s.mod.cfg.mark ∧ s.regRead 0x11C = s.mod.cfg.sr ∧ s.regRead 0x120 = s.mod.cfg.spf ∧
    s.regRead 0x130 = s.mod.srEff ∧ s.regRead 0x134 = s.mod.spfEff ∧ s.regRead 0x138 = s.mod.nsym ∧
    (s.mod.buf.length < 2 ^ 32 → (s.regRead 0x140).toNat = s.mod.buf.length) ∧
    s.regRead 0x204 = s.dem.fcmd ∧ s.regRead 0x210 = s.dem.cfg.baud ∧ s.regRead 0x214 = s.dem.cfg.space ∧
    s.regRead 0x218 = s.dem.cfg.mark ∧ s.regRead 0x21C = s.dem.cfg.sr ∧ s.regRead 0x220 = s.dem.cfg.spf ∧
    s.regRead 0x230 = s.dem.srEff ∧ s.regRead 0x234 = s.dem.spfEff ∧ s.regRead 0x238 = s.dem.ksym ∧
    s.regRead 0x240 = s.dem.clock ∧ s.regRead 0x244 = s.dem.spaces ∧ s.regRead 0x248 = s.dem.marks ∧
    (s.regRead 0x24C).toNat = s.dem.acc.toNat ∧ (s.regRead 0x250).toNat = s.dem.bitpos.toNat) ∧
  (∀ s : State,
    (s.regRead 0x000).toNat = s.ill.toNat + 2 * (if s.mod.state = .error then 1 else 0)
      + 4 * (if s.dem.state = .error then 1 else 0) ∧
    (s.regRead 0x100).toNat = s.mod.state.code.toNat + 8 * s.mod.first.toNat
      + 256 * s.mod.cause.code.toNat ∧
    (s.regRead 0x200).toNat = s.dem.state.code.toNat + 256 * s.dem.cause.code.toNat) ∧
  [ModState.idle, .run, .done, .error].map (·.code.toNat) = [0, 1, 2, 3] ∧
  [DemState.idle, .preambleSpace, .preambleMark, .decode, .done, .error].map (·.code.toNat)
    = [0, 1, 2, 3, 4, 5] ∧
  [Cause.none, .illegalCmd, .state, .frameLen, .cfgMissing, .cfgSpfZero, .cfgSpfRange, .cfgNonint,
    .preamble, .bitposOvf].map (·.code.toNat) = [0, 1, 2, 3, 0x10, 0x11, 0x12, 0x13, 0x20, 0x21]

/-- R115, R116, R69: MPOP and DPOP return and remove the head of their queue, in order, or return NONE and
change nothing. -/
def Obligations.PopsTakeTheHead : Prop :=
  ∀ s : State,
    (s.modOut = [] → s.mpop = (none, s)) ∧
    (∀ item rest, s.modOut = item :: rest → s.mpop = (some item, { s with modOut := rest })) ∧
    (s.demOut = [] → s.dpop = (none, s)) ∧
    (∀ b rest, s.demOut = b :: rest → s.dpop = (some b, { s with demOut := rest }))

/-- R71, R114: register reads anywhere in a session change neither its final state nor what the other
host operations return. -/
def Obligations.RegisterReadsDisturbNothing : Prop :=
  ∀ (as : List HostAction) (s : State),
    let isRead : HostAction → Bool := fun a => match a with | .op (.regrd _) => true | _ => false
    let isWord : HostReply → Bool := fun r => match r with | .word _ => true | _ => false
    (hostRun (as.filter fun a => !isRead a) s).2 = (hostRun as s).2 ∧
    (hostRun (as.filter fun a => !isRead a) s).1 = (hostRun as s).1.filter fun r => !isWord r

/-- R103 to R105: in IDLE, CFGW stores any value in the one raw register it names, where REGRD reads it, and
changes nothing else. -/
def Obligations.CfgwWritesOneRegister : Prop :=
  ∀ (f : CfgField) (v : Word) (s : State),
    (s.mod.state = .idle → ∃ t, exec (.mCfgw f v) s = .next t ∧
      t = { s with mod := { s.mod with cfg := t.mod.cfg } } ∧
      (∀ g, t.mod.cfg.read g = if g = f then v else s.mod.cfg.read g) ∧
      t.regRead (BitVec.ofNat 12 (0x110 + 4 * (cfgIndex f).toNat)) = v) ∧
    (s.dem.state = .idle → ∃ t, exec (.dCfgw f v) s = .next t ∧
      t = { s with dem := { s.dem with cfg := t.dem.cfg } } ∧
      (∀ g, t.dem.cfg.read g = if g = f then v else s.dem.cfg.read g) ∧
      t.regRead (BitVec.ofNat 12 (0x210 + 4 * (cfgIndex f).toNat)) = v)

/-- R100, R175, R202, R203: a legal command in a state that does not allow it raises E_STATE in its unit:
ERROR, the cause and the header, and nothing else. -/
def Obligations.WrongStateRaisesEState : Prop :=
  ∀ s : State,
    let fm : Instr → State := fun i =>
      { s with mod := { s.mod with state := .error, cause := .state, fcmd := encodeHeader i } }
    let fd : Instr → State := fun i =>
      { s with dem := { s.dem with state := .error, cause := .state, fcmd := encodeHeader i } }
    (s.mod.state = .run ∨ s.mod.state = .done →
      (∀ f v, exec (.mCfgw f v) s = .next (fm (.mCfgw f v))) ∧ exec .mStart s = .next (fm .mStart)) ∧
    (s.mod.state = .idle ∨ s.mod.state = .done →
      (∀ b, exec (.mByte b) s = .next (fm (.mByte b))) ∧ exec .mEnd s = .next (fm .mEnd)) ∧
    (s.dem.state ≠ .idle → s.dem.state ≠ .error →
      (∀ f v, exec (.dCfgw f v) s = .next (fd (.dCfgw f v))) ∧ exec .dStart s = .next (fd .dStart)) ∧
    (s.dem.state = .idle ∨ s.dem.state = .done →
      (∀ p, exec (.dFrame p) s = .next (fd (.dFrame p))) ∧ exec .dEnd s = .next (fd .dEnd) ∧
        ∀ a b, exec (.dCls a b) s = .next (fd (.dCls a b)))

/-- R205: a unit in ERROR ignores every command addressed to it but its RST, legal or not. The command's
words are accepted, and no register, queue or other unit changes. -/
def Obligations.ErrorIgnoresAllButReset : Prop :=
  ∀ (s : State) (h : Word) (ws : List Word), s.cmdIn = h :: ws → hdrLen h ≤ ws.length →
    ((hdrUnit h).toNat = 1 → h ≠ 0x1F000000 → s.mod.state = .error →
      step s = .next { s with cmdIn := ws.drop (hdrLen h) }) ∧
    ((hdrUnit h).toNat = 2 → h ≠ 0x2F000000 → s.dem.state = .error →
      step s = .next { s with cmdIn := ws.drop (hdrLen h) })

/-- R106, R107, R110: in IDLE with a valid configuration M.START constructs MOD: the effective registers hold
the exact values, FIRST is 1, M.BUF is empty, the state is RUN, and nothing else changes. -/
def Obligations.ModStartConstructs : Prop :=
  ∀ s : State,
    let c := s.mod.cfg
    let sr := if c.sr = 0 then 8000 else c.sr.toNat
    let spf := if c.spf = 0 then sr / (5 * c.baud.toNat) else c.spf.toNat
    s.mod.state = .idle → c.baud ≠ 0 → c.space ≠ 0 → c.mark ≠ 0 → 1 ≤ spf → spf ≤ 65535 →
    sr % c.baud.toNat = 0 →
    ∃ t, exec .mStart s = .next t ∧
      t.mod.srEff.toNat = sr ∧ t.mod.spfEff.toNat = spf ∧ t.mod.nsym.toNat * c.baud.toNat = sr ∧
      t = { s with mod := { s.mod with
              state := .run, first := true, buf := [],
              srEff := t.mod.srEff, spfEff := t.mod.spfEff, nsym := t.mod.nsym } }

/-- R6, R106, R107, R111: in IDLE with a valid configuration D.START constructs DEM: the effective registers
hold the exact values, K is the least number of frames that lasts a symbol, the decoder registers are 0, the state is
PREAMBLE_SPACE, and nothing else changes. -/
def Obligations.DemStartConstructs : Prop :=
  ∀ s : State,
    let c := s.dem.cfg
    let sr := if c.sr = 0 then 8000 else c.sr.toNat
    let spf := if c.spf = 0 then sr / (5 * c.baud.toNat) else c.spf.toNat
    s.dem.state = .idle → c.baud ≠ 0 → c.space ≠ 0 → c.mark ≠ 0 → 1 ≤ spf → spf ≤ 65535 →
    ∃ t, exec .dStart s = .next t ∧
      t.dem.srEff.toNat = sr ∧ t.dem.spfEff.toNat = spf ∧
      (∀ k : Nat, t.dem.ksym.toNat ≤ k ↔ sr ≤ k * (spf * c.baud.toNat)) ∧
      t = { s with dem := { s.dem with
              state := .preambleSpace, clock := 0, spaces := 0, marks := 0, acc := 0, bitpos := 0,
              srEff := t.dem.srEff, spfEff := t.dem.spfEff, ksym := t.dem.ksym } }

/-- R106, R110, R111, R206: in IDLE an invalid configuration makes START raise the first cause that applies, in
the order MISSING, SPF_ZERO, SPF_RANGE and, for MOD alone, NONINT. Only the three fault registers
change. -/
def Obligations.StartFaultsInOrder : Prop :=
  let sr : RawCfg → Nat := fun c => if c.sr = 0 then 8000 else c.sr.toNat
  let spf : RawCfg → Nat := fun c => if c.spf = 0 then sr c / (5 * c.baud.toNat) else c.spf.toNat
  let missing : RawCfg → Prop := fun c => c.baud = 0 ∨ c.space = 0 ∨ c.mark = 0
  ∀ s : State,
    let fm : Cause → State := fun x =>
      { s with mod := { s.mod with state := .error, cause := x, fcmd := 0x12000000 } }
    let fd : Cause → State := fun x =>
      { s with dem := { s.dem with state := .error, cause := x, fcmd := 0x22000000 } }
    (s.mod.state = .idle →
      (missing s.mod.cfg → exec .mStart s = .next (fm .cfgMissing)) ∧
      (¬ missing s.mod.cfg → spf s.mod.cfg = 0 → exec .mStart s = .next (fm .cfgSpfZero)) ∧
      (¬ missing s.mod.cfg → 65535 < spf s.mod.cfg → exec .mStart s = .next (fm .cfgSpfRange)) ∧
      (¬ missing s.mod.cfg → 1 ≤ spf s.mod.cfg → spf s.mod.cfg ≤ 65535 →
        sr s.mod.cfg % s.mod.cfg.baud.toNat ≠ 0 → exec .mStart s = .next (fm .cfgNonint))) ∧
    (s.dem.state = .idle →
      (missing s.dem.cfg → exec .dStart s = .next (fd .cfgMissing)) ∧
      (¬ missing s.dem.cfg → spf s.dem.cfg = 0 → exec .dStart s = .next (fd .cfgSpfZero)) ∧
      (¬ missing s.dem.cfg → 65535 < spf s.dem.cfg → exec .dStart s = .next (fd .cfgSpfRange)))

/-- R108: with a defaulted frame size a successful START gives spf · baud at most a fifth of sr, at least
five frames to a symbol at MOD, and K at least 5 at DEM. -/
def Obligations.DefaultFrameGivesFivePerSymbol : Prop :=
  ∀ s t : State,
    (s.mod.state = .idle → s.mod.cfg.spf = 0 → exec .mStart s = .next t → t.mod.state = .run →
      5 * (t.mod.spfEff.toNat * t.mod.cfg.baud.toNat) ≤ t.mod.srEff.toNat ∧
      5 * t.mod.spfEff.toNat ≤ t.mod.nsym.toNat) ∧
    (s.dem.state = .idle → s.dem.cfg.spf = 0 → exec .dStart s = .next t → t.dem.state = .preambleSpace →
      5 * (t.dem.spfEff.toNat * t.dem.cfg.baud.toNat) ≤ t.dem.srEff.toNat ∧ 5 ≤ t.dem.ksym.toNat)

/-- R94, R234: the commands of `m.init` and `d.init` start a unit in IDLE whose configuration they make valid.
A field given as 0 selects its default; an omitted one emits no write, so its register keeps its value, which
is 0 (the default) after a reset. The other unit, the queues and the fault registers are left
alone. -/
def Obligations.InitReachesRunningState : Prop :=
  ∀ (b sp mk : Word) (r p : Option Word) (s : State), b ≠ 0 → sp ≠ 0 → mk ≠ 0 →
    let cfgOf : RawCfg → RawCfg := fun c => ⟨b, sp, mk, r.getD c.sr, p.getD c.spf⟩
    let sr : RawCfg → Nat := fun c => if c.sr = 0 then 8000 else c.sr.toNat
    let spf : RawCfg → Nat := fun c => if c.spf = 0 then sr c / (5 * b.toNat) else c.spf.toNat
    (let c := cfgOf s.mod.cfg
     s.mod.state = .idle → 1 ≤ spf c → spf c ≤ 65535 → sr c % b.toNat = 0 →
      ∃ t, RunsTo (asmModInit b sp mk r p) s t ∧ ModFresh t.mod ∧
        t.mod.srEff.toNat = sr c ∧ t.mod.spfEff.toNat = spf c ∧ t.mod.nsym.toNat * b.toNat = sr c ∧
        t = { s with mod := { s.mod with
                state := .run, first := true, buf := [], cfg := c,
                srEff := t.mod.srEff, spfEff := t.mod.spfEff, nsym := t.mod.nsym } }) ∧
    (let c := cfgOf s.dem.cfg
     s.dem.state = .idle → 1 ≤ spf c → spf c ≤ 65535 →
      ∃ t, RunsTo (asmDemInit b sp mk r p) s t ∧ DemFresh t.dem ∧
        t.dem.srEff.toNat = sr c ∧ t.dem.spfEff.toNat = spf c ∧
        (∀ k : Nat, t.dem.ksym.toNat ≤ k ↔ sr c ≤ k * (spf c * b.toNat)) ∧
        t = { s with dem := { s.dem with
                state := .preambleSpace, clock := 0, spaces := 0, marks := 0, acc := 0, bitpos := 0,
                cfg := c, srEff := t.dem.srEff, spfEff := t.dem.spfEff, ksym := t.dem.ksym } })

/-! ## Modulator -/

/-- R131, R132: a symbol is NSYM samples, sample j is TONE_PCM at j, and the first is 0: no phase is
carried over. -/
def Obligations.SymbolRestartsAtZero : Prop :=
  ∀ (m : ModUnit) (b : Bool), (sym m b).length = m.nsym.toNat ∧
    (∀ j < m.nsym.toNat, (sym m b)[j]? =
      some (tonePcm (if b then m.cfg.mark.toNat else m.cfg.space.toNat) m.srEff.toNat j)) ∧
    (0 < m.nsym.toNat → (sym m b)[0]? = some 0)

/-- R134: where 8·f·j / sr is an integer, TONE_PCM is the table's entry at (8·f·j / sr) mod 8, and that is
PCM16 of the exact sine of 2π·f·j / sr. -/
def Obligations.GridTonesAreExactSines : Prop :=
  ∀ f sr j : Nat, 0 < sr → 8 * f * j % sr = 0 →
    (tonePcm f sr j).toInt =
      [0, 23169, 32767, 23169, 0, -23170, -32768, -23170].getD (8 * f * j / sr % 8) 0 ∧
    IsPcm16 (Real.sin (2 * Real.pi * f * j / sr)) (tonePcm f sr j).toInt

/-- R7, R131: off the grid, wherever the enclosure of the sine determines a value, TONE_PCM is that value and
PCM16 of the exact sine. So TONE_PCM is PCM16 of the exact sine for every f and j as soon as the free
function is, on the angles that the enclosure leaves open (log entry 2). -/
def Obligations.TonesFollowTheFormula : Prop :=
  (∀ (f sr j : Nat) (n : Int), 0 < sr → 8 * f * j % sr ≠ 0 → sineTone f sr j = some n →
    (tonePcm f sr j).toInt = n ∧ IsPcm16 (Real.sin (2 * Real.pi * f * j / sr)) n) ∧
  ((∀ f sr j : Nat, 0 < sr → 8 * f * j % sr ≠ 0 → sineTone f sr j = none →
      IsPcm16 (Real.sin (2 * Real.pi * f * j / sr)) (Config.toneOffGrid f sr j).toInt) →
    ToneFollowsFormula)

/-- R133, R161: the asymmetric normalization of a sample, its values at the ends and around 0; a normalized
sample lies between -1 and 1, and PCM16 undoes the normalization exactly. -/
def Obligations.NormalizationAndPcm16 : Prop :=
  (∀ r : Sample,
    normPcm r = (if r.toInt < 0 then (r.toInt : Rat) / 32768 else (r.toInt : Rat) / 32767) ∧
    -1 ≤ normPcm r ∧ normPcm r ≤ 1 ∧ pcm16 (normPcm r) = r.toInt) ∧
  normPcm (BitVec.ofInt 16 (-32768)) = -1 ∧ normPcm 32767 = 1 ∧ normPcm 0 = 0 ∧
  normPcm (BitVec.ofInt 16 (-1)) = -1 / 32768 ∧ normPcm 1 = 1 / 32767 ∧
  pcm16 1 = 32767 ∧ pcm16 (-1) = -32768 ∧ pcm16 0 = 0 ∧ pcm16 (1 / 2) = 16383 ∧ pcm16 (-1 / 2) = -16384

/-- R137: the stream's sample sequence is empty for no byte, else the preamble and eight symbols a byte,
low bit first, (2 + 8·m)·NSYM samples in all. -/
def Obligations.StreamSampleSequence : Prop :=
  ∀ (m : ModUnit) (bs : List Byte),
    streamSamples m [] = [] ∧
    (bs ≠ [] →
      streamSamples m bs =
        sym m false ++ sym m true ++ bs.flatMap (fun b =>
          sym m (b.getLsbD 0) ++ sym m (b.getLsbD 1) ++ sym m (b.getLsbD 2) ++ sym m (b.getLsbD 3)
          ++ sym m (b.getLsbD 4) ++ sym m (b.getLsbD 5) ++ sym m (b.getLsbD 6) ++ sym m (b.getLsbD 7)) ∧
      (streamSamples m bs).length = (2 + 8 * bs.length) * m.nsym.toNat)

/-- R135, R136, R138, R139, R144: in RUN, M.BYTE appends the preamble if FIRST, then the byte's eight symbols,
emits every complete frame in order, and keeps fewer than spf samples. It writes FIRST, M.BUF and
MOD_OUT, and nothing else. -/
def Obligations.ByteEmitsCompleteFrames : Prop :=
  ∀ (b : Byte) (s : State), s.mod.state = .run → 0 < s.mod.spfEff.toNat →
    ∃ (t : State) (frames : List (List Sample)), exec (.mByte b) s = .next t ∧
      t = { s with mod := { s.mod with first := false, buf := t.mod.buf },
                   modOut := s.modOut ++ frames.map .frame } ∧
      frames.flatten ++ t.mod.buf =
        s.mod.buf ++ (if s.mod.first then sym s.mod false ++ sym s.mod true else [])
          ++ (byteBits b).flatMap (sym s.mod) ∧
      (∀ f ∈ frames, f.length = s.mod.spfEff.toNat) ∧ t.mod.buf.length < s.mod.spfEff.toNat

/-- R143, R145: in RUN, M.END emits the leftover samples as one TAIL, none if there are none, empties
M.BUF, goes to DONE, and changes nothing else. -/
def Obligations.EndFlushesTail : Prop :=
  ∀ s : State, s.mod.state = .run →
    exec .mEnd s = .next { s with mod := { s.mod with buf := [], state := .done },
                                  modOut := s.modOut ++ (if s.mod.buf = [] then [] else [.tail s.mod.buf]) }

/-- R140: after the m-th M.BYTE of a stream the frames emitted are the first |S(m)| div spf blocks of S(m),
in order, and M.BUF holds the last |S(m)| mod spf samples. -/
def Obligations.FramesAreBlocksOfTheStream : Prop :=
  ∀ (bs : List Byte) (s : State), ModFresh s.mod → bs ≠ [] →
    let all := streamSamples s.mod bs
    let spf := s.mod.spfEff.toNat
    ∃ (t : State) (frames : List (List Sample)), RunsTo (bs.map .mByte) s t ∧
      t.modOut = s.modOut ++ frames.map .frame ∧ frames.length = all.length / spf ∧
      (∀ q < frames.length, frames[q]? = some ((all.drop (q * spf)).take spf)) ∧
      t.mod.buf = all.drop (frames.length * spf) ∧ t.mod.buf.length = all.length % spf

/-- R146: the items of a whole stream, FRAMEs and then at most one TAIL, hold exactly S(m) in order:
|S(m)| div spf FRAMEs of spf samples, and a TAIL if |S(m)| mod spf > 0. -/
def Obligations.WholeStreamIsEmittedExactly : Prop :=
  ∀ (bs : List Byte) (s : State), ModFresh s.mod →
    let all := streamSamples s.mod bs
    let spf := s.mod.spfEff.toNat
    ∃ (t : State) (frames : List (List Sample)) (tail : List Sample),
      RunsTo (bs.map .mByte ++ [.mEnd]) s t ∧ t.mod.state = .done ∧
      t.modOut = s.modOut ++ frames.map .frame ++ (if tail = [] then [] else [.tail tail]) ∧
      frames.flatten ++ tail = all ∧ (∀ f ∈ frames, f.length = spf) ∧
      frames.length = all.length / spf ∧ tail.length = all.length % spf

/-! ## Demodulator: single frames -/

/-- R163, R165: in PREAMBLE_SPACE a MARK frame clears the clock and enters PREAMBLE_MARK; every other frame
changes nothing. -/
def Obligations.PreambleSpaceWaitsForMark : Prop :=
  ∀ (sp mk : Bool) (s : State), s.dem.state = .preambleSpace →
    exec (.dCls sp mk) s =
      .next (if mk = true ∧ sp = false then
        { s with dem := { s.dem with clock := 0, state := .preambleMark } } else s)

/-- R166: in PREAMBLE_MARK a MARK frame advances the clock, and at K it is cleared and DECODE entered; any
other frame raises E_PREAMBLE, the clock kept. -/
def Obligations.PreambleMarkCountsMarks : Prop :=
  ∀ (sp mk : Bool) (s : State), s.dem.state = .preambleMark →
    ∃ t, exec (.dCls sp mk) s = .next t ∧
      ((mk = true ∧ sp = false) → s.dem.clock.toNat + 1 < s.dem.ksym.toNat →
        t = { s with dem := { s.dem with clock := t.dem.clock } } ∧
        t.dem.clock.toNat = s.dem.clock.toNat + 1) ∧
      ((mk = true ∧ sp = false) → s.dem.ksym.toNat ≤ s.dem.clock.toNat + 1 →
        t = { s with dem := { s.dem with clock := 0, state := .decode } }) ∧
      (¬ (mk = true ∧ sp = false) →
        t = { s with dem := { s.dem with state := .error, cause := .preamble,
                                         fcmd := encodeHeader (.dCls sp mk) } })

/-- R167, R168: in DECODE, below the boundary, a frame's vote is counted, the clock advances by one, and
nothing else changes. The premise on the counters is R44 item 4. -/
def Obligations.DecodeFrameVotes : Prop :=
  ∀ (sp mk : Bool) (s : State), s.dem.state = .decode → s.dem.clock.toNat + 1 < s.dem.ksym.toNat →
    s.dem.spaces.toNat + s.dem.marks.toNat ≤ s.dem.clock.toNat →
    ∃ t, exec (.dCls sp mk) s = .next t ∧
      t = { s with dem := { s.dem with clock := t.dem.clock, spaces := t.dem.spaces,
                                       marks := t.dem.marks } } ∧
      t.dem.clock.toNat = s.dem.clock.toNat + 1 ∧
      t.dem.spaces.toNat = s.dem.spaces.toNat + (if sp = true ∧ mk = false then 1 else 0) ∧
      t.dem.marks.toNat = s.dem.marks.toNat + (if mk = true ∧ sp = false then 1 else 0)

/-- R167 to R171: the frame that reaches the boundary is counted, and decides: the bit is 1 when MARKS
exceeds SPACES, the votes are cleared, the bit is folded in from the top, the eighth bit emits the
byte, and the clock is re-armed to the minority count. -/
def Obligations.BoundaryFrameDecides : Prop :=
  ∀ (sp mk : Bool) (s : State), s.dem.state = .decode → DemInv s.dem →
    s.dem.ksym.toNat ≤ s.dem.clock.toNat + 1 →
    let spaces := s.dem.spaces.toNat + (if sp = true ∧ mk = false then 1 else 0)
    let marks := s.dem.marks.toNat + (if mk = true ∧ sp = false then 1 else 0)
    let acc : Byte := BitVec.ofNat 8 (s.dem.acc.toNat / 2 + (if spaces < marks then 128 else 0))
    ∃ t, exec (.dCls sp mk) s = .next t ∧
      t = { s with dem := { s.dem with clock := t.dem.clock, spaces := 0, marks := 0, acc := t.dem.acc,
                                       bitpos := t.dem.bitpos },
                   demOut := t.demOut } ∧
      t.dem.clock.toNat = min spaces marks ∧
      (s.dem.bitpos.toNat = 7 → t.demOut = s.demOut ++ [acc] ∧ t.dem.acc = 0 ∧ t.dem.bitpos = 0) ∧
      (s.dem.bitpos.toNat < 7 → t.demOut = s.demOut ∧ t.dem.acc = acc ∧
        t.dem.bitpos.toNat = s.dem.bitpos.toNat + 1)

/-- R170, R65, R44 item 6: after n ≤ 8 folds from 0 the decided bits stand in the high n bits, the earliest
lowest, and the bits below are 0. So after eight folds bit i of the byte is the i-th decided bit. -/
def Obligations.FoldedBitsLsbFirst : Prop :=
  ∀ ds : List Bool, ds.length ≤ 8 → ∀ i < 8,
    (ds.foldl foldBit 0).getLsbD i = if 8 ≤ i + ds.length then ds.getD (i + ds.length - 8) false else false

/-- R162, R172, R173: a D.FRAME of the right length does what a D.CLS of the two detector results does, for
every detector, except where the frame faults (a non-MARK frame in PREAMBLE_MARK). D.FRAME itself is
this with the core's detector. -/
def Obligations.FrameActsAsDetectorPair : Prop :=
  ∀ (detect : Detector) (payload : List Word) (s : State),
    s.dem.state = .preambleSpace ∨ s.dem.state = .preambleMark ∨ s.dem.state = .decode →
    s.dem.bitpos.toNat ≤ 7 → payload.length = ceilDiv s.dem.spfEff.toNat 2 →
    let n := s.dem.spfEff.toNat
    let x := (frameSamples n payload).map normPcm
    let sp := detect s.dem.cfg.space.toNat s.dem.srEff.toNat n (1 / 2) x
    let mk := detect s.dem.cfg.mark.toNat s.dem.srEff.toNat n (1 / 2) x
    (s.dem.state ≠ .preambleMark ∨ (mk = true ∧ sp = false) →
      exec (.dCls sp mk) s = .next (frameCommand detect payload s)) ∧
    (s.dem.state = .preambleMark → ¬ (mk = true ∧ sp = false) →
      frameCommand detect payload s =
        { s with dem := { s.dem with state := .error, cause := .preamble,
                                     fcmd := encodeHeader (.dFrame payload) } })

/-- R172: a D.FRAME of the right length in PREAMBLE_SPACE or DECODE never faults. It does what the D.CLS of
this core's two detector results does, and at most moves to PREAMBLE_MARK, or stays in DECODE with new
decoder registers. A PREAMBLE_MARK frame completes too, when both results say MARK. -/
def Obligations.FrameCompletes : Prop :=
  ∀ (payload : List Word) (s : State),
    let n := s.dem.spfEff.toNat
    let x := (frameSamples n payload).map normPcm
    let sp := Config.detect s.dem.cfg.space.toNat s.dem.srEff.toNat n (1 / 2) x
    let mk := Config.detect s.dem.cfg.mark.toNat s.dem.srEff.toNat n (1 / 2) x
    s.dem.state = .preambleSpace ∨ s.dem.state = .decode ∨
      (s.dem.state = .preambleMark ∧ mk = true ∧ sp = false) →
    s.dem.bitpos.toNat ≤ 7 → payload.length = ceilDiv n 2 →
    ∃ t, exec (.dFrame payload) s = .next t ∧ exec (.dCls sp mk) s = .next t ∧ t.dem.state ≠ .error ∧
      t = { s with dem := { s.dem with state := t.dem.state, clock := t.dem.clock, spaces := t.dem.spaces,
                                       marks := t.dem.marks, acc := t.dem.acc, bitpos := t.dem.bitpos },
                   demOut := t.demOut } ∧
      (s.dem.state = .preambleSpace → (t = s ∨
        t = { s with dem := { s.dem with clock := 0, state := .preambleMark } })) ∧
      (s.dem.state = .decode → t.dem.state = .decode)

/-- R172, R202: a D.FRAME whose LEN is not ceil_div(spf, 2) raises E_FRAME_LEN in every protocol state, and
changes the three fault registers alone. FCMD holds the header. -/
def Obligations.FrameLengthMismatchFaults : Prop :=
  ∀ (payload : List Word) (s : State),
    s.dem.state = .preambleSpace ∨ s.dem.state = .preambleMark ∨ s.dem.state = .decode →
    payload.length < 65536 → payload.length ≠ ceilDiv s.dem.spfEff.toNat 2 →
    exec (.dFrame payload) s =
      .next { s with dem := { s.dem with state := .error, cause := .frameLen,
                                         fcmd := BitVec.ofNat 32 (0x23000000 + payload.length) } }

/-- R174: in a protocol state D.END goes to DONE and changes nothing else: a partial byte and a partial
symbol are dropped, their registers kept. The premise is R44 item 5. -/
def Obligations.EndOfInputDropsPartials : Prop :=
  ∀ s : State, s.dem.state = .preambleSpace ∨ s.dem.state = .preambleMark ∨ s.dem.state = .decode →
    s.dem.bitpos.toNat ≤ 7 →
    exec .dEnd s = .next { s with dem := { s.dem with state := .done } }

/-! ## Demodulator: runs -/

/-- R45: the only changes of D.STATE that a step makes: forward one protocol state at a time, from a
protocol state to DONE by D.END, to ERROR, to IDLE by D.RST or GRST, and from IDLE to PREAMBLE_SPACE by
D.START. -/
def Obligations.ProtocolStateMovesForward : Prop :=
  ∀ (s t : State) (h : Word) (ws : List Word), s.cmdIn = h :: ws → step s = .next t →
    s.dem.state ≠ t.dem.state →
    (s.dem.state = .idle ∧ t.dem.state = .preambleSpace ∧ h = 0x22000000) ∨
    (s.dem.state = .preambleSpace ∧ t.dem.state = .preambleMark) ∨
    (s.dem.state = .preambleMark ∧ t.dem.state = .decode) ∨
    ((s.dem.state = .preambleSpace ∨ s.dem.state = .preambleMark ∨ s.dem.state = .decode) ∧
      t.dem.state = .done ∧ h = 0x24000000) ∨
    (s.dem.state ≠ .error ∧ t.dem.state = .error) ∨
    (t.dem.state = .idle ∧ (h = 0x2F000000 ∨ h = 0x01000000))

/-- R177: if no frame after D.START classifies as MARK, nothing changes at all, however many frames
arrive, by D.CLS or by D.FRAME. -/
def Obligations.NoPrematureLock : Prop :=
  ∀ (is : List Instr) (s : State), DemFresh s.dem →
    (∀ i ∈ is, ∃ c, frameClassOf i s = some c ∧ c ≠ .mark) → RunsTo is s s

/-- R178: a SPACE or AMBIG frame within the K frames after the entry to PREAMBLE_MARK raises E_PREAMBLE, and
DEM and its queue stay as they are then under every run of commands without D.RST and GRST. -/
def Obligations.DesyncIsFatal : Prop :=
  ∀ (marks : List Instr) (i : Instr) (s : State), s.dem.state = .preambleMark → s.dem.clock = 0 →
    marks.length < s.dem.ksym.toNat → (∀ m ∈ marks, frameClassOf m s = some .mark) →
    (frameClassOf i s = some .space ∨ frameClassOf i s = some .ambig) →
    ∃ t, RunsTo (marks ++ [i]) s t ∧ t.dem.state = .error ∧ t.dem.cause = .preamble ∧
      t.dem.fcmd = encodeHeader i ∧ t.dem.clock.toNat = marks.length ∧ t.demOut = s.demOut ∧
      ∀ (is : List Instr) (u : State), (∀ j ∈ is, j ≠ .dRst ∧ j ≠ .grst) → RunsTo is t u →
        u.dem = t.dem ∧ u.demOut = t.demOut

/-- R179: since D.START, eight times the bytes emitted plus BITPOS is the number of decisions, after every
run without a reset, whatever it holds. -/
def Obligations.EveryByteTakesEightDecisions : Prop :=
  ∀ (is : List Instr) (s t : State), DemFresh s.dem → (∀ i ∈ is, i ≠ .dRst ∧ i ≠ .grst) →
    RunsTo is s t →
    ∃ bytes : List Byte, t.demOut = s.demOut ++ bytes ∧
      8 * bytes.length + t.dem.bitpos.toNat = decisions is s

/-- R180: from CLOCK = c in DECODE the next decision comes with the (K − c)-th frame and not before: K frames
after the entry, K − e after a decision with error e. -/
def Obligations.DecisionWindowLength : Prop :=
  ∀ (is : List Instr) (s : State), DemInv s.dem → s.dem.state = .decode →
    (∀ i ∈ is, (frameClassOf i s).isSome = true) →
    is.length = s.dem.ksym.toNat - s.dem.clock.toNat →
    decisions is.dropLast s = 0 ∧ decisions is s = 1

/-- R181: the error of a decision, which the clock is left at, is the minority count of the window: at most half
its votes, which are at most K, and below K, so the next window has at least ceil(K / 2) frames. For
K = 1 it is 0, and the next frame is a decision again. -/
def Obligations.DecisionErrorBound : Prop :=
  ∀ (i : Instr) (c : ToneClass) (s : State), DemInv s.dem → frameClassOf i s = some c →
    decidesNow i s = true →
    let spaces := s.dem.spaces.toNat + (if c = .space then 1 else 0)
    let marks := s.dem.marks.toNat + (if c = .mark then 1 else 0)
    let votes := spaces + marks
    let k := s.dem.ksym.toNat
    ∃ t, exec i s = .next t ∧ t.dem.clock.toNat = min spaces marks ∧
      2 * t.dem.clock.toNat ≤ votes ∧ votes ≤ k ∧
      t.dem.clock.toNat ≤ k / 2 ∧ t.dem.clock.toNat < k ∧ (k + 1) / 2 ≤ k - t.dem.clock.toNat ∧
      (k = 1 → t.dem.clock.toNat = 0 ∧ ∀ j, (frameClassOf j t).isSome = true → decidesNow j t = true)

/-! ## The whole machine -/

/-- R44: the invariants between commands are kept by every step, from every state that has them. -/
def Obligations.InvariantsKeptByStep : Prop :=
  ∀ s t : State, Inv s → step s = .next t → Inv t

/-- R44, R41: the state after power-on has every invariant. -/
def Obligations.InvariantsHoldAtReset : Prop :=
  Inv State.reset ∧ FaultRegsInv State.reset ∧ ModCfgInv State.reset.mod ∧ DemCfgInv State.reset.dem

/-- R27 to R29, R33 to R35: CAUSE and FCMD are 0 outside ERROR; while a stream lasts the effective registers agree
with the raw configuration, and in IDLE they are 0. Every step keeps each of these. -/
def Obligations.UnitRegistersStayConsistent : Prop :=
  ∀ s t : State, step s = .next t →
    (FaultRegsInv s → FaultRegsInv t) ∧ (ModCfgInv s.mod → ModCfgInv t.mod) ∧
    (DemCfgInv s.dem → DemCfgInv t.dem)

/-- R183, R186: under the invariants BITPOS is at most 7 before and after every step, so no step raises
E_BITPOS_OVF. -/
def Obligations.BitposOverflowUnreachable : Prop :=
  ∀ s t : State, DemInv s.dem → step s = .next t →
    s.dem.bitpos.toNat ≤ 7 ∧ t.dem.bitpos.toNat ≤ 7 ∧
    (t.dem.cause = .bitposOvf → s.dem.cause = .bitposOvf)

/-- R203, R204: a command that takes a unit to ERROR changes nothing but that unit's STATE, CAUSE and FCMD,
and FCMD is its own header. The premise is R44 item 5. -/
def Obligations.FaultsArePrecise : Prop :=
  ∀ (i : Instr) (s t : State), s.dem.bitpos.toNat ≤ 7 → exec i s = .next t →
    (s.mod.state ≠ .error → t.mod.state = .error →
      t = { s with mod := { s.mod with state := .error, cause := t.mod.cause, fcmd := encodeHeader i } }) ∧
    (s.dem.state ≠ .error → t.dem.state = .error →
      t = { s with dem := { s.dem with state := .error, cause := t.dem.cause, fcmd := encodeHeader i } })

/-- R207, R23: ILL is sticky. Only GRST clears it, and only an illegal header of UNIT 0 or UNIT 3..15 sets
it. -/
def Obligations.IllegalFlagIsSticky : Prop :=
  ∀ (s t : State) (h : Word) (ws : List Word), s.cmdIn = h :: ws → hdrLen h ≤ ws.length →
    step s = .next t →
    (s.ill = true → t.ill = false → h = 0x01000000) ∧
    (s.ill = false → t.ill = true →
      legal h = false ∧ ((hdrUnit h).toNat = 0 ∨ 3 ≤ (hdrUnit h).toNat))

/-- R40, R145: commands only append to the queues: FRAMEs of exactly spf samples and a TAIL of 1 to spf − 1
to MOD_OUT, at most one byte to DEM_OUT. -/
def Obligations.QueuesOnlyGrow : Prop :=
  ∀ s t : State, Inv s → step s = .next t →
    (∃ items, t.modOut = s.modOut ++ items ∧
      ∀ item ∈ items, (∃ xs, item = .frame xs ∧ xs.length = s.mod.spfEff.toNat) ∨
        (∃ xs, item = .tail xs ∧ 1 ≤ xs.length ∧ xs.length < s.mod.spfEff.toNat)) ∧
    ∃ bytes, t.demOut = s.demOut ++ bytes ∧ bytes.length ≤ 1

/-- R72: a command that does not touch a unit leaves its registers and its queue alone, and only GRST
changes ILL. -/
def Obligations.CommandsTouchOneUnit : Prop :=
  ∀ (i : Instr) (s t : State), exec i s = .next t →
    (touches .mod i = false → t.mod = s.mod ∧ t.modOut = s.modOut) ∧
    (touches .dem i = false → t.dem = s.dem ∧ t.demOut = s.demOut) ∧
    (i ≠ .grst → t.ill = s.ill) ∧ t.cmdIn = s.cmdIn

/-- R239, R141, R72: what a run of commands leaves in a unit and its queue depends only on the commands
that touch the unit, and only on that unit's own state and queue at the start. -/
def Obligations.UnitSeesOnlyItsCommands : Prop :=
  ∀ (is : List Instr) (s s' t : State), RunsTo is s t →
    (s'.mod = s.mod → s'.modOut = s.modOut →
      ∃ u, RunsTo (is.filter (touches .mod)) s' u ∧ u.mod = t.mod ∧ u.modOut = t.modOut) ∧
    (s'.dem = s.dem → s'.demOut = s.demOut →
      ∃ u, RunsTo (is.filter (touches .dem)) s' u ∧ u.dem = t.dem ∧ u.demOut = t.demOut)

/-! ## Round trip -/

/-- R189 to R192, R196: at P = K ≥ 3 frames a symbol, ideally classified frames of a stream whose first byte
is odd and that holds a 0 bit decode to exactly its bytes, and DEM ends in DONE. -/
def Obligations.AlignedClassesDecodeExactly : Prop :=
  ∀ (p : Nat) (b : Byte) (bs : List Byte) (s : State), DemFresh s.dem → s.dem.ksym.toNat = p → 3 ≤ p →
    b.getLsbD 0 = true → false ∈ (b :: bs).flatMap byteBits →
    ∃ t, RunsTo (clsFrames p (streamBits (b :: bs)) ++ [.dEnd]) s t ∧ t.dem.state = .done ∧
      t.demOut = s.demOut ++ b :: bs

/-- R189, R194: with an even first byte, frames 0 to 2P − 1 leave DEM in PREAMBLE_MARK, frame 2P raises
E_PREAMBLE, and DEM stays as it is then to the end of the stream: no byte is ever emitted. -/
def Obligations.EvenFirstByteFaults : Prop :=
  ∀ (p : Nat) (b : Byte) (bs : List Byte) (s : State), DemFresh s.dem → s.dem.ksym.toNat = p →
    b.getLsbD 0 = false →
    let frames := clsFrames p (streamBits (b :: bs))
    ∃ t u v, RunsTo (frames.take (2 * p)) s t ∧ t.dem.state = .preambleMark ∧
      RunsTo (frames.take (2 * p + 1)) s u ∧ u.dem.state = .error ∧ u.dem.cause = .preamble ∧
      u.dem.fcmd = 0x25010000 ∧ u.demOut = s.demOut ∧
      RunsTo frames s v ∧ v.dem = u.dem ∧ v.demOut = s.demOut

/-- R192, R194: a stream of bytes 0xFF never realigns: its last byte is not emitted, the others are. -/
def Obligations.AllOnesStreamLosesLastByte : Prop :=
  ∀ (p m : Nat) (s : State), DemFresh s.dem → s.dem.ksym.toNat = p →
    ∃ t, RunsTo (clsFrames p (streamBits (List.replicate (m + 1) 0xFF)) ++ [.dEnd]) s t ∧
      t.dem.state = .done ∧ t.demOut = s.demOut ++ List.replicate m 0xFF ∧
      t.dem.bitpos.toNat = 7

/-- R193, R196: at P = 1 or P = 2 no stream decodes to its bytes. -/
def Obligations.TwoFramesPerSymbolFail : Prop :=
  ∀ (p : Nat) (bs : List Byte) (s t : State), DemFresh s.dem → s.dem.ksym.toNat = p → p ≤ 2 → bs ≠ [] →
    RunsTo (clsFrames p (streamBits bs) ++ [.dEnd]) s t → t.demOut ≠ s.demOut ++ bs

/-- R187, R195, R196: the aligned loop-back under an ideal detector. What MOD emits for a stream whose first
byte is odd and that holds a 0 bit, fed frame by frame to DEM by D.FRAME, comes out as the same
bytes, with P ≥ 3 frames to a symbol. -/
def Obligations.LoopbackRoundTrip : Prop :=
  ∀ (detect : Detector) (p : Nat) (b : Byte) (bs : List Byte) (s : State),
    ModFresh s.mod → DemFresh s.dem → s.dem.srEff = s.mod.srEff → s.dem.spfEff = s.mod.spfEff →
    s.dem.cfg.space = s.mod.cfg.space → s.dem.cfg.mark = s.mod.cfg.mark →
    s.mod.nsym.toNat = p * s.mod.spfEff.toNat → s.dem.ksym.toNat = p → 3 ≤ p →
    IdealDetector detect s.mod → b.getLsbD 0 = true → false ∈ (b :: bs).flatMap byteBits →
    ∃ (t : State) (frames : List (List Sample)),
      RunsTo ((b :: bs).map .mByte ++ [.mEnd]) s t ∧ t.modOut = s.modOut ++ frames.map .frame ∧
      ∃ v, exec .dEnd (feedFrames detect frames t) = .next v ∧ v.dem.state = .done ∧
        v.demOut = s.demOut ++ b :: bs
end

