-- ==== Sys2Proof/Laws/Decode.lean ====
section
/-! SUPPORT. The small lemmas of the encoding: the fields of a built header, a header from its fields, and
what the operand decoders accept. -/

namespace Sys2Proof

/-! ## Header fields -/

@[simp] theorem hdrUnit_mkHeader (u o : BitVec 4) (a : Byte) (l : BitVec 16) :
    hdrUnit (mkHeader u o a l) = u := by
  apply BitVec.eq_of_getLsbD_eq
  intro i hi
  simp only [hdrUnit, mkHeader, BitVec.getLsbD_extractLsb', BitVec.getLsbD_append]
  rcases i with _ | _ | _ | _ | i <;> simp_all <;> omega

@[simp] theorem hdrOp_mkHeader (u o : BitVec 4) (a : Byte) (l : BitVec 16) :
    hdrOp (mkHeader u o a l) = o := by
  apply BitVec.eq_of_getLsbD_eq
  intro i hi
  simp only [hdrOp, mkHeader, BitVec.getLsbD_extractLsb', BitVec.getLsbD_append]
  rcases i with _ | _ | _ | _ | i <;> simp_all <;> omega

@[simp] theorem hdrArg_mkHeader (u o : BitVec 4) (a : Byte) (l : BitVec 16) :
    hdrArg (mkHeader u o a l) = a := by
  apply BitVec.eq_of_getLsbD_eq
  intro i hi
  simp only [hdrArg, mkHeader, BitVec.getLsbD_extractLsb', BitVec.getLsbD_append]
  have h1 : ¬ (16 + i < 16) := by omega
  have h2 : 16 + i - 16 = i := by omega
  simp [hi, h1, h2]

@[simp] theorem hdrLen_mkHeader (u o : BitVec 4) (a : Byte) (l : BitVec 16) :
    hdrLen (mkHeader u o a l) = l.toNat := by
  have h : (mkHeader u o a l).extractLsb' 0 16 = l := by
    apply BitVec.eq_of_getLsbD_eq
    intro i hi
    simp only [mkHeader, BitVec.getLsbD_extractLsb', BitVec.getLsbD_append]
    simp [hi]
  simp [hdrLen, h]

/-- A header is its four fields. -/
theorem header_eq_mkHeader (h : Word) :
    h = mkHeader (hdrUnit h) (hdrOp h) (hdrArg h) (h.extractLsb' 0 16) := by
  apply BitVec.eq_of_getLsbD_eq
  intro i hi
  simp only [hdrUnit, hdrOp, hdrArg, mkHeader, BitVec.getLsbD_extractLsb', BitVec.getLsbD_append]
  by_cases h1 : i < 16
  · simp [h1]
  · by_cases h2 : i - 16 < 8
    · simp [h1, h2]
      congr 1
      omega
    · by_cases h3 : i - 16 - 8 < 4
      · simp [h1, h2, h3]
        congr 1
        omega
      · have h4 : i - 16 - 8 - 4 < 4 := by omega
        simp [h1, h2, h3, h4]
        congr 1
        omega

/-- Two headers with equal fields are equal. -/
theorem header_ext {h : Word} {u o : BitVec 4} {a : Byte} {l : BitVec 16}
    (hu : (hdrUnit h).toNat = u.toNat) (ho : (hdrOp h).toNat = o.toNat) (ha : hdrArg h = a)
    (hl : hdrLen h = l.toNat) : h = mkHeader u o a l := by
  rw [header_eq_mkHeader h, BitVec.eq_of_toNat_eq hu, BitVec.eq_of_toNat_eq ho, ha]
  congr 1
  exact BitVec.eq_of_toNat_eq hl

/-- Built headers are equal exactly when their fields are. -/
theorem mkHeader_inj {u o u' o' : BitVec 4} {a a' : Byte} {l l' : BitVec 16} :
    mkHeader u o a l = mkHeader u' o' a' l' ↔ u = u' ∧ o = o' ∧ a = a' ∧ l = l' := by
  constructor
  · intro h
    refine ⟨?_, ?_, ?_, BitVec.eq_of_toNat_eq ?_⟩
    · rw [← hdrUnit_mkHeader u o a l, h, hdrUnit_mkHeader]
    · rw [← hdrOp_mkHeader u o a l, h, hdrOp_mkHeader]
    · rw [← hdrArg_mkHeader u o a l, h, hdrArg_mkHeader]
    · rw [← hdrLen_mkHeader u o a l, h, hdrLen_mkHeader]
  · rintro ⟨rfl, rfl, rfl, rfl⟩
    rfl

/-- Masking a header masks its fields. -/
theorem mkHeader_and (u o u' o' : BitVec 4) (a a' : Byte) (l l' : BitVec 16) :
    mkHeader u o a l &&& mkHeader u' o' a' l'
      = mkHeader (u &&& u') (o &&& o') (a &&& a') (l &&& l') := by
  apply BitVec.eq_of_getLsbD_eq
  intro i hi
  simp only [mkHeader, BitVec.getLsbD_and, BitVec.getLsbD_append]
  split
  · rfl
  · split
    · rfl
    · split <;> rfl

/-! ## Operand decoders -/

/-- A field index decodes to its field. -/
@[simp] theorem cfgFieldOf_cfgIndex (f : CfgField) : cfgFieldOf (cfgIndex f) = some f := by
  cases f <;> rfl

/-- Only a field's index decodes to it. -/
theorem cfgIndex_of_cfgFieldOf {a : Byte} {f : CfgField} (h : cfgFieldOf a = some f) : cfgIndex f = a := by
  revert a
  cases f <;> decide

/-- The legal field indices are 0 to 4. -/
theorem cfgFieldOf_isSome (a : Byte) : (cfgFieldOf a).isSome = decide (a.toNat ≤ 4) := by
  revert a
  decide

/-- Everything a bare command's decoder accepts. -/
theorem decodeBare_eq_instr {i j : Instr} {h : Word} (e : decodeBare i h = .instr j) :
    j = i ∧ hdrArg h = 0 ∧ hdrLen h = 0 := by
  unfold decodeBare at e
  split at e
  · cases e
  · next h1 =>
    split at e
    · cases e
    · next h2 =>
      cases e
      exact ⟨rfl, by simpa using h1, by simpa using h2⟩

/-- Everything a CFGW decoder accepts. -/
theorem decodeCfgw_eq_instr {mk : CfgField → Word → Instr} {h : Word} {payload : List Word} {j : Instr}
    (e : decodeCfgw mk h payload = .instr j) :
    ∃ f v, j = mk f v ∧ payload = [v] ∧ hdrArg h = cfgIndex f := by
  unfold decodeCfgw at e
  split at e
  · cases e
  · next f hf =>
    split at e
    · next v =>
      cases e
      exact ⟨f, v, rfl, rfl, (cfgIndex_of_cfgFieldOf hf).symm⟩
    · cases e

/-- The ARG of D.CLS is its two low bits where the other bits are 0. -/
theorem clsArg_of_bits (a : Byte) (h : a.extractLsb' 2 6 = 0) :
    clsArg (a.getLsbD 0) (a.getLsbD 1) = a := by
  revert a
  decide

end Sys2Proof
end

