-- ==== Sys2Proof/Laws/State.lean ====
section
/-! SUPPORT. One lemma per field for each update of the state, true by rfl, so that no later proof unfolds a
record update. -/

namespace Sys2Proof.Machine

@[simp] theorem State.raiseFault_mod_ill (c : Cause) (h : Word) (s : State) :
    (s.raiseFault .mod c h).ill = s.ill := rfl
@[simp] theorem State.raiseFault_mod_mod (c : Cause) (h : Word) (s : State) :
    (s.raiseFault .mod c h).mod = { s.mod with state := .error, cause := c, fcmd := h } := rfl
@[simp] theorem State.raiseFault_mod_dem (c : Cause) (h : Word) (s : State) :
    (s.raiseFault .mod c h).dem = s.dem := rfl
@[simp] theorem State.raiseFault_mod_modOut (c : Cause) (h : Word) (s : State) :
    (s.raiseFault .mod c h).modOut = s.modOut := rfl
@[simp] theorem State.raiseFault_mod_demOut (c : Cause) (h : Word) (s : State) :
    (s.raiseFault .mod c h).demOut = s.demOut := rfl
@[simp] theorem State.raiseFault_mod_cmdIn (c : Cause) (h : Word) (s : State) :
    (s.raiseFault .mod c h).cmdIn = s.cmdIn := rfl

@[simp] theorem State.raiseFault_dem_ill (c : Cause) (h : Word) (s : State) :
    (s.raiseFault .dem c h).ill = s.ill := rfl
@[simp] theorem State.raiseFault_dem_mod (c : Cause) (h : Word) (s : State) :
    (s.raiseFault .dem c h).mod = s.mod := rfl
@[simp] theorem State.raiseFault_dem_dem (c : Cause) (h : Word) (s : State) :
    (s.raiseFault .dem c h).dem = { s.dem with state := .error, cause := c, fcmd := h } := rfl
@[simp] theorem State.raiseFault_dem_modOut (c : Cause) (h : Word) (s : State) :
    (s.raiseFault .dem c h).modOut = s.modOut := rfl
@[simp] theorem State.raiseFault_dem_demOut (c : Cause) (h : Word) (s : State) :
    (s.raiseFault .dem c h).demOut = s.demOut := rfl
@[simp] theorem State.raiseFault_dem_cmdIn (c : Cause) (h : Word) (s : State) :
    (s.raiseFault .dem c h).cmdIn = s.cmdIn := rfl

@[simp] theorem State.raiseIllegal_ill (s : State) :
    s.raiseIllegal.ill = true := rfl
@[simp] theorem State.raiseIllegal_mod (s : State) :
    s.raiseIllegal.mod = s.mod := rfl
@[simp] theorem State.raiseIllegal_dem (s : State) :
    s.raiseIllegal.dem = s.dem := rfl
@[simp] theorem State.raiseIllegal_modOut (s : State) :
    s.raiseIllegal.modOut = s.modOut := rfl
@[simp] theorem State.raiseIllegal_demOut (s : State) :
    s.raiseIllegal.demOut = s.demOut := rfl
@[simp] theorem State.raiseIllegal_cmdIn (s : State) :
    s.raiseIllegal.cmdIn = s.cmdIn := rfl

@[simp] theorem State.resetUnit_mod_ill (s : State) :
    (s.resetUnit .mod).ill = s.ill := rfl
@[simp] theorem State.resetUnit_mod_mod (s : State) :
    (s.resetUnit .mod).mod = ModUnit.reset := rfl
@[simp] theorem State.resetUnit_mod_dem (s : State) :
    (s.resetUnit .mod).dem = s.dem := rfl
@[simp] theorem State.resetUnit_mod_modOut (s : State) :
    (s.resetUnit .mod).modOut = s.modOut := rfl
@[simp] theorem State.resetUnit_mod_demOut (s : State) :
    (s.resetUnit .mod).demOut = s.demOut := rfl
@[simp] theorem State.resetUnit_mod_cmdIn (s : State) :
    (s.resetUnit .mod).cmdIn = s.cmdIn := rfl

@[simp] theorem State.resetUnit_dem_ill (s : State) :
    (s.resetUnit .dem).ill = s.ill := rfl
@[simp] theorem State.resetUnit_dem_mod (s : State) :
    (s.resetUnit .dem).mod = s.mod := rfl
@[simp] theorem State.resetUnit_dem_dem (s : State) :
    (s.resetUnit .dem).dem = DemUnit.reset := rfl
@[simp] theorem State.resetUnit_dem_modOut (s : State) :
    (s.resetUnit .dem).modOut = s.modOut := rfl
@[simp] theorem State.resetUnit_dem_demOut (s : State) :
    (s.resetUnit .dem).demOut = s.demOut := rfl
@[simp] theorem State.resetUnit_dem_cmdIn (s : State) :
    (s.resetUnit .dem).cmdIn = s.cmdIn := rfl

@[simp] theorem State.resetAll_ill (s : State) :
    s.resetAll.ill = false := rfl
@[simp] theorem State.resetAll_mod (s : State) :
    s.resetAll.mod = ModUnit.reset := rfl
@[simp] theorem State.resetAll_dem (s : State) :
    s.resetAll.dem = DemUnit.reset := rfl
@[simp] theorem State.resetAll_modOut (s : State) :
    s.resetAll.modOut = s.modOut := rfl
@[simp] theorem State.resetAll_demOut (s : State) :
    s.resetAll.demOut = s.demOut := rfl
@[simp] theorem State.resetAll_cmdIn (s : State) :
    s.resetAll.cmdIn = s.cmdIn := rfl

@[simp] theorem State.emitMod_ill (items : List ModItem) (s : State) :
    (s.emitMod items).ill = s.ill := rfl
@[simp] theorem State.emitMod_mod (items : List ModItem) (s : State) :
    (s.emitMod items).mod = s.mod := rfl
@[simp] theorem State.emitMod_dem (items : List ModItem) (s : State) :
    (s.emitMod items).dem = s.dem := rfl
@[simp] theorem State.emitMod_modOut (items : List ModItem) (s : State) :
    (s.emitMod items).modOut = s.modOut ++ items := rfl
@[simp] theorem State.emitMod_demOut (items : List ModItem) (s : State) :
    (s.emitMod items).demOut = s.demOut := rfl
@[simp] theorem State.emitMod_cmdIn (items : List ModItem) (s : State) :
    (s.emitMod items).cmdIn = s.cmdIn := rfl

@[simp] theorem State.emitDem_ill (b : Byte) (s : State) :
    (s.emitDem b).ill = s.ill := rfl
@[simp] theorem State.emitDem_mod (b : Byte) (s : State) :
    (s.emitDem b).mod = s.mod := rfl
@[simp] theorem State.emitDem_dem (b : Byte) (s : State) :
    (s.emitDem b).dem = s.dem := rfl
@[simp] theorem State.emitDem_modOut (b : Byte) (s : State) :
    (s.emitDem b).modOut = s.modOut := rfl
@[simp] theorem State.emitDem_demOut (b : Byte) (s : State) :
    (s.emitDem b).demOut = s.demOut ++ [b] := rfl
@[simp] theorem State.emitDem_cmdIn (b : Byte) (s : State) :
    (s.emitDem b).cmdIn = s.cmdIn := rfl

@[simp] theorem writeModCfg_ill (f : CfgField) (v : Word) (s : State) :
    (writeModCfg f v s).ill = s.ill := rfl
@[simp] theorem writeModCfg_mod (f : CfgField) (v : Word) (s : State) :
    (writeModCfg f v s).mod = { s.mod with cfg := s.mod.cfg.write f v } := rfl
@[simp] theorem writeModCfg_dem (f : CfgField) (v : Word) (s : State) :
    (writeModCfg f v s).dem = s.dem := rfl
@[simp] theorem writeModCfg_modOut (f : CfgField) (v : Word) (s : State) :
    (writeModCfg f v s).modOut = s.modOut := rfl
@[simp] theorem writeModCfg_demOut (f : CfgField) (v : Word) (s : State) :
    (writeModCfg f v s).demOut = s.demOut := rfl
@[simp] theorem writeModCfg_cmdIn (f : CfgField) (v : Word) (s : State) :
    (writeModCfg f v s).cmdIn = s.cmdIn := rfl

@[simp] theorem writeDemCfg_ill (f : CfgField) (v : Word) (s : State) :
    (writeDemCfg f v s).ill = s.ill := rfl
@[simp] theorem writeDemCfg_mod (f : CfgField) (v : Word) (s : State) :
    (writeDemCfg f v s).mod = s.mod := rfl
@[simp] theorem writeDemCfg_dem (f : CfgField) (v : Word) (s : State) :
    (writeDemCfg f v s).dem = { s.dem with cfg := s.dem.cfg.write f v } := rfl
@[simp] theorem writeDemCfg_modOut (f : CfgField) (v : Word) (s : State) :
    (writeDemCfg f v s).modOut = s.modOut := rfl
@[simp] theorem writeDemCfg_demOut (f : CfgField) (v : Word) (s : State) :
    (writeDemCfg f v s).demOut = s.demOut := rfl
@[simp] theorem writeDemCfg_cmdIn (f : CfgField) (v : Word) (s : State) :
    (writeDemCfg f v s).cmdIn = s.cmdIn := rfl

@[simp] theorem State.deliver_ill (ws : List Word) (s : State) :
    (s.deliver ws).ill = s.ill := rfl
@[simp] theorem State.deliver_mod (ws : List Word) (s : State) :
    (s.deliver ws).mod = s.mod := rfl
@[simp] theorem State.deliver_dem (ws : List Word) (s : State) :
    (s.deliver ws).dem = s.dem := rfl
@[simp] theorem State.deliver_modOut (ws : List Word) (s : State) :
    (s.deliver ws).modOut = s.modOut := rfl
@[simp] theorem State.deliver_demOut (ws : List Word) (s : State) :
    (s.deliver ws).demOut = s.demOut := rfl
@[simp] theorem State.deliver_cmdIn (ws : List Word) (s : State) :
    (s.deliver ws).cmdIn = s.cmdIn ++ ws := rfl

@[simp] theorem State.withWords_ill (ws : List Word) (s : State) :
    (s.withWords ws).ill = s.ill := rfl
@[simp] theorem State.withWords_mod (ws : List Word) (s : State) :
    (s.withWords ws).mod = s.mod := rfl
@[simp] theorem State.withWords_dem (ws : List Word) (s : State) :
    (s.withWords ws).dem = s.dem := rfl
@[simp] theorem State.withWords_modOut (ws : List Word) (s : State) :
    (s.withWords ws).modOut = s.modOut := rfl
@[simp] theorem State.withWords_demOut (ws : List Word) (s : State) :
    (s.withWords ws).demOut = s.demOut := rfl
@[simp] theorem State.withWords_cmdIn (ws : List Word) (s : State) :
    (s.withWords ws).cmdIn = ws ++ s.cmdIn := rfl

@[simp] theorem DemUnit.vote_space_state (d : DemUnit) : (d.vote .space).state = d.state := rfl
@[simp] theorem DemUnit.vote_space_cause (d : DemUnit) : (d.vote .space).cause = d.cause := rfl
@[simp] theorem DemUnit.vote_space_fcmd (d : DemUnit) : (d.vote .space).fcmd = d.fcmd := rfl
@[simp] theorem DemUnit.vote_space_cfg (d : DemUnit) : (d.vote .space).cfg = d.cfg := rfl
@[simp] theorem DemUnit.vote_space_srEff (d : DemUnit) : (d.vote .space).srEff = d.srEff := rfl
@[simp] theorem DemUnit.vote_space_spfEff (d : DemUnit) : (d.vote .space).spfEff = d.spfEff := rfl
@[simp] theorem DemUnit.vote_space_ksym (d : DemUnit) : (d.vote .space).ksym = d.ksym := rfl
@[simp] theorem DemUnit.vote_space_clock (d : DemUnit) : (d.vote .space).clock = d.clock := rfl
@[simp] theorem DemUnit.vote_space_spaces (d : DemUnit) : (d.vote .space).spaces = BitVec.ofNat 32 (d.spaces.toNat + 1) := rfl
@[simp] theorem DemUnit.vote_space_marks (d : DemUnit) : (d.vote .space).marks = d.marks := rfl
@[simp] theorem DemUnit.vote_space_acc (d : DemUnit) : (d.vote .space).acc = d.acc := rfl
@[simp] theorem DemUnit.vote_space_bitpos (d : DemUnit) : (d.vote .space).bitpos = d.bitpos := rfl

@[simp] theorem DemUnit.vote_mark_state (d : DemUnit) : (d.vote .mark).state = d.state := rfl
@[simp] theorem DemUnit.vote_mark_cause (d : DemUnit) : (d.vote .mark).cause = d.cause := rfl
@[simp] theorem DemUnit.vote_mark_fcmd (d : DemUnit) : (d.vote .mark).fcmd = d.fcmd := rfl
@[simp] theorem DemUnit.vote_mark_cfg (d : DemUnit) : (d.vote .mark).cfg = d.cfg := rfl
@[simp] theorem DemUnit.vote_mark_srEff (d : DemUnit) : (d.vote .mark).srEff = d.srEff := rfl
@[simp] theorem DemUnit.vote_mark_spfEff (d : DemUnit) : (d.vote .mark).spfEff = d.spfEff := rfl
@[simp] theorem DemUnit.vote_mark_ksym (d : DemUnit) : (d.vote .mark).ksym = d.ksym := rfl
@[simp] theorem DemUnit.vote_mark_clock (d : DemUnit) : (d.vote .mark).clock = d.clock := rfl
@[simp] theorem DemUnit.vote_mark_spaces (d : DemUnit) : (d.vote .mark).spaces = d.spaces := rfl
@[simp] theorem DemUnit.vote_mark_marks (d : DemUnit) : (d.vote .mark).marks = BitVec.ofNat 32 (d.marks.toNat + 1) := rfl
@[simp] theorem DemUnit.vote_mark_acc (d : DemUnit) : (d.vote .mark).acc = d.acc := rfl
@[simp] theorem DemUnit.vote_mark_bitpos (d : DemUnit) : (d.vote .mark).bitpos = d.bitpos := rfl

@[simp] theorem DemUnit.vote_ambig_state (d : DemUnit) : (d.vote .ambig).state = d.state := rfl
@[simp] theorem DemUnit.vote_ambig_cause (d : DemUnit) : (d.vote .ambig).cause = d.cause := rfl
@[simp] theorem DemUnit.vote_ambig_fcmd (d : DemUnit) : (d.vote .ambig).fcmd = d.fcmd := rfl
@[simp] theorem DemUnit.vote_ambig_cfg (d : DemUnit) : (d.vote .ambig).cfg = d.cfg := rfl
@[simp] theorem DemUnit.vote_ambig_srEff (d : DemUnit) : (d.vote .ambig).srEff = d.srEff := rfl
@[simp] theorem DemUnit.vote_ambig_spfEff (d : DemUnit) : (d.vote .ambig).spfEff = d.spfEff := rfl
@[simp] theorem DemUnit.vote_ambig_ksym (d : DemUnit) : (d.vote .ambig).ksym = d.ksym := rfl
@[simp] theorem DemUnit.vote_ambig_clock (d : DemUnit) : (d.vote .ambig).clock = d.clock := rfl
@[simp] theorem DemUnit.vote_ambig_spaces (d : DemUnit) : (d.vote .ambig).spaces = d.spaces := rfl
@[simp] theorem DemUnit.vote_ambig_marks (d : DemUnit) : (d.vote .ambig).marks = d.marks := rfl
@[simp] theorem DemUnit.vote_ambig_acc (d : DemUnit) : (d.vote .ambig).acc = d.acc := rfl
@[simp] theorem DemUnit.vote_ambig_bitpos (d : DemUnit) : (d.vote .ambig).bitpos = d.bitpos := rfl

end Sys2Proof.Machine
end

