-- ==== Sys2Proof/Laws/Ops.lean ====
section
/-! SUPPORT. For each shared operation one lemma that says once everything it can do. -/

namespace Sys2Proof.Machine

/-! ## The command stream -/

/-- `hasWords` counts. -/
theorem hasWords_eq_decide_le (n : Nat) (ws : List Word) : hasWords n ws = decide (n ≤ ws.length) := by
  induction n generalizing ws with
  | zero => simp [hasWords]
  | succ n ih =>
    cases ws with
    | nil => simp [hasWords]
    | cons w ws => simp [hasWords, ih]

/-- A whole command at the head of the stream is taken off it. -/
theorem takeCommand_of_le {h : Word} {ws : List Word} (hl : hdrLen h ≤ ws.length) :
    takeCommand (h :: ws) = some (h, ws.take (hdrLen h), ws.drop (hdrLen h)) := by
  simp [takeCommand, hasWords_eq_decide_le, hl]

/-- A command delivered in part is left on the stream. -/
theorem takeCommand_of_lt {h : Word} {ws : List Word} (hl : ws.length < hdrLen h) :
    takeCommand (h :: ws) = none := by
  simp [takeCommand, hasWords_eq_decide_le, hl]

/-- Everything `takeCommand` can answer. -/
theorem takeCommand_eq_some {stream : List Word} {h : Word} {payload rest : List Word}
    (e : takeCommand stream = some (h, payload, rest)) :
    stream = h :: (payload ++ rest) ∧ payload.length = hdrLen h := by
  cases stream with
  | nil => simp [takeCommand] at e
  | cons x ws =>
    by_cases hl : hdrLen x ≤ ws.length
    · rw [takeCommand_of_le hl] at e
      simp only [Option.some.injEq, Prod.mk.injEq] at e
      obtain ⟨rfl, rfl, rfl⟩ := e
      exact ⟨by simp, by simpa using hl⟩
    · rw [takeCommand_of_lt (by omega)] at e
      cases e

/-! ## The checks every command passes -/

/-- Everything `modCommand` can do. -/
theorem modCommand_cases (h : Word) (ok : ModState → Bool) (act : State → State) (s : State) :
    (s.mod.state = .error ∧ modCommand h ok act s = s) ∨
    (s.mod.state ≠ .error ∧ ok s.mod.state = true ∧ modCommand h ok act s = act s) ∨
    (s.mod.state ≠ .error ∧ ok s.mod.state = false ∧
      modCommand h ok act s = s.raiseFault .mod .state h) := by
  by_cases he : s.mod.state = .error
  · exact .inl ⟨he, by simp [modCommand, State.inError, he]⟩
  · cases hk : ok s.mod.state
    · exact .inr (.inr ⟨he, rfl, by simp [modCommand, State.inError, he, hk]⟩)
    · exact .inr (.inl ⟨he, rfl, by simp [modCommand, State.inError, he, hk]⟩)

/-- Everything `demCommand` can do. -/
theorem demCommand_cases (h : Word) (ok : DemState → Bool) (act : State → State) (s : State) :
    (s.dem.state = .error ∧ demCommand h ok act s = s) ∨
    (s.dem.state ≠ .error ∧ ok s.dem.state = true ∧ demCommand h ok act s = act s) ∨
    (s.dem.state ≠ .error ∧ ok s.dem.state = false ∧
      demCommand h ok act s = s.raiseFault .dem .state h) := by
  by_cases he : s.dem.state = .error
  · exact .inl ⟨he, by simp [demCommand, State.inError, he]⟩
  · cases hk : ok s.dem.state
    · exact .inr (.inr ⟨he, rfl, by simp [demCommand, State.inError, he, hk]⟩)
    · exact .inr (.inl ⟨he, rfl, by simp [demCommand, State.inError, he, hk]⟩)

/-- In IDLE a configuration command runs its rule. -/
theorem modCommand_config {h : Word} {act : State → State} {s : State} (hs : s.mod.state = .idle) :
    modCommand h ModState.acceptsConfig act s = act s := by
  simp [modCommand, State.inError, hs, ModState.acceptsConfig]

/-- In RUN a stream command runs its rule. -/
theorem modCommand_stream {h : Word} {act : State → State} {s : State} (hs : s.mod.state = .run) :
    modCommand h ModState.acceptsStream act s = act s := by
  simp [modCommand, State.inError, hs, ModState.acceptsStream]

/-- In IDLE a configuration command runs its rule. -/
theorem demCommand_config {h : Word} {act : State → State} {s : State} (hs : s.dem.state = .idle) :
    demCommand h DemState.acceptsConfig act s = act s := by
  simp [demCommand, State.inError, hs, DemState.acceptsConfig]

/-- In a protocol state a stream command runs its rule. -/
theorem demCommand_stream {h : Word} {act : State → State} {s : State}
    (hs : s.dem.state = .preambleSpace ∨ s.dem.state = .preambleMark ∨ s.dem.state = .decode) :
    demCommand h DemState.acceptsStream act s = act s := by
  rcases hs with hs | hs | hs <;> simp [demCommand, State.inError, hs, DemState.acceptsStream]

/-- Everything an illegal header can do. -/
theorem illegalCommand_cases (h : Word) (s : State) :
    ((hdrUnit h).toNat ≠ 1 ∧ (hdrUnit h).toNat ≠ 2 ∧ illegalCommand h s = s.raiseIllegal) ∨
    ((hdrUnit h).toNat = 1 ∧ s.mod.state = .error ∧ illegalCommand h s = s) ∨
    ((hdrUnit h).toNat = 1 ∧ s.mod.state ≠ .error ∧
      illegalCommand h s = s.raiseFault .mod .illegalCmd h) ∨
    ((hdrUnit h).toNat = 2 ∧ s.dem.state = .error ∧ illegalCommand h s = s) ∨
    ((hdrUnit h).toNat = 2 ∧ s.dem.state ≠ .error ∧
      illegalCommand h s = s.raiseFault .dem .illegalCmd h) := by
  unfold illegalCommand
  split
  · next h1 => by_cases he : s.mod.state = .error <;> simp [h1, he, illegalInUnit, State.inError]
  · next h2 => by_cases he : s.dem.state = .error <;> simp [h2, he, illegalInUnit, State.inError]
  · next h1 h2 => exact .inl ⟨h1, h2, rfl⟩

/-! ## Every command answers a next state -/

/-- No command stops the core, so `exec` always answers a next state (assumption log entry 12). -/
theorem exec_next (i : Instr) (s : State) : ∃ t, exec i s = .next t := by
  cases i <;> exact ⟨_, rfl⟩

/-- A run of commands always reaches some state. -/
theorem runsTo_total (is : List Instr) (s : State) : ∃ t, RunsTo is s t := by
  induction is generalizing s with
  | nil => exact ⟨s, rfl⟩
  | cons i is ih =>
    obtain ⟨u, hu⟩ := exec_next i s
    obtain ⟨t, ht⟩ := ih u
    exact ⟨t, u, hu, ht⟩

/-- A run in two parts. -/
theorem runsTo_append (as bs : List Instr) (s u : State) :
    RunsTo (as ++ bs) s u ↔ ∃ t, RunsTo as s t ∧ RunsTo bs t u := by
  induction as generalizing s with
  | nil => simp [RunsTo]
  | cons i as ih =>
    simp only [List.cons_append, RunsTo, ih]
    constructor
    · rintro ⟨x, h1, t, h2, h3⟩
      exact ⟨t, ⟨x, h1, h2⟩, h3⟩
    · rintro ⟨t, ⟨x, h1, h2⟩, h3⟩
      exact ⟨x, h1, t, h2, h3⟩

/-! ## Validation -/

/-- Everything `validate` can answer, in terms of the raw registers. -/
theorem validate_eq_ok {u : UnitId} {c : RawCfg} {sr spf : Nat} (e : validate u c = .ok sr spf) :
    c.baud ≠ 0 ∧ c.space ≠ 0 ∧ c.mark ≠ 0 ∧ sr = c.effSr ∧ spf = c.effSpf ∧ 0 < spf ∧ spf ≤ 65535 ∧
      (u = .mod → sr % c.baud.toNat = 0) := by
  unfold validate at e
  split at e
  · cases e
  · next h1 =>
    split at e
    · cases e
    · next h2 =>
      split at e
      · cases e
      · next h3 =>
        split at e
        · cases e
        · next h4 =>
          simp only [Validated.ok.injEq] at e
          obtain ⟨rfl, rfl⟩ := e
          simp only [not_or] at h1
          simp only [Config.spfMax] at h3
          exact ⟨h1.1, h1.2.1, h1.2.2, rfl, rfl, by omega, by omega,
            fun hu => by_contra fun hn => h4 ⟨hu, hn⟩⟩

/-- A valid configuration passes. -/
theorem validate_of_valid {u : UnitId} {c : RawCfg} (hb : c.baud ≠ 0) (hs : c.space ≠ 0) (hm : c.mark ≠ 0)
    (h1 : 0 < c.effSpf) (h2 : c.effSpf ≤ 65535) (h3 : u = .mod → c.effSr % c.baud.toNat = 0) :
    validate u c = .ok c.effSr c.effSpf := by
  have h0 : c.effSpf ≠ 0 := by omega
  have h4 : ¬ Config.spfMax < c.effSpf := by simp only [Config.spfMax]; omega
  have h5 : ¬ (u = .mod ∧ c.effSr % c.baud.toNat ≠ 0) := fun h => h.2 (h3 h.1)
  simp only [validate, hb, hs, hm, or_self, if_false, h0, h4, h5]

/-- A failed validation names a cause, never the code of "no fault". -/
theorem validate_cause_ne_none {u : UnitId} {c : RawCfg} {x : Cause} (e : validate u c = .cause x) :
    x ≠ .none ∧ x ≠ .bitposOvf := by
  unfold validate at e
  split at e
  · cases e; simp
  · split at e
    · cases e; simp
    · split at e
      · cases e; simp
      · split at e
        · cases e; simp
        · cases e

/-- The effective sample rate is never 0 and fits its register. -/
theorem effSr_bounds (c : RawCfg) : 0 < c.effSr ∧ c.effSr < 2 ^ 32 := by
  unfold RawCfg.effSr
  split
  · simp [Config.srDefault]
  · next h =>
    have : c.sr.toNat ≠ 0 := fun h0 => h (BitVec.eq_of_toNat_eq (by simpa using h0))
    exact ⟨by omega, c.sr.isLt⟩

/-! ## Integer operators -/

/-- `ceil_div(a, b)` is the least `k` with `a ≤ k · b`. -/
theorem ceilDiv_le_iff {a b k : Nat} (hb : 0 < b) : ceilDiv a b ≤ k ↔ a ≤ k * b := by
  unfold ceilDiv
  rw [Nat.div_le_iff_le_mul_add_pred hb, Nat.mul_comm]
  omega

/-- `ceil_div` of a positive number is positive and at most that number. -/
theorem ceilDiv_bounds {a b : Nat} (ha : 0 < a) (hb : 0 < b) : 0 < ceilDiv a b ∧ ceilDiv a b ≤ a := by
  constructor
  · by_contra h
    have := (ceilDiv_le_iff (k := 0) (a := a) hb).1 (by omega)
    omega
  · exact (ceilDiv_le_iff hb).2 (Nat.le_mul_of_pos_right a hb)

/-! ## The framer -/

/-- Everything the framer's loop answers when it has the passes it needs: complete frames, a leftover
shorter than a frame, and every sample in order. -/
theorem frameLoop_spec {spf : Nat} (hspf : 0 < spf) (fuel : Nat) (buf : List Sample)
    (hf : buf.length / spf ≤ fuel) :
    ∃ frames : List (List Sample), (frameLoop spf fuel buf).1 = frames.map .frame ∧
      frames.flatten ++ (frameLoop spf fuel buf).2 = buf ∧ (∀ f ∈ frames, f.length = spf) ∧
      (frameLoop spf fuel buf).2.length < spf := by
  induction fuel generalizing buf with
  | zero =>
    have h : buf.length < spf := (Nat.div_eq_zero_iff_lt hspf).1 (Nat.le_zero.1 hf)
    exact ⟨[], by simp [frameLoop, h]⟩
  | succ n ih =>
    by_cases h : spf ≤ buf.length
    · have hdiv : (buf.drop spf).length / spf ≤ n := by
        have hs : buf.length / spf = (buf.length - spf) / spf + 1 := by
          conv_lhs => rw [← Nat.sub_add_cancel h]
          exact Nat.add_div_right _ hspf
        rw [List.length_drop]
        omega
      obtain ⟨frames, h1, h2, h3, h4⟩ := ih (buf.drop spf) hdiv
      refine ⟨buf.take spf :: frames, ?_, ?_, ?_, ?_⟩
      · simp [frameLoop, h, h1]
      · simp only [frameLoop, h, if_true, List.flatten_cons, List.append_assoc, h2,
          List.take_append_drop]
      · intro f hf
        rcases List.mem_cons.1 hf with rfl | hf
        · simpa using h
        · exact h3 f hf
      · simpa [frameLoop, h] using h4
    · exact ⟨[], by simp [frameLoop, h]; omega⟩

/-- Everything the framer answers for a started unit. -/
theorem slice_spec {spf : Nat} (hspf : 0 < spf) (buf : List Sample) :
    ∃ frames : List (List Sample), (slice spf buf).1 = frames.map .frame ∧
      frames.flatten ++ (slice spf buf).2 = buf ∧ (∀ f ∈ frames, f.length = spf) ∧
      (slice spf buf).2.length < spf :=
  frameLoop_spec hspf _ buf (Nat.le_refl _)

/-! ## The demodulator -/

/-- The decided bit and the error: the error is the smaller of the two counts. -/
theorem decisionErr_toNat (d : DemUnit) : d.decisionErr.toNat = min d.spaces.toNat d.marks.toNat := by
  unfold DemUnit.decisionErr DemUnit.decidedBit
  by_cases h : d.spaces.toNat < d.marks.toNat
  · simp [h, Nat.min_eq_left (Nat.le_of_lt h)]
  · simp [h, Nat.min_eq_right (Nat.le_of_not_lt h)]

/-- The fold as arithmetic: half the accumulator, and 128 for a 1. -/
theorem foldBit_toNat (acc : Byte) (bit : Bool) :
    (foldBit acc bit).toNat = acc.toNat / 2 + (if bit then 128 else 0) := by
  revert acc
  cases bit <;> decide

/-- Everything a symbol decision can do where BITPOS is at most 7 (R183): it never faults. -/
theorem decideSymbol_of_le (h : Word) (s : State) (hb : s.dem.bitpos.toNat ≤ 7) :
    (s.dem.bitpos.toNat = 7 ∧ decideSymbol h s =
      { s with
        dem := { s.dem with
          spaces := 0, marks := 0, acc := 0, bitpos := 0, clock := s.dem.decisionErr }
        demOut := s.demOut ++ [foldBit s.dem.acc s.dem.decidedBit] }) ∨
    (s.dem.bitpos.toNat < 7 ∧ decideSymbol h s =
      { s with
        dem := { s.dem with
          spaces := 0, marks := 0, acc := foldBit s.dem.acc s.dem.decidedBit
          bitpos := BitVec.ofNat 4 (s.dem.bitpos.toNat + 1), clock := s.dem.decisionErr } }) := by
  by_cases h7 : s.dem.bitpos.toNat = 7
  · left
    refine ⟨h7, ?_⟩
    simp [decideSymbol, h7, State.emitDem]
  · right
    have h1 : s.dem.bitpos.toNat + 1 ≠ 8 := by omega
    have h2 : ¬ 8 < s.dem.bitpos.toNat + 1 := by omega
    refine ⟨by omega, ?_⟩
    simp only [decideSymbol, h1, h2, if_false]

end Sys2Proof.Machine
end

