-- ==== Sys2Proof/Laws/PerInstr.lean ====
section
/-! SUPPORT. One lemma per constructor of `Instr` for each statement made instruction by instruction. -/

namespace Sys2Proof.Laws

/-- The header of a well-formed command is one that R88 calls legal. -/
def LegalHeader.Statement (i : Instr) : Prop := i.wf = true → legal (encodeHeader i) = true

theorem LegalHeader.nop (arg : Byte) (payload : List Word) :
    LegalHeader.Statement (.nop arg payload) := by
  intro _
  simp [legal, encodeHeader]

theorem LegalHeader.grst : LegalHeader.Statement .grst := by
  intro _
  decide

theorem LegalHeader.mCfgw (field : CfgField) (value : Word) :
    LegalHeader.Statement (.mCfgw field value) := by
  intro _
  cases field <;> (simp only [encodeHeader]; decide)

theorem LegalHeader.mStart : LegalHeader.Statement .mStart := by
  intro _
  decide

theorem LegalHeader.mByte (b : Byte) :
    LegalHeader.Statement (.mByte b) := by
  intro _
  simp [legal, encodeHeader]

theorem LegalHeader.mEnd : LegalHeader.Statement .mEnd := by
  intro _
  decide

theorem LegalHeader.mRst : LegalHeader.Statement .mRst := by
  intro _
  decide

theorem LegalHeader.dCfgw (field : CfgField) (value : Word) :
    LegalHeader.Statement (.dCfgw field value) := by
  intro _
  cases field <;> (simp only [encodeHeader]; decide)

theorem LegalHeader.dStart : LegalHeader.Statement .dStart := by
  intro _
  decide

theorem LegalHeader.dFrame (payload : List Word) :
    LegalHeader.Statement (.dFrame payload) := by
  intro _
  simp [legal, encodeHeader]

theorem LegalHeader.dEnd : LegalHeader.Statement .dEnd := by
  intro _
  decide

theorem LegalHeader.dCls (space mark : Bool) :
    LegalHeader.Statement (.dCls space mark) := by
  intro _
  cases space <;> cases mark <;> decide

theorem LegalHeader.dRst : LegalHeader.Statement .dRst := by
  intro _
  decide

end Sys2Proof.Laws
end

