-- ==== Sys2Proof/Laws/Tone.lean ====
section
/-! SUPPORT. What the partial sums of the tone generator are: the power series of the sine, below it for an even
number of terms and above it for an odd one. -/

namespace Sys2Proof.Machine

/-! ## The series -/

/-- `sineSeries` adds `n` further terms of the alternating series. -/
theorem sineSeries_eq (x : ℚ) (n k : ℕ) (acc : ℚ) :
    sineSeries (x * x) n (k + 1) ((-1) ^ k * x ^ (2 * k + 1) / (2 * k + 1).factorial) acc
      = acc + ∑ i ∈ Finset.range n, (-1) ^ (k + i) * x ^ (2 * (k + i) + 1) / (2 * (k + i) + 1).factorial := by
  induction n generalizing k acc with
  | zero => simp [sineSeries]
  | succ n ih =>
    have hf : ((2 * (k + 1) + 1).factorial : ℚ)
        = (2 * ((k + 1 : ℕ) : ℚ)) * (2 * ((k + 1 : ℕ) : ℚ) + 1) * (2 * k + 1).factorial := by
      have h : (2 * (k + 1) + 1).factorial = (2 * (k + 1) + 1) * ((2 * (k + 1)) * (2 * k + 1).factorial) := by
        rw [show 2 * (k + 1) = (2 * k + 1) + 1 by ring, Nat.factorial_succ, Nat.factorial_succ]
      rw [h]
      push_cast
      ring
    have h1 : ((2 * k + 1).factorial : ℚ) ≠ 0 := by exact_mod_cast Nat.factorial_ne_zero _
    have h2 : (2 * ((k + 1 : ℕ) : ℚ)) ≠ 0 := by positivity
    have h3 : (2 * ((k + 1 : ℕ) : ℚ) + 1) ≠ 0 := by positivity
    have hterm : -((-1) ^ k * x ^ (2 * k + 1) / ((2 * k + 1).factorial : ℚ) * (x * x))
          / ((2 * ((k + 1 : ℕ) : ℚ)) * (2 * ((k + 1 : ℕ) : ℚ) + 1))
        = (-1) ^ (k + 1) * x ^ (2 * (k + 1) + 1) / ((2 * (k + 1) + 1).factorial : ℚ) := by
      rw [hf]
      field_simp
      ring
    rw [sineSeries, hterm, ih, Finset.sum_range_succ']
    simp only [Nat.add_zero]
    have hs : ∀ i, k + 1 + i = k + (i + 1) := fun i => by ring
    simp only [hs]
    ring

/-- `sineSum` is the partial sum of the sine's power series. -/
theorem sineSum_eq (x : ℚ) (n : ℕ) :
    sineSum x n = ∑ i ∈ Finset.range n, (-1) ^ i * x ^ (2 * i + 1) / (2 * i + 1).factorial := by
  have h := sineSeries_eq x n 0 0
  simpa [sineSum] using h

/-! ## The alternating bounds -/

/-- Partial sum of the sine's series over the reals. -/
noncomputable def sinPartial (n : ℕ) (x : ℝ) : ℝ :=
  ∑ i ∈ Finset.range n, (-1) ^ i * x ^ (2 * i + 1) / (2 * i + 1).factorial

/-- Partial sum of the cosine's series over the reals. -/
noncomputable def cosPartial (n : ℕ) (x : ℝ) : ℝ :=
  ∑ i ∈ Finset.range n, (-1) ^ i * x ^ (2 * i) / (2 * i).factorial

theorem hasDerivAt_sinPartial (n : ℕ) (x : ℝ) : HasDerivAt (sinPartial n) (cosPartial n x) x := by
  unfold sinPartial cosPartial
  refine HasDerivAt.fun_sum fun i _ => ?_
  have h := ((hasDerivAt_pow (2 * i + 1) x).const_mul ((-1 : ℝ) ^ i)).div_const
    ((2 * i + 1).factorial : ℝ)
  refine h.congr_deriv ?_
  rw [Nat.factorial_succ]
  have h1 : ((2 * i).factorial : ℝ) ≠ 0 := by exact_mod_cast Nat.factorial_ne_zero _
  have h2 : ((2 * i + 1 : ℕ) : ℝ) ≠ 0 := by positivity
  push_cast at h2 ⊢
  field_simp

theorem hasDerivAt_cosPartial (n : ℕ) (x : ℝ) :
    HasDerivAt (cosPartial (n + 1)) (-sinPartial n x) x := by
  have he : cosPartial (n + 1)
      = fun y => ∑ i ∈ Finset.range n, (-1 : ℝ) ^ (i + 1) * y ^ (2 * (i + 1)) / (2 * (i + 1)).factorial + 1 := by
    funext y
    simp [cosPartial, Finset.sum_range_succ']
  rw [he]
  have hn : -sinPartial n x
      = ∑ i ∈ Finset.range n, -((-1) ^ i * x ^ (2 * i + 1) / (2 * i + 1).factorial) := by
    simp [sinPartial]
  rw [hn]
  refine (HasDerivAt.fun_sum fun i _ => ?_).add_const 1
  have h := ((hasDerivAt_pow (2 * (i + 1)) x).const_mul ((-1 : ℝ) ^ (i + 1))).div_const
    ((2 * (i + 1)).factorial : ℝ)
  refine h.congr_deriv ?_
  rw [show 2 * (i + 1) = (2 * i + 1) + 1 by ring, Nat.factorial_succ]
  have h1 : ((2 * i + 1).factorial : ℝ) ≠ 0 := by exact_mod_cast Nat.factorial_ne_zero _
  have h2 : ((2 * i + 1 + 1 : ℕ) : ℝ) ≠ 0 := by positivity
  push_cast at h2 ⊢
  field_simp
  ring

/-- A function with a nonnegative derivative that starts at 0 stays nonnegative. -/
theorem nonneg_of_hasDerivAt {f f' : ℝ → ℝ} (hf : ∀ x, HasDerivAt f (f' x) x) (h0 : f 0 = 0)
    (h' : ∀ x, 0 ≤ x → 0 ≤ f' x) {x : ℝ} (hx : 0 ≤ x) : 0 ≤ f x := by
  have hm : MonotoneOn f (Set.Ici 0) := by
    refine monotoneOn_of_deriv_nonneg (convex_Ici 0)
      (fun y _ => (hf y).continuousAt.continuousWithinAt)
      (fun y _ => (hf y).differentiableAt.differentiableWithinAt) fun y hy => ?_
    rw [(hf y).deriv]
    exact h' y (interior_subset hy)
  rw [← h0]
  exact hm Set.self_mem_Ici hx hx

/-- From one term on, the partial sums of the sine and of the cosine lie on alternate sides. -/
theorem sin_cos_alternate (n : ℕ) :
    (∀ x : ℝ, 0 ≤ x → 0 ≤ (-1) ^ (n + 1) * (Real.sin x - sinPartial (n + 1) x)) ∧
    (∀ x : ℝ, 0 ≤ x → 0 ≤ (-1) ^ (n + 1) * (Real.cos x - cosPartial (n + 1) x)) := by
  have hsin : ∀ m : ℕ, sinPartial m 0 = 0 := fun m => by simp [sinPartial]
  have hcos : ∀ m : ℕ, cosPartial (m + 1) 0 = 1 := fun m => by
    simp [cosPartial, Finset.sum_range_succ']
  have step : ∀ m : ℕ, (∀ x : ℝ, 0 ≤ x → 0 ≤ (-1) ^ m * (Real.cos x - cosPartial m x)) →
      ∀ x : ℝ, 0 ≤ x → 0 ≤ (-1) ^ m * (Real.sin x - sinPartial m x) := by
    intro m hc x hx
    exact nonneg_of_hasDerivAt
      (fun y => ((Real.hasDerivAt_sin y).sub (hasDerivAt_sinPartial m y)).const_mul ((-1) ^ m))
      (by simp [hsin]) hc hx
  induction n with
  | zero =>
    have hc : ∀ x : ℝ, 0 ≤ x → 0 ≤ (-1) ^ 1 * (Real.cos x - cosPartial 1 x) := by
      intro x _
      have := Real.cos_le_one x
      simp [cosPartial]
      linarith
    exact ⟨step 1 hc, hc⟩
  | succ n ih =>
    have hc : ∀ x : ℝ, 0 ≤ x → 0 ≤ (-1) ^ (n + 2) * (Real.cos x - cosPartial (n + 2) x) := by
      intro x hx
      refine nonneg_of_hasDerivAt (f' := fun y => (-1) ^ (n + 2) * (-Real.sin y - -sinPartial (n + 1) y))
        (fun y => ((Real.hasDerivAt_cos y).sub (hasDerivAt_cosPartial (n + 1) y)).const_mul _)
        (by simp [hcos]) (fun y hy => ?_) hx
      have := ih.1 y hy
      rw [pow_succ]
      linarith
    exact ⟨step (n + 2) hc, hc⟩

/-- For x ≥ 0 an even number of terms is below the sine, and one more is above it. -/
theorem sineSum_bounds (x : ℚ) (hx : 0 ≤ x) (m : ℕ) :
    (sineSum x (2 * m + 2) : ℝ) ≤ Real.sin x ∧ Real.sin x ≤ (sineSum x (2 * m + 1) : ℝ) := by
  have hcast : ∀ n : ℕ, (sineSum x n : ℝ) = sinPartial n x := by
    intro n
    rw [sineSum_eq]
    push_cast
    rfl
  have hx' : (0 : ℝ) ≤ x := by exact_mod_cast hx
  rw [hcast, hcast]
  have h1 := (sin_cos_alternate (2 * m + 1)).1 x hx'
  have h2 := (sin_cos_alternate (2 * m)).1 x hx'
  have e1 : ((-1 : ℝ)) ^ (2 * m + 1 + 1) = 1 := by
    rw [show 2 * m + 1 + 1 = 2 * (m + 1) by ring, pow_mul]
    simp
  have e2 : ((-1 : ℝ)) ^ (2 * m + 1) = -1 := by
    rw [pow_succ, pow_mul]
    simp
  rw [e1] at h1
  rw [e2] at h2
  constructor <;> linarith

/-! ## The fold and the enclosure -/

/-- Everything the phase fold answers: `g` within a quarter turn, and the sine from its sign and `g`. -/
theorem foldPhase_spec (f sr j : ℕ) (hs : 0 < sr) :
    2 * (foldPhase f sr j).2 ≤ sr ∧
    Real.sin (2 * Real.pi * f * j / sr)
      = (if (foldPhase f sr j).1 then -1 else 1)
        * Real.sin (Real.pi * ((foldPhase f sr j).2 : ℕ) / sr) := by
  have hsr : (sr : ℝ) ≠ 0 := by positivity
  set n := f * j % sr with hn
  have hlt : n < sr := Nat.mod_lt _ hs
  have h1 : Real.sin (2 * Real.pi * f * j / sr) = Real.sin (2 * Real.pi * n / sr) := by
    have e : (f * j : ℝ) = n + sr * (f * j / sr : ℕ) := by
      have := Nat.mod_add_div (f * j) sr
      exact_mod_cast this.symm
    have e' : 2 * Real.pi * f * j / sr = 2 * Real.pi * n / sr + (f * j / sr : ℕ) * (2 * Real.pi) := by
      rw [mul_assoc (2 * Real.pi), e]
      field_simp
    rw [e', Real.sin_add_nat_mul_two_pi]
  have key : ∀ h : ℕ, h < sr →
      Real.sin (Real.pi * (min h (sr - h) : ℕ) / sr) = Real.sin (Real.pi * h / sr) := by
    intro h hh
    rcases le_total h (sr - h) with hle | hle
    · rw [min_eq_left hle]
    · rw [min_eq_right hle, Nat.cast_sub hh.le]
      have e : Real.pi * ((sr : ℝ) - h) / sr = Real.pi - Real.pi * h / sr := by field_simp
      rw [e, Real.sin_pi_sub]
  rw [h1]
  simp only [foldPhase, ← hn]
  by_cases hg : sr ≤ 2 * n
  · simp only [hg, decide_true, if_true]
    refine ⟨by omega, ?_⟩
    rw [key _ (by omega), Nat.cast_sub hg]
    have e : 2 * Real.pi * n / sr = Real.pi * (((2 * n : ℕ) : ℝ) - sr) / sr + Real.pi := by
      push_cast
      field_simp
      ring
    rw [e, Real.sin_add_pi]
    ring
  · simp only [hg, decide_false]
    refine ⟨by simp; omega, ?_⟩
    simp only [Bool.false_eq_true, if_false, one_mul]
    rw [key _ (by omega)]
    push_cast
    congr 1
    ring

/-- At sr = 0 the enclosure determines no value (assumption log entry 2). -/
theorem sineTone_sr_zero (f j : ℕ) : sineTone f 0 j = none := by
  have hg : (foldPhase f 0 j).2 = 0 := by simp [foldPhase]
  have hb : (sineBounds 0 0).1 = 0 := by decide +kernel
  simp [sineTone, hg, hb]

/-- The rationals of `sineBounds` lie on the two sides of the sine. -/
theorem sineBounds_spec (g sr : ℕ) (hs : 0 < sr) :
    ((sineBounds g sr).1 : ℝ) ≤ Real.sin (Real.pi * g / sr) ∧
    Real.sin (Real.pi * g / sr) ≤ (sineBounds g sr).2 := by
  unfold sineBounds
  have hsr : (0 : ℝ) < sr := by exact_mod_cast hs
  split
  · rename_i h
    have e : Real.pi * g / sr = Real.pi / 6 := by
      rw [← h.2]
      push_cast
      have hg : (g : ℝ) ≠ 0 := by exact_mod_cast h.1.ne'
      field_simp
    rw [e, Real.sin_pi_div_six]
    norm_num
  · simp only
    have p1 := Real.pi_gt_d20
    have p2 := Real.pi_lt_d20
    set x : ℚ := piBelow * g / sr with hx
    set d : ℚ := piGap * g / sr with hd
    have hx0 : 0 ≤ x := by
      rw [hx, piBelow]
      positivity
    have b := sineSum_bounds x hx0
    have b1 := (b 5).1
    have b2 := (b 6).2
    have hg : (0 : ℝ) ≤ g / sr := by positivity
    have hxr : (x : ℝ) = 3.14159265358979323846 * (g / sr) := by
      rw [hx, piBelow]
      push_cast
      ring
    have hdr : (d : ℝ) = 0.00000000000000000001 * (g / sr) := by
      rw [hd, piGap]
      push_cast
      ring
    have e1 : (x : ℝ) ≤ Real.pi * g / sr := by
      rw [hxr, mul_div_assoc]
      exact mul_le_mul_of_nonneg_right p1.le hg
    have e2 : Real.pi * g / sr ≤ x + d := by
      rw [hxr, hdr, mul_div_assoc, ← add_mul]
      exact mul_le_mul_of_nonneg_right (by linarith) hg
    have hl := Real.abs_sin_sub_sin_le (Real.pi * g / sr) x
    rw [abs_of_nonneg (by linarith : 0 ≤ Real.pi * g / sr - (x : ℝ))] at hl
    have l := abs_le.1 hl
    push_cast
    constructor <;> linarith [l.1, l.2]

end Sys2Proof.Machine
end

