-- ==== Sys2Proof/Tests/Slice0.lean ====
section
/-! SUPPORT. The model's own tests. Every expected value is from spec/ (the rule or the vector is named), never
from the model. Then one witness for the hypotheses of each statement that has some. -/

namespace Sys2Proof.Tests

open Sys2Proof Sys2Proof.Machine

/-! ## Helpers -/

/-- The state an outcome holds, or the given one. -/
def stateOf (o : Host.Outcome State Fault Refusal) (s : State) : State :=
  match o with
  | .next t => t
  | .fault _ => s
  | .refused _ => s

/-- The state after one command. -/
def after (i : Instr) (s : State) : State := stateOf (exec i s) s

/-- The state after one step on these words. -/
def afterWords (ws : List Word) (s : State) : State := stateOf (step { s with cmdIn := ws }) s

/-- A unit configured as the vectors of 95_test_vectors.md are. -/
def cfg1000 (spf : Word) : RawCfg := { baud := 1000, space := 1000, mark := 2000, sr := 0, spf := spf }

/-- MOD in IDLE with a configuration. -/
def modIdle (c : RawCfg) : State := { State.reset with mod := { ModUnit.reset with cfg := c } }

/-- DEM in IDLE with a configuration. -/
def demIdle (c : RawCfg) : State := { State.reset with dem := { DemUnit.reset with cfg := c } }

/-- MOD in RUN at 8000 Hz, NSYM 8, no byte sent. -/
def modRun (spf : Word) : State :=
  { State.reset with
    mod := { ModUnit.reset with state := .run, cfg := cfg1000 spf, srEff := 8000, spfEff := spf, nsym := 8 } }

/-- DEM in a protocol state at 8000 Hz, spf 2, with K and the counters given. -/
def demAt (st : DemState) (k clock spaces marks : Word) (acc : Byte) (bitpos : BitVec 4) : State :=
  { State.reset with
    dem := { DemUnit.reset with
      state := st, cfg := cfg1000 2, srEff := 8000, spfEff := 2, ksym := k, clock := clock
      spaces := spaces, marks := marks, acc := acc, bitpos := bitpos } }

/-- DEM right after D.START with K frames a symbol. -/
def demFresh (k : Word) : State := demAt .preambleSpace k 0 0 0 0 0

/-- The symbols S and M of 95_test_vectors.md. -/
def symS : List Sample :=
  [0, 23169, 32767, 23169, 0, BitVec.ofInt 16 (-23170), BitVec.ofInt 16 (-32768), BitVec.ofInt 16 (-23170)]
def symM : List Sample :=
  [0, 32767, 0, BitVec.ofInt 16 (-32768), 0, 32767, 0, BitVec.ofInt 16 (-32768)]

/-! ## WellFormed: a payload of 65536 words does not fit LEN (R81, R91) -/

theorem test_wf_nop_refused : (Instr.nop 0 (List.replicate 65536 0)).wf = false := by
  rw [Instr.wf, payloadFits, List.length_replicate]
  decide
theorem test_wf_frame_refused : (Instr.dFrame (List.replicate 65536 0)).wf = false := by
  rw [Instr.wf, payloadFits, List.length_replicate]
  decide
theorem test_wf_frame_longest : (Instr.dFrame (List.replicate 65535 0)).wf = true := by
  rw [Instr.wf, payloadFits, List.length_replicate]
  decide

/-! ## Decode: one word for every constructor, its fields UNIT_OP_ARG_LEN written out from R81 to R85 -/

theorem test_decode_nop :
    decode [0b0000_0000_11111111_0000000000000001, 7] = some (.instr (.nop 255 [7]), []) := by decide
theorem test_decode_grst :
    decode [0b0000_0001_00000000_0000000000000000] = some (.instr .grst, []) := by decide
theorem test_decode_mCfgw :
    decode [0b0001_0001_00000100_0000000000000001, 4] = some (.instr (.mCfgw .samplesPerFrame 4), []) := by
  decide
theorem test_decode_mStart :
    decode [0b0001_0010_00000000_0000000000000000] = some (.instr .mStart, []) := by decide
theorem test_decode_mByte :
    decode [0b0001_0011_11110000_0000000000000000] = some (.instr (.mByte 0xF0), []) := by decide
theorem test_decode_mEnd :
    decode [0b0001_0100_00000000_0000000000000000] = some (.instr .mEnd, []) := by decide
theorem test_decode_mRst :
    decode [0b0001_1111_00000000_0000000000000000] = some (.instr .mRst, []) := by decide
theorem test_decode_dCfgw :
    decode [0b0010_0001_00000011_0000000000000001, 8000] = some (.instr (.dCfgw .sampleRate 8000), []) := by
  decide
theorem test_decode_dStart :
    decode [0b0010_0010_00000000_0000000000000000] = some (.instr .dStart, []) := by decide
theorem test_decode_dFrame :
    decode [0b0010_0011_00000000_0000000000000010, 5, 6, 9] = some (.instr (.dFrame [5, 6]), [9]) := by decide
theorem test_decode_dEnd :
    decode [0b0010_0100_00000000_0000000000000000] = some (.instr .dEnd, []) := by decide
theorem test_decode_dCls :
    decode [0b0010_0101_00000001_0000000000000000] = some (.instr (.dCls true false), []) := by decide
theorem test_decode_dRst :
    decode [0b0010_1111_00000000_0000000000000000] = some (.instr .dRst, []) := by decide

/-- The illegal headers of L2.1, each rejected by name. -/
theorem test_decode_rejects :
    decodeCommand 0x01000001 [0] = .reject .badLen ∧ decodeCommand 0x02000000 [] = .reject .reservedOp ∧
    decodeCommand 0x11050001 [0] = .reject .badArg ∧ decodeCommand 0x11000000 [] = .reject .badLen ∧
    decodeCommand 0x13FF0001 [0] = .reject .badLen ∧ decodeCommand 0x15000000 [] = .reject .reservedOp ∧
    decodeCommand 0x1F010000 [] = .reject .badArg ∧ decodeCommand 0x23010001 [0] = .reject .badArg ∧
    decodeCommand 0x25040000 [] = .reject .badArg ∧ decodeCommand 0x30000000 [] = .reject .reservedUnit ∧
    decodeCommand 0xF2000000 [] = .reject .reservedUnit := by decide
/-- The legality column of L2.1. -/
theorem test_legal :
    [0x00000000, 0x00FF0003, 0x01000000, 0x11040001, 0x12000000, 0x13FF0000, 0x1F000000, 0x23000004,
      0x25030000, 0x2F000000].all legal = true ∧
    [0x01000001, 0x02000000, 0x11050001, 0x11000000, 0x13FF0001, 0x15000000, 0x1F010000, 0x23010001,
      0x25040000, 0x30000000, 0xF2000000].any legal = false := by decide
theorem test_encode_frame : encode (.dFrame [0x7FFF0000]) = [0x23000001, 0x7FFF0000] := by decide
/-- R66: the bytes of the header 0x11000001 are 01 00 00 11. -/
theorem test_wordBytes : wordBytes 0x11000001 = [0x01, 0x00, 0x00, 0x11] := by decide
theorem test_decodeTableWord : decodeTableWord 64 (0x11040001 + 0x100000000 * 4)
    = some (.mCfgw .samplesPerFrame 4) := by decide
theorem test_fetch_runs :
    (stateOf (step (State.reset.withFetchWord 64 (0x11000001 + 0x100000000 * 1000))) State.reset).mod.cfg.baud
      = 1000 := by decide

/-! ## Control (R101 to R116, R220, L2.2) -/

theorem test_nop_discards : afterWords [0x00FF0002, 1, 2, 0x14000000] (modRun 4)
    = { modRun 4 with cmdIn := [0x14000000] } := by decide
/-- R102: GRST clears ILL and keeps the queues. -/
theorem test_grst : after .grst { demAt .error 4 1 1 1 1 1 with ill := true, demOut := [7] }
    = { State.reset with demOut := [7] } := by decide
theorem test_mCfgw : (afterWords [0x11000001, 0x3E8] State.reset).mod.cfg.baud = 1000 := by decide
/-- L2.2: CFGW after START is E_STATE and M.STATUS 0x0000020B. -/
theorem test_mCfgw_wrong_state : (afterWords [0x11000001, 1] (modRun 1)).regRead 0x100 = 0x20B := by decide
theorem test_dCfgw : (afterWords [0x21040001, 2] State.reset).dem.cfg.spf = 2 := by decide
/-- R220, row 3: field index 5 is an illegal command of the unit. -/
theorem test_mCfgw_index5 : (afterWords [0x11050001, 1] State.reset).regRead 0x100 = 0x10B ∧
    (afterWords [0x11050001, 1] State.reset).regRead 0x104 = 0x11050001 := by decide
/-- R110's example. -/
theorem test_mStart :
    let s := after .mStart (modIdle (cfg1000 0))
    s.regRead 0x100 = 9 ∧ s.regRead 0x130 = 8000 ∧ s.regRead 0x134 = 1 ∧ s.regRead 0x138 = 8 := by decide
/-- L2.2: (3, 1000, 2000, 0, 100) is E_CFG_NONINT at MOD. -/
theorem test_mStart_nonint :
    (after .mStart (modIdle { cfg1000 100 with baud := 3 })).mod.cause = .cfgNonint := by decide
/-- L2.2: (3, 1000, 2000, 0, 100) is K 27 at DEM. -/
theorem test_dStart :
    let s := after .dStart (demIdle { cfg1000 100 with baud := 3 })
    s.regRead 0x200 = 1 ∧ s.regRead 0x230 = 8000 ∧ s.regRead 0x234 = 100 ∧ s.regRead 0x238 = 27 := by decide
/-- L1.6: baud 1601 with the default frame size is E_CFG_SPF_ZERO. -/
theorem test_dStart_spf_zero :
    (after .dStart (demIdle { cfg1000 0 with baud := 1601 })).regRead 0x200 = 0x1105 := by decide
/-- L2.6: M.RST leaves ILL and the other unit alone. -/
theorem test_mRst : after .mRst { modRun 4 with ill := true } = { State.reset with ill := true } := by decide
/-- L2.6: after a fault D.RST gives D.STATUS 0 and D.FCMD 0. -/
theorem test_dRst :
    let s := after .dRst (afterWords [0x22000000] State.reset)
    s.regRead 0x200 = 0 ∧ s.regRead 0x204 = 0 := by decide
/-- R220, rows 9 and 10. -/
theorem test_illegal_global : (afterWords [0x30000000] State.reset).regRead 0 = 1 ∧
    (afterWords [0x01010000] State.reset).regRead 0 = 1 := by decide
/-- L2.5: a unit in ERROR ignores an illegal header. -/
theorem test_error_ignores :
    let s := afterWords [0x13000001, 0] (afterWords [0x12000000] State.reset)
    s.regRead 0x100 = 0x100B ∧ s.regRead 0x104 = 0x12000000 := by decide
/-- L2.2: misaligned and unmapped reads are 0, an empty pop is NONE. -/
theorem test_reads_pops : (demFresh 4).regRead 0x238 = 4 ∧ (demFresh 4).regRead 0x239 = 0 ∧
    (demFresh 4).regRead 0x300 = 0 ∧ State.reset.mpop.1 = none ∧ State.reset.dpop.1 = none := by decide
/-- R63, R241: a command delivered in part is not executed. -/
theorem test_waits : stateOf (step { State.reset with cmdIn := [0x11000001] }) State.reset
    = { State.reset with cmdIn := [0x11000001] } := by decide

/-! ## Modulator (R130 to R146, L2.3) -/

theorem test_symbols : sym (modRun 4).mod false = symS ∧ sym (modRun 4).mod true = symM := by decide
/-- L2.3: TONE_PCM off the grid at 8000 Hz, f = 324 and f = 884. -/
theorem test_tone_off_grid :
    [1, 2, 7, 7999].map (fun j => (tonePcm 324 8000 j).toInt) = [8248, 15965, 32043, -8248] ∧
    [1, 4, 5, 7999].map (fun j => (tonePcm 884 8000 j).toInt) = [20965, 11678, -10614, -20966] := by
  decide +kernel
/-- R133 at −1/2 and 1/2: the sines of 7/12 and 1/12 of a turn. -/
theorem test_tone_half : (tonePcm 7 12 1).toInt = -16384 ∧ (tonePcm 1 12 1).toInt = 16383 := by
  decide +kernel
/-- L2.3, row p = 4: 20 FRAMEs; the fifth is the first half of a mark symbol when bit 0 is 1 (P1). -/
theorem test_mByte :
    let s := after (.mByte 1) (modRun 4)
    s.modOut.length = 20 ∧ s.modOut.take 3 = [.frame (symS.take 4), .frame (symS.drop 4), .frame (symM.take 4)] ∧
      s.modOut[4]? = some (.frame (symM.take 4)) ∧ s.modOut[6]? = some (.frame (symS.take 4)) ∧
      s.regRead 0x100 = 1 := by decide +kernel
/-- L2.3, row p = 3: 26 FRAMEs and two samples left. -/
theorem test_mByte_leftover :
    let s := after (.mByte 1) (modRun 3)
    s.modOut.length = 26 ∧ s.mod.buf = [BitVec.ofInt 16 (-32768), BitVec.ofInt 16 (-23170)] := by decide +kernel
/-- L2.3: the TAIL of row p = 3. -/
theorem test_mEnd :
    let s := after .mEnd (after (.mByte 1) (modRun 3))
    s.modOut.getLast? = some (.tail [BitVec.ofInt 16 (-32768), BitVec.ofInt 16 (-23170)]) ∧
      s.regRead 0x100 = 2 ∧ s.regRead 0x140 = 0 := by decide +kernel
/-- L2.3: M.END of an empty stream emits nothing and leaves FIRST. -/
theorem test_mEnd_empty : (after .mEnd (modRun 3)).modOut = [] ∧
    (after .mEnd (modRun 3)).regRead 0x100 = 0xA := by decide
/-- R64: −32768, −23170 deliver as 00 80 7E A5. -/
theorem test_item_bytes : (ModItem.tail [BitVec.ofInt 16 (-32768), BitVec.ofInt 16 (-23170)]).bytes
    = [0x00, 0x80, 0x7E, 0xA5] := by decide

/-! ## Demodulator (R160 to R174, L1.7, L2.4) -/

theorem test_norm : normPcm 16384 = 16384 / 32767 ∧ normPcm (BitVec.ofInt 16 (-16384)) = -1 / 2 := by
  decide +kernel
/-- L2.4: at spf = 3 the upper half of the last word is ignored. -/
theorem test_frame_samples : frameSamples 3 [0x7FFF0000, 0x0000ABCD]
    = [0, 32767, BitVec.ofInt 16 (-21555)] := by decide
/-- P6: the word that packs samples 2 and 3 of S. -/
theorem test_packSamples : packSamples [32767, 23169] = [0x5A817FFF] := by decide
/-- L2.4 and R220: LEN 2 where spf 2 needs 1. -/
theorem test_dFrame_len :
    let s := afterWords [0x23000002, 0, 0] (demFresh 4)
    s.regRead 0x200 = 0x305 ∧ s.regRead 0x204 = 0x23000002 := by decide
/-- R172: D.FRAME consults both detectors on the normalized samples: here one that hears only the mark. -/
theorem test_dFrame_mark :
    (frameCommand (fun f _ _ _ x => f == 2000 && x == [0, 1]) [0x7FFF0000] (demFresh 4)).dem.state
      = .preambleMark := by decide +kernel
/-- L2.4: DECODE, 3, 1, 2 with MARK decides 1 with error 1. -/
theorem test_dCls_decides : (after (.dCls false true) (demAt .decode 4 3 1 2 0x80 1)).dem
    = (demAt .decode 4 1 0 0 0xC0 2).dem := by decide
/-- L2.4: the tie decides 0 with error 2. -/
theorem test_dCls_tie : (after (.dCls false true) (demAt .decode 4 3 2 1 0x60 3)).dem
    = (demAt .decode 4 2 0 0 0x30 4).dem := by decide
/-- L2.4: MARKS 1, SPACES 3, ACC 02, BITPOS 7 emits 0x01. -/
theorem test_emits : (after (.dCls true false) (demAt .decode 4 3 2 1 0x02 7)).demOut = [0x01] := by decide
/-- L1.4: SPACE right after the entry to PREAMBLE_MARK. -/
theorem test_desync :
    let s := afterWords [0x25010000] (demAt .preambleMark 4 0 0 0 0 0)
    s.regRead 0x200 = 0x2005 ∧ s.regRead 0x204 = 0x25010000 := by decide
/-- R174: a partial byte is dropped, its registers stay. -/
theorem test_dEnd : (after .dEnd (demAt .decode 4 2 1 1 0xC0 2)).dem
    = { (demAt .decode 4 2 1 1 0xC0 2).dem with state := .done } := by decide
/-- L1.8: the folds of 0x77. -/
theorem test_folds : foldBit 0x00 true = 0x80 ∧ foldBit 0xE0 false = 0x70 ∧ foldBit 0xEE false = 0x77 := by
  decide

/-! ## Assembler (R93, R94) -/

/-- The lines of P5, with comments and blanks. -/
theorem test_assemble_words :
    assembleWords "m.cfgw spf, 3 ; three\nm.start\n\nm.byte 0x01\nm.end".toList
      = some [0x11040001, 3, 0x12000000, 0x13010000, 0x14000000] := by decide +kernel
theorem test_assemble_pseudo :
    assembleWords "d.init 1000, 1000, 2000, 0, 2\nm.ascii \"a;\"\nd.frame 0, -32768".toList
      = some [0x21000001, 1000, 0x21010001, 1000, 0x21020001, 2000, 0x21030001, 0, 0x21040001, 2,
          0x22000000, 0x13610000, 0x133B0000, 0x23000001, 0x80000000] := by decide +kernel
/-- R81: 65536 payload words have no encoding, 65535 do. -/
theorem test_assemble_bound : asmEncodable [.nop 0 (List.replicate 65536 0)] = none ∧
    asmEncodable [.nop 0 (List.replicate 65535 0)] = some [.nop 0 (List.replicate 65535 0)] := by
  simp only [asmEncodable, List.all_cons, List.all_nil, Instr.wf, payloadFits, List.length_replicate]
  exact ⟨rfl, rfl⟩
theorem test_assemble_errors : assemble "m.byte 256".toList = none ∧ assemble "d.cls 4".toList = none ∧
    assemble "m.cfgw 5, 1".toList = none ∧ assemble "m.foo".toList = none := by decide +kernel

/-! ## Witnesses: a concrete state and operands for the hypotheses of each statement, and for each clause -/

theorem witness_DecodeAndEncodeAgree : (Instr.dFrame [0x7FFF0000]).wf = true ∧
    [(0x7FFF0000 : Word)].length = hdrLen 0x23000001 ∧
    decodeCommand 0x23000001 [0x7FFF0000] = .instr (.dFrame [0x7FFF0000]) := by decide

/-- A header at the row's largest ARG, and one whose LEN is not 0. -/
theorem witness_DecoderFollowsOpcodeTable : [(1 : Word)].length = hdrLen 0x11040001 ∧
    ([] : List Word).length = hdrLen 0x25030000 := by decide

/-- Exactly enough words, and one too few. -/
theorem witness_StepTakesWholeCommands : (Instr.nop 0 [1, 2]).wf = true ∧ State.reset.cmdIn = [] ∧
    hdrLen 0x00000002 ≤ [(1 : Word), 2].length ∧ [(1 : Word)].length < hdrLen 0x00000002 := by decide

theorem witness_StepRunsDecodedInstruction :
    decode (State.reset.withWords [0x12000000, 0x14000000]).cmdIn = some (.instr .mStart, [0x14000000]) := by
  decide

/-- UNIT 0, 3 and 15; UNIT 1 and UNIT 2 outside and inside ERROR. -/
theorem witness_StepOnIllegalHeader :
    (legal 0x02000000 = false ∧ (hdrUnit 0x02000000).toNat = 0) ∧
    (legal 0x30000000 = false ∧ (hdrUnit 0x30000000).toNat = 3) ∧
    (legal 0xF2000000 = false ∧ (hdrUnit 0xF2000000).toNat = 15) ∧
    (legal 0x11050001 = false ∧ hdrLen 0x11050001 ≤ [(1 : Word)].length ∧
      (hdrUnit 0x11050001).toNat = 1 ∧ State.reset.mod.state ≠ .error ∧
      (after .mStart State.reset).mod.state = .error) ∧
    (legal 0x25040000 = false ∧ (hdrUnit 0x25040000).toNat = 2 ∧ State.reset.dem.state ≠ .error ∧
      (after .dStart State.reset).dem.state = .error) := by decide

theorem witness_FramePayloadPacking : 3 = 2 * [(0x7FFF0000 : Word)].length + 1 ∧ 2 < 3 := by decide

theorem witness_SerializationsRoundTrip : 3 < 4 ∧ 7 < 8 ∧
    (ModItem.tail [5, 6]).samples[1]? = some 6 := by decide

theorem witness_RegisterReads : ((0x300 : RegAddr).toNat ∉ mappedAddrs) ∧ (0x101 : RegAddr).toNat % 4 ≠ 0 ∧
    { (modRun 4).mod with buf := [1, 2] }.buf.length < 2 ^ 32 := by decide

theorem witness_PopsTakeTheHead : State.reset.modOut = [] ∧ State.reset.demOut = [] ∧
    { State.reset with modOut := [.tail [1]] }.modOut = [.tail [1]] ∧
    { State.reset with demOut := [7, 8] }.demOut = [7, 8] := by decide

theorem witness_CfgwWritesOneRegister : State.reset.mod.state = .idle ∧ State.reset.dem.state = .idle := by
  decide

/-- Every state of each clause. -/
theorem witness_WrongStateRaisesEState : (modRun 2).mod.state = .run ∧
    (after .mEnd (modRun 2)).mod.state = .done ∧ State.reset.mod.state = .idle ∧
    (demFresh 4).dem.state ≠ .idle ∧ (demFresh 4).dem.state ≠ .error ∧ State.reset.dem.state = .idle ∧
    (after .dEnd (demFresh 4)).dem.state = .done := by decide

/-- A legal and an illegal header at a unit in ERROR. -/
theorem witness_ErrorIgnoresAllButReset :
    (after .mStart State.reset).mod.state = .error ∧ (after .dStart State.reset).dem.state = .error ∧
    (hdrUnit 0x13410000).toNat = 1 ∧ (0x13410000 : Word) ≠ 0x1F000000 ∧
    (hdrUnit 0x25040000).toNat = 2 ∧ (0x25040000 : Word) ≠ 0x2F000000 ∧
    hdrLen 0x13410000 ≤ ([] : List Word).length ∧ hdrLen 0x25040000 ≤ ([] : List Word).length := by decide

/-- The conditions of START at the raw values (1000, 1000, 2000, 0, 65535). -/
theorem witness_ModStartConstructs :
    let c := (modIdle (cfg1000 65535)).mod.cfg
    (modIdle (cfg1000 65535)).mod.state = .idle ∧ c.baud ≠ 0 ∧ c.space ≠ 0 ∧ c.mark ≠ 0 ∧ c.sr = 0 ∧
      c.spf ≠ 0 ∧ 1 ≤ c.spf.toNat ∧ c.spf.toNat ≤ 65535 ∧ 8000 % c.baud.toNat = 0 := by decide

/-- The same with a defaulted frame size, spf = 8000 div 5000 = 1, the smallest. -/
theorem witness_DemStartConstructs :
    let c := (demIdle (cfg1000 0)).dem.cfg
    (demIdle (cfg1000 0)).dem.state = .idle ∧ c.baud ≠ 0 ∧ c.space ≠ 0 ∧ c.mark ≠ 0 ∧ c.sr = 0 ∧
      c.spf = 0 ∧ 8000 / (5 * c.baud.toNat) = 1 := by decide

/-- The rows of L2.2: baud 0, (9000, …, 0, 0), spf 65536, and (3, …, 0, 100) at the ends of 1..65535. -/
theorem witness_StartFaultsInOrder :
    ({ cfg1000 0 with baud := 0 } : RawCfg).baud = 0 ∧
    ({ cfg1000 0 with baud := 9000 } : RawCfg).baud ≠ 0 ∧ 8000 / (5 * 9000) = 0 ∧
    (cfg1000 65536).spf ≠ 0 ∧ 65535 < (cfg1000 65536).spf.toNat ∧
    (cfg1000 1).spf.toNat = 1 ∧ (cfg1000 65535).spf.toNat = 65535 ∧ 8000 % 3 ≠ 0 ∧
    (modIdle (cfg1000 65536)).mod.state = .idle ∧ (demIdle (cfg1000 65536)).dem.state = .idle := by decide

theorem witness_DefaultFrameGivesFivePerSymbol :
    ((modIdle (cfg1000 0)).mod.state = .idle ∧ (modIdle (cfg1000 0)).mod.cfg.spf = 0 ∧
      (after .mStart (modIdle (cfg1000 0))).mod.state = .run) ∧
    ((demIdle (cfg1000 0)).dem.state = .idle ∧ (demIdle (cfg1000 0)).dem.cfg.spf = 0 ∧
      (after .dStart (demIdle (cfg1000 0))).dem.state = .preambleSpace) := by decide

/-- Both fields given, at the largest spf; both 0; both omitted, from a reset unit: spf is 65535, 1 and 1. -/
theorem witness_InitReachesRunningState : (1000 : Word) ≠ 0 ∧ (2000 : Word) ≠ 0 ∧
    State.reset.mod.state = .idle ∧ State.reset.dem.state = .idle ∧
    ((some (8000 : Word)).getD 0).toNat % (1000 : Word).toNat = 0 ∧
    ((some (65535 : Word)).getD 0).toNat = 65535 ∧ (some (0 : Word)).getD 7 = 0 ∧
    (none : Option Word).getD State.reset.mod.cfg.sr = 0 ∧
    (none : Option Word).getD State.reset.dem.cfg.spf = 0 ∧
    8000 / (5 * (1000 : Word).toNat) = 1 ∧ 8000 % (1000 : Word).toNat = 0 := by decide

/-- The first and the last sample of a symbol. -/
theorem witness_SymbolRestartsAtZero : 0 < (modRun 2).mod.nsym.toNat ∧ 7 < (modRun 2).mod.nsym.toNat := by
  decide

/-- Every index of the table of R134: f = 1000 at 8000 Hz, j = 0..7. -/
theorem witness_GridTonesAreExactSines :
    (List.range 8).all (fun j => 8 * 1000 * j % 8000 == 0 && 8 * 1000 * j / 8000 % 8 == j) = true := by decide

/-- An angle off the grid that the enclosure determines: f = 324 at 8000 Hz, j = 1 (L2.3: 8248). -/
theorem witness_TonesFollowTheFormula : 0 < 8000 ∧ 8 * 324 * 1 % 8000 ≠ 0 ∧
    sineTone 324 8000 1 = some 8248 := by decide +kernel

theorem witness_StreamSampleSequence : [(1 : Byte)] ≠ [] := by decide

theorem witness_ByteEmitsCompleteFrames : (modRun 1).mod.state = .run ∧ 0 < (modRun 1).mod.spfEff.toNat := by
  decide

theorem witness_EndFlushesTail : (modRun 3).mod.state = .run := by decide

theorem witness_FramesAreBlocksOfTheStream : ModFresh (modRun 3).mod ∧ [(1 : Byte)] ≠ [] := by decide

theorem witness_WholeStreamIsEmittedExactly : ModFresh (modRun 3).mod := by decide

theorem witness_PreambleSpaceWaitsForMark : (demFresh 4).dem.state = .preambleSpace := by decide

/-- K = 4: the clock at 2 and at 3, the two sides of the comparison. -/
theorem witness_PreambleMarkCountsMarks :
    (demAt .preambleMark 4 2 0 0 0 0).dem.state = .preambleMark ∧
    (demAt .preambleMark 4 2 0 0 0 0).dem.clock.toNat + 1 < (demAt .preambleMark 4 2 0 0 0 0).dem.ksym.toNat ∧
    (demAt .preambleMark 4 3 0 0 0 0).dem.ksym.toNat ≤ (demAt .preambleMark 4 3 0 0 0 0).dem.clock.toNat + 1 ∧
    ¬ (false = true ∧ true = false) := by decide

theorem witness_DecodeFrameVotes :
    let d := (demAt .decode 4 2 1 1 0 0).dem
    d.state = .decode ∧ d.clock.toNat + 1 < d.ksym.toNat ∧ d.spaces.toNat + d.marks.toNat ≤ d.clock.toNat := by
  decide

/-- BITPOS 7, the last before the byte, and BITPOS 6. -/
theorem witness_BoundaryFrameDecides :
    (let d := (demAt .decode 4 3 2 1 0x02 7).dem
     d.state = .decode ∧ DemInv d ∧ d.ksym.toNat ≤ d.clock.toNat + 1 ∧ d.bitpos.toNat = 7) ∧
    (let d := (demAt .decode 4 3 2 1 0x04 6).dem
     d.state = .decode ∧ DemInv d ∧ d.ksym.toNat ≤ d.clock.toNat + 1 ∧ d.bitpos.toNat < 7) := by decide

theorem witness_FoldedBitsLsbFirst :
    [true, true, true, false, true, true, true, false].length ≤ 8 ∧ 7 < 8 := by decide

/-- With a detector that hears a MARK, and with one that hears nothing. -/
theorem witness_FrameActsAsDetectorPair :
    let s := demAt .preambleMark 4 1 0 0 0 0
    s.dem.state = .preambleMark ∧ s.dem.bitpos.toNat ≤ 7 ∧
    [(0x7FFF0000 : Word)].length = ceilDiv s.dem.spfEff.toNat 2 ∧
    frameClass (fun f _ _ _ _ => f == 2000) s.dem [0x7FFF0000] = .mark ∧
    frameClass (fun _ _ _ _ _ => false) s.dem [0x7FFF0000] = .ambig := by decide

theorem witness_FrameCompletes : (demFresh 4).dem.state = .preambleSpace ∧ (demFresh 4).dem.bitpos.toNat ≤ 7 ∧
    (demAt .decode 4 3 2 1 0x02 7).dem.state = .decode ∧ (demAt .decode 4 3 2 1 0x02 7).dem.bitpos.toNat ≤ 7 ∧
    [(0x7FFF0000 : Word)].length = ceilDiv (demFresh 4).dem.spfEff.toNat 2 := by decide

/-- LEN 0 and LEN 2 where spf 2 needs 1. -/
theorem witness_FrameLengthMismatchFaults : (demFresh 4).dem.state = .preambleSpace ∧
    ([] : List Word).length ≠ ceilDiv (demFresh 4).dem.spfEff.toNat 2 ∧
    [(0 : Word), 0].length ≠ ceilDiv (demFresh 4).dem.spfEff.toNat 2 ∧ [(0 : Word), 0].length < 65536 := by
  decide

theorem witness_EndOfInputDropsPartials : (demAt .decode 4 2 1 1 0xC0 7).dem.state = .decode ∧
    (demAt .decode 4 2 1 1 0xC0 7).dem.bitpos.toNat ≤ 7 := by decide

/-- One step for each change of D.STATE that the statement names. -/
theorem witness_ProtocolStateMovesForward :
    (afterWords [0x22000000] (demIdle (cfg1000 0))).dem.state = .preambleSpace ∧
    (afterWords [0x25020000] (demFresh 4)).dem.state = .preambleMark ∧
    (afterWords [0x25020000] (demAt .preambleMark 4 3 0 0 0 0)).dem.state = .decode ∧
    (afterWords [0x24000000] (demFresh 4)).dem.state = .done ∧
    (afterWords [0x25010000] (demAt .preambleMark 4 3 0 0 0 0)).dem.state = .error ∧
    (afterWords [0x01000000] (demFresh 4)).dem.state = .idle := by decide

theorem witness_NoPrematureLock : DemFresh (demFresh 4).dem ∧
    ∀ i ∈ [Instr.dCls true false, .dCls false false, .dCls true true],
      ∃ c, frameClassOf i (demFresh 4) = some c ∧ c ≠ .mark := by
  refine ⟨by decide, fun i hi => ?_⟩
  simp only [List.mem_cons, List.not_mem_nil, or_false] at hi
  rcases hi with rfl | rfl | rfl <;> exact ⟨_, rfl, by decide⟩

/-- The first frame after the entry, and the last before DECODE. -/
theorem witness_DesyncIsFatal :
    let s := demAt .preambleMark 4 0 0 0 0 0
    s.dem.state = .preambleMark ∧ s.dem.clock = 0 ∧ ([] : List Instr).length < s.dem.ksym.toNat ∧
    (List.replicate 3 (Instr.dCls false true)).length < s.dem.ksym.toNat ∧
    (∀ m ∈ List.replicate 3 (Instr.dCls false true), frameClassOf m s = some .mark) ∧
    frameClassOf (.dCls true false) s = some .space ∧ frameClassOf (.dCls true true) s = some .ambig := by
  decide

theorem witness_EveryByteTakesEightDecisions : DemFresh (demFresh 4).dem ∧
    (∀ i ∈ clsFrames 4 (streamBits [1]) ++ [.dEnd], i ≠ .dRst ∧ i ≠ .grst) ∧
    ∃ t, RunsTo (clsFrames 4 (streamBits [1]) ++ [.dEnd]) (demFresh 4) t :=
  ⟨by decide, by decide, runsTo_total _ _⟩

theorem witness_DecisionWindowLength :
    let s := demAt .decode 4 2 1 1 0 0
    DemInv s.dem ∧ s.dem.state = .decode ∧
    (∀ i ∈ [Instr.dCls true false, .dCls true true], (frameClassOf i s).isSome = true) ∧
    [Instr.dCls true false, .dCls true true].length = s.dem.ksym.toNat - s.dem.clock.toNat := by decide

/-- K = 4 at a tie, and K = 1. -/
theorem witness_DecisionErrorBound :
    (DemInv (demAt .decode 4 3 2 1 0 0).dem ∧
      frameClassOf (.dCls false true) (demAt .decode 4 3 2 1 0 0) = some .mark ∧
      decidesNow (.dCls false true) (demAt .decode 4 3 2 1 0 0) = true) ∧
    (DemInv (demAt .decode 1 0 0 0 0 0).dem ∧
      frameClassOf (.dCls false true) (demAt .decode 1 0 0 0 0 0) = some .mark ∧
      decidesNow (.dCls false true) (demAt .decode 1 0 0 0 0 0) = true) := by decide

/-- A state with the invariants in the middle of both streams, and a step from it. -/
theorem witness_InvariantsKeptByStep :
    let s : State := { modRun 3 with dem := (demAt .decode 4 3 2 1 0x02 7).dem, cmdIn := [0x25020000] }
    Inv s ∧ ∃ t, step s = .next t :=
  ⟨by decide, _, rfl⟩

theorem witness_UnitRegistersStayConsistent :
    let s : State := { after .mStart (modIdle (cfg1000 0)) with
      dem := (after .dStart (demIdle (cfg1000 2))).dem, cmdIn := [0x13010000] }
    FaultRegsInv s ∧ ModCfgInv s.mod ∧ DemCfgInv s.dem ∧ ∃ t, step s = .next t :=
  ⟨by decide, by decide, by decide, _, rfl⟩

theorem witness_BitposOverflowUnreachable :
    let s : State := { demAt .decode 4 3 2 1 0x02 7 with cmdIn := [0x25020000] }
    DemInv s.dem ∧ ∃ t, step s = .next t :=
  ⟨by decide, _, rfl⟩

/-- M.START without a configuration, and a SPACE frame in PREAMBLE_MARK. -/
theorem witness_FaultsArePrecise :
    (State.reset.dem.bitpos.toNat ≤ 7 ∧ State.reset.mod.state ≠ .error ∧
      (after .mStart State.reset).mod.state = .error) ∧
    ((demAt .preambleMark 4 1 0 0 0 0).dem.bitpos.toNat ≤ 7 ∧
      (demAt .preambleMark 4 1 0 0 0 0).dem.state ≠ .error ∧
      (after (.dCls true false) (demAt .preambleMark 4 1 0 0 0 0)).dem.state = .error) := by decide

/-- GRST with ILL set, and an illegal header with it clear. -/
theorem witness_IllegalFlagIsSticky :
    (afterWords [0x01000000] { State.reset with ill := true }).ill = false ∧
    (afterWords [0x30000000] State.reset).ill = true ∧ hdrLen 0x01000000 ≤ ([] : List Word).length ∧
    hdrLen 0x30000000 ≤ ([] : List Word).length := by decide

theorem witness_QueuesOnlyGrow :
    let s : State := { modRun 3 with cmdIn := [0x13010000] }
    Inv s ∧ ∃ t, step s = .next t :=
  ⟨by decide, _, rfl⟩

theorem witness_CommandsTouchOneUnit : touches .mod (.dCls true false) = false ∧ touches .dem .mStart = false ∧
    (∃ t, exec (.dCls true false) (demFresh 4) = .next t) ∧ Instr.mStart ≠ .grst :=
  ⟨by decide, by decide, ⟨_, rfl⟩, by decide⟩

theorem witness_UnitSeesOnlyItsCommands :
    (∃ t, RunsTo [.mByte 1, .dCls false true, .mEnd] { modRun 4 with dem := (demFresh 4).dem } t) ∧
    (modRun 4).mod = { modRun 4 with dem := (demFresh 4).dem }.mod ∧
    (modRun 4).modOut = { modRun 4 with dem := (demFresh 4).dem }.modOut ∧
    (demFresh 4).dem = { modRun 4 with dem := (demFresh 4).dem }.dem ∧
    (demFresh 4).demOut = { modRun 4 with dem := (demFresh 4).dem }.demOut :=
  ⟨runsTo_total _ _, by decide, by decide, by decide, by decide⟩

/-- P = K = 3, the least the statement admits. -/
theorem witness_AlignedClassesDecodeExactly : DemFresh (demFresh 3).dem ∧ (demFresh 3).dem.ksym.toNat = 3 ∧
    3 ≤ 3 ∧ (0x01 : Byte).getLsbD 0 = true ∧ false ∈ [(0x01 : Byte), 0xFF].flatMap byteBits := by decide

theorem witness_EvenFirstByteFaults : DemFresh (demFresh 1).dem ∧ (demFresh 1).dem.ksym.toNat = 1 ∧
    (0xAA : Byte).getLsbD 0 = false := by decide

theorem witness_AllOnesStreamLosesLastByte : DemFresh (demFresh 4).dem ∧ (demFresh 4).dem.ksym.toNat = 4 := by
  decide

/-- P = 1 and P = 2. -/
theorem witness_TwoFramesPerSymbolFail : DemFresh (demFresh 2).dem ∧ (demFresh 2).dem.ksym.toNat = 2 ∧
    DemFresh (demFresh 1).dem ∧ (demFresh 1).dem.ksym.toNat = 1 ∧ [(0x55 : Byte)] ≠ [] ∧
    ∃ t, RunsTo (clsFrames 2 (streamBits [0x55]) ++ [.dEnd]) (demFresh 2) t :=
  ⟨by decide, by decide, by decide, by decide, by decide, runsTo_total _ _⟩

/-- A detector that is ideal for 1000 and 2000 Hz at 8000 Hz and spf 2: a frame of mark samples holds only
0 and ±1, and a frame of space samples never does. -/
def toyDetector : Detector := fun f _ _ _ x =>
  if f = 2000 then x.all fun v => v == 0 || v == 1 || v == -1
  else !(x.all fun v => v == 0 || v == 1 || v == -1)

theorem toyDetector_ideal : IdealDetector toyDetector (modRun 2).mod := by
  intro b k hk
  have h8 : k + 2 ≤ 8 := hk
  have hk6 : k ≤ 6 := by omega
  clear hk h8
  revert b
  interval_cases k <;> decide +kernel

/-- The loop-back of P6: both units at 8000 Hz, spf 2, P = K = 4, the byte 0x01. -/
theorem witness_LoopbackRoundTrip :
    let s : State := { modRun 2 with dem := (demFresh 4).dem }
    ModFresh s.mod ∧ DemFresh s.dem ∧ s.dem.srEff = s.mod.srEff ∧ s.dem.spfEff = s.mod.spfEff ∧
    s.dem.cfg.space = s.mod.cfg.space ∧ s.dem.cfg.mark = s.mod.cfg.mark ∧
    s.mod.nsym.toNat = 4 * s.mod.spfEff.toNat ∧ s.dem.ksym.toNat = 4 ∧ 3 ≤ 4 ∧
    IdealDetector toyDetector s.mod ∧ (0x01 : Byte).getLsbD 0 = true ∧
    false ∈ [(0x01 : Byte)].flatMap byteBits :=
  ⟨by decide, by decide, by decide, by decide, by decide, by decide, by decide, by decide, by decide,
    toyDetector_ideal, by decide, by decide⟩

end Sys2Proof.Tests
end

section
/-! SUPPORT. D.START on a valid configuration (00_scope.md R6; 40_control.md R106, R107, R111). -/

namespace Sys2Proof.Machine

/-- In IDLE a configuration that validates makes D.START construct DEM. -/
theorem exec_dStart_of_validate_ok {s : State} {sr spf : ℕ} (hs : s.dem.state = .idle)
    (e : validate .dem s.dem.cfg = .ok sr spf) :
    exec .dStart s = .next { s with dem := { s.dem with
      state := .preambleSpace, clock := 0, spaces := 0, marks := 0, acc := 0, bitpos := 0,
      srEff := BitVec.ofNat 32 sr, spfEff := BitVec.ofNat 32 spf,
      ksym := BitVec.ofNat 32 (ceilDiv sr (spf * s.dem.cfg.baud.toNat)) } } := by
  change Host.Outcome.next (demCommand _ _ _ s) = _
  rw [demCommand_config hs, startDem, e]

/-- Settles O19: validation answers the effective values, each fits its register, and K is the least
number of frames that lasts a symbol because `ceilDiv` is a least number. -/
theorem demStartConstructs : Obligations.DemStartConstructs := by
  intro s c sr spf hidle hbaud hspace hmark hspf1 hspf2
  have hok : validate .dem c = .ok sr spf :=
    validate_of_valid hbaud hspace hmark hspf1 hspf2 (by simp)
  have hsr : 0 < sr ∧ sr < 2 ^ 32 := effSr_bounds c
  have hb : 0 < c.baud.toNat :=
    Nat.pos_of_ne_zero fun h0 => hbaud (BitVec.eq_of_toNat_eq (by simpa using h0))
  have hframe : 0 < spf * c.baud.toNat := Nat.mul_pos hspf1 hb
  have hk : ceilDiv sr (spf * c.baud.toNat) < 2 ^ 32 := (ceilDiv_bounds hsr.1 hframe).2.trans_lt hsr.2
  refine ⟨_, exec_dStart_of_validate_ok hidle hok, Nat.mod_eq_of_lt hsr.2,
    Nat.mod_eq_of_lt (by omega), fun k => ?_, rfl⟩
  rw [← ceilDiv_le_iff hframe]
  exact iff_of_eq (congrArg (· ≤ k) (Nat.mod_eq_of_lt hk))

end Sys2Proof.Machine
end

section
/-! SUPPORT. TONE_PCM against the exact sine: on the π/4 grid, where the enclosure determines a value, and at the
angles left open (00_scope.md R7; 41_modulator.md R131, R133, R134). -/

namespace Sys2Proof.Machine

/-! ## PCM16 of a real -/

/-- PCM16 of a real that is not negative, from the two inequalities of the floor. -/
theorem isPcm16_of_nonneg {v : ℝ} {n : ℤ} (hv : 0 ≤ v) (hlo : n ≤ v * 32767) (hhi : v * 32767 < n + 1) :
    IsPcm16 v n :=
  ⟨fun h => absurd h hv.not_gt, fun _ => (Int.floor_eq_iff.2 ⟨hlo, hhi⟩).symm⟩

/-- PCM16 of a negative real, from the two inequalities of the ceiling. -/
theorem isPcm16_of_neg {v : ℝ} {n : ℤ} (hv : v < 0) (hlo : n - 1 < v * 32768) (hhi : v * 32768 ≤ n) :
    IsPcm16 v n :=
  ⟨fun _ => (Int.ceil_eq_iff.2 ⟨hlo, hhi⟩).symm, fun h => absurd hv h.not_gt⟩

/-- PCM16 of a real between −1 and 1 is a 16-bit signed integer. -/
theorem IsPcm16.bounds {v : ℝ} {n : ℤ} (h : IsPcm16 v n) (hv : |v| ≤ 1) : -32768 ≤ n ∧ n ≤ 32767 := by
  obtain ⟨hneg, hpos⟩ := h
  obtain ⟨h1, h2⟩ := abs_le.1 hv
  rcases lt_or_ge v 0 with hs | hs
  · rw [hneg hs]
    have hlo : -32768 ≤ ⌈v * 32768⌉ := Int.le_ceil_iff.2 (by push_cast; linarith)
    have hhi : ⌈v * 32768⌉ ≤ 0 := Int.ceil_le.2 (by push_cast; linarith)
    omega
  · rw [hpos hs]
    have hlo : 0 ≤ ⌊v * 32767⌋ := Int.le_floor.2 (by push_cast; linarith)
    have hhi : ⌊v * 32767⌋ < 32768 := Int.floor_lt.2 (by push_cast; linarith)
    omega

/-- A sample holds PCM16 of a real between −1 and 1 exactly. -/
theorem IsPcm16.toInt_ofInt {v : ℝ} {n : ℤ} (h : IsPcm16 v n) (hv : |v| ≤ 1) :
    (BitVec.ofInt 16 n).toInt = n := by
  obtain ⟨hlo, hhi⟩ := h.bounds hv
  exact BitVec.toInt_ofInt_eq_self (by norm_num) (by omega) (by omega)

/-! ## The three branches of TONE_PCM -/

theorem tonePcm_of_grid {f sr j : ℕ} (h : 8 * f * j % sr = 0) :
    tonePcm f sr j = gridTone (8 * f * j / sr % 8) := by
  simp [tonePcm, h]

theorem tonePcm_of_determined {f sr j : ℕ} {n : ℤ} (h : 8 * f * j % sr ≠ 0) (hn : sineTone f sr j = some n) :
    tonePcm f sr j = BitVec.ofInt 16 n := by
  simp [tonePcm, h, hn]

theorem tonePcm_of_open {f sr j : ℕ} (h : 8 * f * j % sr ≠ 0) (hn : sineTone f sr j = none) :
    tonePcm f sr j = Config.toneOffGrid f sr j := by
  simp [tonePcm, h, hn]

/-! ## Where the enclosure determines the value -/

/-- Everything `sineTone` says when it answers: the bounds are positive, and `n` is, up to the sign of the
sine, the integer both scaled bounds truncate to. -/
theorem sineTone_eq_some {f sr j : ℕ} {n : ℤ} (e : sineTone f sr j = some n) :
    let g := (foldPhase f sr j).2
    0 < (sineBounds g sr).1 ∧
      (((foldPhase f sr j).1 = true ∧
          ⌊(sineBounds g sr).1 * 32768⌋ = -n ∧ ⌊(sineBounds g sr).2 * 32768⌋ = -n) ∨
       ((foldPhase f sr j).1 = false ∧
          ⌊(sineBounds g sr).1 * 32767⌋ = n ∧ ⌊(sineBounds g sr).2 * 32767⌋ = n)) := by
  intro g
  simp only [sineTone, Option.ite_none_right_eq_some, Option.some.injEq] at e
  obtain ⟨⟨hpos, hfloor⟩, hn⟩ := e
  refine ⟨hpos, ?_⟩
  cases hsign : (foldPhase f sr j).1
  · simp only [hsign, Bool.false_eq_true, if_false] at hfloor hn
    exact .inr ⟨rfl, hn, hfloor.symm.trans hn⟩
  · simp only [hsign, if_true] at hfloor hn
    exact .inl ⟨rfl, by rw [← hn, neg_neg]; rfl, by rw [← hn, neg_neg]; exact hfloor.symm⟩

/-- Two rationals that floor to one integer after scaling pin the floor of every real between them. -/
theorem scaled_between_of_floor_eq {lo hi scale : ℚ} {w : ℝ} {m : ℤ} (hscale : 0 ≤ scale)
    (hlo : (lo : ℝ) ≤ w) (hhi : w ≤ hi) (elo : ⌊lo * scale⌋ = m) (ehi : ⌊hi * scale⌋ = m) :
    (m : ℝ) ≤ w * scale ∧ w * scale < m + 1 := by
  have hs : (0 : ℝ) ≤ scale := by exact_mod_cast hscale
  have h1 : (m : ℝ) ≤ lo * scale := by exact_mod_cast (Int.floor_eq_iff.1 elo).1
  have h2 : (hi : ℝ) * scale < m + 1 := by exact_mod_cast (Int.floor_eq_iff.1 ehi).2
  exact ⟨h1.trans (mul_le_mul_of_nonneg_right hlo hs), (mul_le_mul_of_nonneg_right hhi hs).trans_lt h2⟩

/-- A value the enclosure determines is PCM16 of the exact sine. -/
theorem sineTone_isPcm16 {f sr j : ℕ} {n : ℤ} (hsr : 0 < sr) (e : sineTone f sr j = some n) :
    IsPcm16 (Real.sin (2 * Real.pi * f * j / sr)) n := by
  obtain ⟨hpos, hcases⟩ := sineTone_eq_some e
  obtain ⟨hlo, hhi⟩ := sineBounds_spec (foldPhase f sr j).2 sr hsr
  have hw : 0 < Real.sin (Real.pi * ((foldPhase f sr j).2 : ℕ) / sr) :=
    (Rat.cast_pos.2 hpos).trans_le hlo
  rw [(foldPhase_spec f sr j hsr).2]
  rcases hcases with ⟨hsign, elo, ehi⟩ | ⟨hsign, elo, ehi⟩
  · obtain ⟨h1, h2⟩ := scaled_between_of_floor_eq (by norm_num) hlo hhi elo ehi
    push_cast at h1 h2
    simp only [hsign, if_true]
    exact isPcm16_of_neg (by linarith) (by linarith) (by linarith)
  · obtain ⟨h1, h2⟩ := scaled_between_of_floor_eq (by norm_num) hlo hhi elo ehi
    push_cast at h1 h2
    simp only [hsign, Bool.false_eq_true, if_false, one_mul]
    exact isPcm16_of_nonneg hw.le h1 h2

/-! ## On the grid -/

/-- √2/2 scaled, close enough to place it between the integers the table of R134 gives. -/
theorem sqrt_two_div_two_bounds : (0.70710678 : ℝ) < √2 / 2 ∧ √2 / 2 < 0.70710679 := by
  constructor
  · have : (1.41421356 : ℝ) < √2 := Real.lt_sqrt_of_sq_lt (by norm_num)
    linarith
  · have : √2 < (1.41421358 : ℝ) := (Real.sqrt_lt' (by norm_num)).2 (by norm_num)
    linarith

/-- Half a turn on, the sine changes its sign. -/
theorem sin_eighth_turn_add_four (r : ℕ) :
    Real.sin ((r + 4 : ℕ) * (Real.pi / 4)) = -Real.sin (r * (Real.pi / 4)) := by
  rw [← Real.sin_add_pi]
  congr 1
  push_cast
  ring

/-- The sines of the first four multiples of π/4. -/
theorem sin_eighth_turns :
    Real.sin ((0 : ℕ) * (Real.pi / 4)) = 0 ∧ Real.sin ((1 : ℕ) * (Real.pi / 4)) = √2 / 2 ∧
    Real.sin ((2 : ℕ) * (Real.pi / 4)) = 1 ∧ Real.sin ((3 : ℕ) * (Real.pi / 4)) = √2 / 2 := by
  refine ⟨by simp, by simp [Real.sin_pi_div_four], ?_, ?_⟩
  · rw [← Real.sin_pi_div_two]
    congr 1
    push_cast
    ring
  · rw [← Real.sin_pi_div_four, ← Real.sin_pi_sub (Real.pi / 4)]
    congr 1
    push_cast
    ring

/-- Each entry of the table of R134 is PCM16 of the sine of its multiple of π/4. -/
theorem gridTone_isPcm16 {r : ℕ} (hr : r < 8) :
    IsPcm16 (Real.sin (r * (Real.pi / 4))) (gridTone r).toInt := by
  obtain ⟨h0, h1, h2, h3⟩ := sin_eighth_turns
  have h4 := sin_eighth_turn_add_four 0
  have h5 := sin_eighth_turn_add_four 1
  have h6 := sin_eighth_turn_add_four 2
  have h7 := sin_eighth_turn_add_four 3
  obtain ⟨hlo, hhi⟩ := sqrt_two_div_two_bounds
  have hdiag : IsPcm16 (√2 / 2) 23169 :=
    isPcm16_of_nonneg (by linarith) (by push_cast; linarith) (by push_cast; linarith)
  have hdiag' : IsPcm16 (-(√2 / 2)) (-23170) :=
    isPcm16_of_neg (by linarith) (by push_cast; linarith) (by push_cast; linarith)
  have hzero : IsPcm16 0 0 := isPcm16_of_nonneg le_rfl (by simp) (by simp)
  have hone : IsPcm16 1 32767 := isPcm16_of_nonneg (by simp) (by norm_num) (by norm_num)
  have hone' : IsPcm16 (-1) (-32768) := isPcm16_of_neg (by simp) (by norm_num) (by norm_num)
  interval_cases r
  · rw [h0]; exact hzero
  · rw [h1]; exact hdiag
  · rw [h2]; exact hone
  · rw [h3]; exact hdiag
  · rw [h4, h0, neg_zero]; exact hzero
  · rw [h5, h1]; exact hdiag'
  · rw [h6, h2]; exact hone'
  · rw [h7, h3]; exact hdiag'

/-- On the grid the angle is, up to full turns, the table's multiple of π/4. -/
theorem sin_phase_of_grid {f sr j : ℕ} (hsr : 0 < sr) (h : 8 * f * j % sr = 0) :
    Real.sin (2 * Real.pi * f * j / sr) = Real.sin ((8 * f * j / sr % 8 : ℕ) * (Real.pi / 4)) := by
  set k := 8 * f * j / sr with hk
  have hsr' : (sr : ℝ) ≠ 0 := by positivity
  have hfj : (8 * f * j : ℝ) = k * sr := by
    exact_mod_cast (Nat.div_mul_cancel (Nat.dvd_of_mod_eq_zero h)).symm
  have hmod : (k : ℝ) = (k % 8 : ℕ) + 8 * (k / 8 : ℕ) := by exact_mod_cast (Nat.mod_add_div k 8).symm
  have hangle : 2 * Real.pi * f * j / sr = (k % 8 : ℕ) * (Real.pi / 4) + (k / 8 : ℕ) * (2 * Real.pi) :=
    calc 2 * Real.pi * f * j / sr
        = 8 * f * j / sr * (Real.pi / 4) := by ring
      _ = k * (Real.pi / 4) := by rw [hfj, mul_div_cancel_right₀ _ hsr']
      _ = (k % 8 : ℕ) * (Real.pi / 4) + (k / 8 : ℕ) * (2 * Real.pi) := by rw [hmod]; ring
  rw [hangle, Real.sin_add_nat_mul_two_pi]

/-- On the grid TONE_PCM is PCM16 of the exact sine (R134). -/
theorem tonePcm_isPcm16_of_grid {f sr j : ℕ} (hsr : 0 < sr) (h : 8 * f * j % sr = 0) :
    IsPcm16 (Real.sin (2 * Real.pi * f * j / sr)) (tonePcm f sr j).toInt := by
  rw [tonePcm_of_grid h, sin_phase_of_grid hsr h]
  exact gridTone_isPcm16 (Nat.mod_lt _ (by norm_num))

/-! ## The statement -/

/-- Off the grid a determined value is TONE_PCM itself: it fits a sample. -/
theorem tonePcm_toInt_of_determined {f sr j : ℕ} {n : ℤ} (hsr : 0 < sr) (h : 8 * f * j % sr ≠ 0)
    (hn : sineTone f sr j = some n) : (tonePcm f sr j).toInt = n := by
  rw [tonePcm_of_determined h hn]
  exact (sineTone_isPcm16 hsr hn).toInt_ofInt (Real.abs_sin_le_one _)

/-- Settles O25, branch by branch of TONE_PCM: the table, a determined value, the free function. -/
theorem tonesFollowTheFormula : Obligations.TonesFollowTheFormula := by
  refine ⟨fun f sr j n hsr hgrid hn =>
    ⟨tonePcm_toInt_of_determined hsr hgrid hn, sineTone_isPcm16 hsr hn⟩, fun hopen f sr j hsr => ?_⟩
  by_cases hgrid : 8 * f * j % sr = 0
  · exact tonePcm_isPcm16_of_grid hsr hgrid
  · cases hn : sineTone f sr j with
    | none =>
      rw [tonePcm_of_open hgrid hn]
      exact hopen f sr j hsr hgrid hn
    | some n =>
      rw [tonePcm_toInt_of_determined hsr hgrid hn]
      exact sineTone_isPcm16 hsr hn

end Sys2Proof.Machine
end

section
/-! SUPPORT. What the step takes from the command channel: the header of a decoded command is the one the encoder
gives for it (30_encoding.md R80 to R89; assumption log entry 10). -/

namespace Sys2Proof

/-- A header from its fields, each read as a number. -/
theorem header_of_fields {h : Word} {u o l : Nat} {a : Byte} (hu : (hdrUnit h).toNat = u)
    (ho : (hdrOp h).toNat = o) (ha : hdrArg h = a) (hl : hdrLen h = l) :
    h = mkHeader (BitVec.ofNat 4 u) (BitVec.ofNat 4 o) a (BitVec.ofNat 16 l) := by
  subst hu ho ha hl
  simpa only [hdrLen, BitVec.ofNat_toNat, BitVec.setWidth_eq] using header_eq_mkHeader h

/-- A bare command's decoder accepts only the header with ARG = 0 and LEN = 0. -/
theorem header_of_decodeBare {u o : Nat} {i j : Instr} {h : Word} (hu : (hdrUnit h).toNat = u)
    (ho : (hdrOp h).toNat = o) (e : decodeBare j h = .instr i) :
    i = j ∧ h = mkHeader (BitVec.ofNat 4 u) (BitVec.ofNat 4 o) 0 0 := by
  obtain ⟨rfl, ha, hl⟩ := decodeBare_eq_instr e
  exact ⟨rfl, header_of_fields hu ho ha hl⟩

/-- A CFGW decoder accepts only headers with a field index in ARG and LEN = 1. -/
theorem header_of_decodeCfgw {u o : Nat} {mk : CfgField → Word → Instr} {i : Instr} {h : Word}
    {payload : List Word} (hu : (hdrUnit h).toNat = u) (ho : (hdrOp h).toNat = o)
    (hlen : payload.length = hdrLen h) (e : decodeCfgw mk h payload = .instr i) :
    ∃ f v, i = mk f v ∧ h = mkHeader (BitVec.ofNat 4 u) (BitVec.ofNat 4 o) (cfgIndex f) 1 := by
  obtain ⟨f, v, rfl, rfl, ha⟩ := decodeCfgw_eq_instr e
  exact ⟨f, v, rfl, header_of_fields hu ho ha hlen.symm⟩

theorem encodeHeader_of_decodeGlobal {h : Word} {payload : List Word} {i : Instr}
    (hu : (hdrUnit h).toNat = 0) (hlen : payload.length = hdrLen h)
    (e : decodeGlobal h payload = .instr i) : encodeHeader i = h := by
  unfold decodeGlobal at e
  split at e
  · next ho =>
    cases e
    exact (header_of_fields hu ho rfl hlen.symm).symm
  · next ho =>
    obtain ⟨rfl, rfl⟩ := header_of_decodeBare hu ho e
    rfl
  · cases e

theorem encodeHeader_of_decodeMod {h : Word} {payload : List Word} {i : Instr}
    (hu : (hdrUnit h).toNat = 1) (hlen : payload.length = hdrLen h)
    (e : decodeMod h payload = .instr i) : encodeHeader i = h := by
  unfold decodeMod at e
  split at e
  · next ho =>
    obtain ⟨f, v, rfl, rfl⟩ := header_of_decodeCfgw hu ho hlen e
    rfl
  · next ho =>
    obtain ⟨rfl, rfl⟩ := header_of_decodeBare hu ho e
    rfl
  · next ho =>
    unfold decodeByte at e
    split at e
    · cases e
    · next hl =>
      cases e
      exact (header_of_fields hu ho rfl (not_not.1 hl)).symm
  · next ho =>
    obtain ⟨rfl, rfl⟩ := header_of_decodeBare hu ho e
    rfl
  · next ho =>
    obtain ⟨rfl, rfl⟩ := header_of_decodeBare hu ho e
    rfl
  · cases e

theorem encodeHeader_of_decodeDem {h : Word} {payload : List Word} {i : Instr}
    (hu : (hdrUnit h).toNat = 2) (hlen : payload.length = hdrLen h)
    (e : decodeDem h payload = .instr i) : encodeHeader i = h := by
  unfold decodeDem at e
  split at e
  · next ho =>
    obtain ⟨f, v, rfl, rfl⟩ := header_of_decodeCfgw hu ho hlen e
    rfl
  · next ho =>
    obtain ⟨rfl, rfl⟩ := header_of_decodeBare hu ho e
    rfl
  · next ho =>
    unfold decodeFrame at e
    split at e
    · cases e
    · next ha =>
      cases e
      exact (header_of_fields hu ho (not_not.1 ha) hlen.symm).symm
  · next ho =>
    obtain ⟨rfl, rfl⟩ := header_of_decodeBare hu ho e
    rfl
  · next ho =>
    unfold decodeCls at e
    split at e
    · cases e
    · next ha =>
      split at e
      · cases e
      · next hl =>
        cases e
        exact (header_of_fields hu ho (clsArg_of_bits _ (not_not.1 ha)).symm (not_not.1 hl)).symm
  · next ho =>
    obtain ⟨rfl, rfl⟩ := header_of_decodeBare hu ho e
    rfl
  · cases e

/-- Decoding keeps every bit of a header: the encoder gives it back. -/
theorem encodeHeader_of_decodeCommand {h : Word} {payload : List Word} {i : Instr}
    (hlen : payload.length = hdrLen h) (e : decodeCommand h payload = .instr i) : encodeHeader i = h := by
  unfold decodeCommand at e
  split at e
  · next hu => exact encodeHeader_of_decodeGlobal hu hlen e
  · next hu => exact encodeHeader_of_decodeMod hu hlen e
  · next hu => exact encodeHeader_of_decodeDem hu hlen e
  · cases e

namespace Machine

/-- Everything a step can do: wait, run the command whose header is at the head of the channel, or take the
illegal header there (R63, R80, R89). -/
theorem step_cases {s t : State} (e : step s = .next t) :
    t = s ∨ ∃ (h : Word) (ws rest : List Word), s.cmdIn = h :: ws ∧
      ((∃ i, encodeHeader i = h ∧ exec i { s with cmdIn := rest } = .next t) ∨
        t = illegalCommand h { s with cmdIn := rest }) := by
  unfold step State.fetch at e
  cases htake : takeCommand s.cmdIn with
  | none =>
    simp only [htake, Host.Outcome.next.injEq] at e
    exact .inl e.symm
  | some command =>
    obtain ⟨h, payload, rest⟩ := command
    obtain ⟨hcmd, hlen⟩ := takeCommand_eq_some htake
    refine .inr ⟨h, payload ++ rest, rest, hcmd, ?_⟩
    cases hdec : decodeCommand h payload with
    | instr i =>
      simp only [htake, hdec] at e
      exact .inl ⟨i, encodeHeader_of_decodeCommand hlen hdec, e⟩
    | reject why =>
      simp only [htake, hdec, Host.Outcome.next.injEq] at e
      exact .inr e.symm

end Machine

end Sys2Proof
end

section
/-! SUPPORT. What a step can do to MOD (40_control.md R104 to R112; 41_modulator.md R138, R143): the changes are the
constructors of `ModMove`; `exec_cases` and `step_moves` below tie them to the machine. -/

namespace Sys2Proof.Machine

/-- The only state that accepts configuration commands is IDLE (R100). -/
theorem ModState.acceptsConfig_iff (x : ModState) : x.acceptsConfig = true ↔ x = .idle := by
  cases x <;> simp [ModState.acceptsConfig]

/-- The only state that accepts stream commands is RUN (R100). -/
theorem ModState.acceptsStream_iff (x : ModState) : x.acceptsStream = true ↔ x = .run := by
  cases x <;> simp [ModState.acceptsStream]

/-- M.BUF as M.BYTE hands it to the framer: the old samples, the preamble at the first byte, the byte's symbols
(R138). -/
def ModUnit.bufWith (m : ModUnit) (b : Byte) : List Sample :=
  m.buf ++ (if m.first then preambleSamples m else []) ++ byteSamples m b

/-- What the command with header `h` can do to MOD: the registers after it, and the items it emits. -/
inductive ModMove (h : Word) (m : ModUnit) : ModUnit → List ModItem → Prop
  /-- The unit is not addressed, or is in ERROR and ignores the command (R206). -/
  | keep : ModMove h m m []
  /-- M.RST or GRST (R112, R102). -/
  | reset (hh : h = encodeHeader .mRst ∨ h = encodeHeader .grst) : ModMove h m ModUnit.reset []
  /-- A unit fault: three writes (R203). -/
  | fault {c : Cause} (hs : m.state ≠ .error) (hc : c ≠ .none) :
      ModMove h m { m with state := .error, cause := c, fcmd := h } []
  /-- M.CFGW (R104). -/
  | configure (f : CfgField) (v : Word) (hs : m.state = .idle) :
      ModMove h m { m with cfg := m.cfg.write f v } []
  /-- M.START on a valid configuration (R110). -/
  | start {sr spf : Nat} (hs : m.state = .idle) (hv : validate .mod m.cfg = .ok sr spf)
      (hh : h = encodeHeader .mStart) :
      ModMove h m { m with
        srEff := BitVec.ofNat 32 sr, spfEff := BitVec.ofNat 32 spf,
        nsym := BitVec.ofNat 32 (sr / m.cfg.baud.toNat), first := true, buf := [], state := .run } []
  /-- M.BYTE (R138). -/
  | push (b : Byte) (hs : m.state = .run) :
      ModMove h m { m with first := false, buf := (slice m.spfEff.toNat (m.bufWith b)).2 }
        (slice m.spfEff.toNat (m.bufWith b)).1
  /-- M.END (R143, R145). -/
  | finish (hs : m.state = .run) (hh : h = encodeHeader .mEnd) :
      ModMove h m { m with buf := [], state := .done } (if m.buf.isEmpty then [] else [.tail m.buf])

/-- The state `t` is `s` after one move of MOD, and nothing but MOD and `MOD_OUT` changed (R72). -/
def ModEffect (h : Word) (s t : State) : Prop :=
  ∃ m items, ModMove h s.mod m items ∧ t = { s with mod := m, modOut := s.modOut ++ items }

/-- A move that emits nothing leaves `MOD_OUT` as it was. -/
theorem ModMove.effect {h : Word} {s : State} {m : ModUnit} (hm : ModMove h s.mod m []) :
    ModEffect h s { s with mod := m } :=
  ⟨m, [], hm, by rw [List.append_nil]⟩

theorem modEffect_refl (h : Word) (s : State) : ModEffect h s s := ModMove.keep.effect

theorem modEffect_raiseFault {h : Word} {c : Cause} {s : State} (hs : s.mod.state ≠ .error)
    (hc : c ≠ .none) : ModEffect h s (s.raiseFault .mod c h) :=
  (ModMove.fault hs hc).effect

/-- A command of MOD makes one move where its rule makes one. -/
theorem modEffect_modCommand {h : Word} {ok : ModState → Bool} {act : State → State} {s : State}
    (hact : ok s.mod.state = true → ModEffect h s (act s)) : ModEffect h s (modCommand h ok act s) := by
  rcases modCommand_cases h ok act s with ⟨-, e⟩ | ⟨-, hk, e⟩ | ⟨hs, -, e⟩ <;> rw [e]
  · exact modEffect_refl h s
  · exact hact hk
  · exact modEffect_raiseFault hs (by simp)

theorem modEffect_startMod {s : State} (hs : s.mod.state = .idle) :
    ModEffect (encodeHeader .mStart) s (startMod (encodeHeader .mStart) s) := by
  unfold startMod
  split
  · next c hv => exact modEffect_raiseFault (by simp [hs]) (validate_cause_ne_none hv).1
  · next sr spf hv => exact (ModMove.start hs hv rfl).effect

theorem modEffect_pushByte {h : Word} {s : State} (b : Byte) (hs : s.mod.state = .run) :
    ModEffect h s (pushByte b s) :=
  ⟨_, _, .push b hs, rfl⟩

theorem modEffect_endMod {s : State} (hs : s.mod.state = .run) :
    ModEffect (encodeHeader .mEnd) s (endMod s) :=
  ⟨_, _, .finish hs rfl, rfl⟩

end Sys2Proof.Machine
end

section
/-! SUPPORT. What a step can do to DEM (40_control.md R105 to R113; 42_demodulator.md R165 to R174): the changes are
the constructors of `DemMove`; `exec_cases` and `step_moves` below tie them to the machine. -/

namespace Sys2Proof.Machine

/-- The only state that accepts configuration commands is IDLE (R100). -/
theorem DemState.acceptsConfig_iff (x : DemState) : x.acceptsConfig = true ↔ x = .idle := by
  cases x <;> simp [DemState.acceptsConfig]

/-- The states that accept stream commands are the protocol states (R100). -/
theorem DemState.acceptsStream_iff (x : DemState) :
    x.acceptsStream = true ↔ x = .preambleSpace ∨ x = .preambleMark ∨ x = .decode := by
  cases x <;> simp [DemState.acceptsStream]

/-- A state that accepts stream commands lies between D.START and a fault. -/
theorem DemState.active_of_acceptsStream {x : DemState} (hx : x.acceptsStream = true) :
    x ≠ .idle ∧ x ≠ .error := by
  rcases x.acceptsStream_iff.1 hx with rfl | rfl | rfl <;> simp

/-- DEM after a frame of class `c` has voted in DECODE and the clock has advanced (R167, R168). -/
def DemUnit.counted (d : DemUnit) (c : ToneClass) : DemUnit :=
  { d.vote c with clock := BitVec.ofNat 32 (d.clock.toNat + 1) }

section
variable (d : DemUnit) (c : ToneClass)

@[simp] theorem DemUnit.counted_state : (d.counted c).state = d.state := by cases c <;> rfl
@[simp] theorem DemUnit.counted_cause : (d.counted c).cause = d.cause := by cases c <;> rfl
@[simp] theorem DemUnit.counted_fcmd : (d.counted c).fcmd = d.fcmd := by cases c <;> rfl
@[simp] theorem DemUnit.counted_cfg : (d.counted c).cfg = d.cfg := by cases c <;> rfl
@[simp] theorem DemUnit.counted_srEff : (d.counted c).srEff = d.srEff := by cases c <;> rfl
@[simp] theorem DemUnit.counted_spfEff : (d.counted c).spfEff = d.spfEff := by cases c <;> rfl
@[simp] theorem DemUnit.counted_ksym : (d.counted c).ksym = d.ksym := by cases c <;> rfl
@[simp] theorem DemUnit.counted_clock :
    (d.counted c).clock = BitVec.ofNat 32 (d.clock.toNat + 1) := rfl
@[simp] theorem DemUnit.counted_acc : (d.counted c).acc = d.acc := by cases c <;> rfl
@[simp] theorem DemUnit.counted_bitpos : (d.counted c).bitpos = d.bitpos := by cases c <;> rfl

/-- A frame adds at most one vote. -/
theorem DemUnit.counted_votes_le :
    (d.counted c).spaces.toNat + (d.counted c).marks.toNat ≤ d.spaces.toNat + d.marks.toNat + 1 := by
  cases c with
  | space =>
    have hadd : (d.counted .space).spaces.toNat ≤ d.spaces.toNat + 1 := Nat.mod_le _ _
    have hkeep : (d.counted .space).marks.toNat = d.marks.toNat := rfl
    omega
  | mark =>
    have hadd : (d.counted .mark).marks.toNat ≤ d.marks.toNat + 1 := Nat.mod_le _ _
    have hkeep : (d.counted .mark).spaces.toNat = d.spaces.toNat := rfl
    omega
  | ambig => exact Nat.le_succ _

end

/-- What the command with header `h` can do to DEM: the registers after it, and the bytes it emits. -/
inductive DemMove (h : Word) (d : DemUnit) : DemUnit → List Byte → Prop
  /-- The unit is not addressed, is in ERROR and ignores the command (R206), or waits for MARK (R165). -/
  | keep : DemMove h d d []
  /-- D.RST or GRST (R113, R102). -/
  | reset (hh : h = encodeHeader .dRst ∨ h = encodeHeader .grst) : DemMove h d DemUnit.reset []
  /-- A unit fault: three writes (R203). -/
  | fault {c : Cause} (hs : d.state ≠ .error) (hc : c ≠ .none) :
      DemMove h d { d with state := .error, cause := c, fcmd := h } []
  /-- D.CFGW (R105). -/
  | configure (f : CfgField) (v : Word) (hs : d.state = .idle) :
      DemMove h d { d with cfg := d.cfg.write f v } []
  /-- D.START on a valid configuration (R111). -/
  | start {sr spf : Nat} (hs : d.state = .idle) (hv : validate .dem d.cfg = .ok sr spf)
      (hh : h = encodeHeader .dStart) :
      DemMove h d { d with
        srEff := BitVec.ofNat 32 sr, spfEff := BitVec.ofNat 32 spf,
        ksym := BitVec.ofNat 32 (ceilDiv sr (spf * d.cfg.baud.toNat)), clock := 0, spaces := 0, marks := 0,
        acc := 0, bitpos := 0, state := .preambleSpace } []
  /-- The first MARK frame (R165). -/
  | lock (hs : d.state = .preambleSpace) :
      DemMove h d { d with clock := 0, state := .preambleMark } []
  /-- A MARK frame before the end of the preamble's mark symbol (R166). -/
  | countMark (hs : d.state = .preambleMark) (hk : d.clock.toNat + 1 < d.ksym.toNat) :
      DemMove h d { d with clock := BitVec.ofNat 32 (d.clock.toNat + 1) } []
  /-- The last MARK frame of the preamble's mark symbol (R166). -/
  | enterDecode (hs : d.state = .preambleMark) (hk : d.ksym.toNat ≤ d.clock.toNat + 1) :
      DemMove h d { d with clock := 0, state := .decode } []
  /-- A frame in DECODE below the boundary (R167, R168). -/
  | vote (c : ToneClass) (hs : d.state = .decode) (hk : d.clock.toNat + 1 < d.ksym.toNat) :
      DemMove h d (d.counted c) []
  /-- A decision that completes no byte (R169 to R171). -/
  | fold (c : ToneClass) (hs : d.state = .decode) (hk : d.ksym.toNat ≤ d.clock.toNat + 1)
      (hb : d.bitpos.toNat < 7) :
      DemMove h d { d.counted c with
        spaces := 0, marks := 0, acc := foldBit d.acc (d.counted c).decidedBit,
        bitpos := BitVec.ofNat 4 (d.bitpos.toNat + 1), clock := (d.counted c).decisionErr } []
  /-- A decision that completes a byte (R169 to R171). -/
  | emit (c : ToneClass) (hs : d.state = .decode) (hk : d.ksym.toNat ≤ d.clock.toNat + 1)
      (hb : d.bitpos.toNat = 7) :
      DemMove h d { d.counted c with
        spaces := 0, marks := 0, acc := 0, bitpos := 0, clock := (d.counted c).decisionErr }
        [foldBit d.acc (d.counted c).decidedBit]
  /-- The E_BITPOS_OVF branch, which no run reaches (R170, R183). -/
  | overflow (c : ToneClass) (hs : d.state = .decode) (hk : d.ksym.toNat ≤ d.clock.toNat + 1)
      (hb : 7 < d.bitpos.toNat) :
      DemMove h d { d.counted c with
        spaces := 0, marks := 0, acc := foldBit d.acc (d.counted c).decidedBit,
        bitpos := BitVec.ofNat 4 (d.bitpos.toNat + 1), state := .error, cause := .bitposOvf, fcmd := h } []
  /-- D.END (R174). -/
  | finish (hs : d.state.acceptsStream = true) (hb : d.bitpos.toNat ≠ 8) (hh : h = encodeHeader .dEnd) :
      DemMove h d { d with state := .done } []
  /-- The branch of D.END at BITPOS = 8, which no run reaches (R174, R183). -/
  | finishByte (hs : d.state.acceptsStream = true) (hb : d.bitpos.toNat = 8) (hh : h = encodeHeader .dEnd) :
      DemMove h d { d with acc := 0, bitpos := 0, state := .done } [d.acc]

/-- The state `t` is `s` after one move of DEM, and nothing but DEM and `DEM_OUT` changed (R72). -/
def DemEffect (h : Word) (s t : State) : Prop :=
  ∃ d bytes, DemMove h s.dem d bytes ∧ t = { s with dem := d, demOut := s.demOut ++ bytes }

/-- A move that emits nothing leaves `DEM_OUT` as it was. -/
theorem DemMove.effect {h : Word} {s : State} {d : DemUnit} (hd : DemMove h s.dem d []) :
    DemEffect h s { s with dem := d } :=
  ⟨d, [], hd, by rw [List.append_nil]⟩

theorem demEffect_refl (h : Word) (s : State) : DemEffect h s s := DemMove.keep.effect

theorem demEffect_raiseFault {h : Word} {c : Cause} {s : State} (hs : s.dem.state ≠ .error)
    (hc : c ≠ .none) : DemEffect h s (s.raiseFault .dem c h) :=
  (DemMove.fault hs hc).effect

/-- A command of DEM makes one move where its rule makes one. -/
theorem demEffect_demCommand {h : Word} {ok : DemState → Bool} {act : State → State} {s : State}
    (hact : ok s.dem.state = true → DemEffect h s (act s)) : DemEffect h s (demCommand h ok act s) := by
  rcases demCommand_cases h ok act s with ⟨-, e⟩ | ⟨-, hk, e⟩ | ⟨hs, -, e⟩ <;> rw [e]
  · exact demEffect_refl h s
  · exact hact hk
  · exact demEffect_raiseFault hs (by simp)

theorem demEffect_startDem {s : State} (hs : s.dem.state = .idle) :
    DemEffect (encodeHeader .dStart) s (startDem (encodeHeader .dStart) s) := by
  unfold startDem
  split
  · next c hv => exact demEffect_raiseFault (by simp [hs]) (validate_cause_ne_none hv).1
  · next sr spf hv => exact (DemMove.start hs hv rfl).effect

theorem demEffect_stepPreambleSpace {h : Word} {s : State} (c : ToneClass)
    (hs : s.dem.state = .preambleSpace) : DemEffect h s (stepPreambleSpace c s) := by
  cases c with
  | mark => exact (DemMove.lock hs).effect
  | space => exact demEffect_refl h s
  | ambig => exact demEffect_refl h s

theorem demEffect_stepPreambleMark {h : Word} {s : State} (c : ToneClass)
    (hs : s.dem.state = .preambleMark) : DemEffect h s (stepPreambleMark h c s) := by
  cases c with
  | space => exact demEffect_raiseFault (by simp [hs]) (by simp)
  | ambig => exact demEffect_raiseFault (by simp [hs]) (by simp)
  | mark =>
    unfold stepPreambleMark
    dsimp only
    split
    · next hk => exact (DemMove.enterDecode hs hk).effect
    · next hk => exact (DemMove.countMark hs (Nat.lt_of_not_le hk)).effect

/-- The E_BITPOS_OVF branch of a symbol decision (R170). -/
theorem decideSymbol_of_gt (h : Word) (s : State) (hb : 7 < s.dem.bitpos.toNat) :
    decideSymbol h s = { s with dem := { s.dem with
      spaces := 0, marks := 0, acc := foldBit s.dem.acc s.dem.decidedBit,
      bitpos := BitVec.ofNat 4 (s.dem.bitpos.toNat + 1), state := .error, cause := .bitposOvf, fcmd := h } } := by
  have h1 : s.dem.bitpos.toNat + 1 ≠ 8 := by omega
  have h2 : 8 < s.dem.bitpos.toNat + 1 := by omega
  simp only [decideSymbol, h1, h2, if_false, if_true]
  rfl

theorem demEffect_stepDecode {h : Word} {s : State} (c : ToneClass) (hs : s.dem.state = .decode) :
    DemEffect h s (stepDecode h c s) := by
  have hcounted : stepDecode h c s = if s.dem.ksym.toNat ≤ s.dem.clock.toNat + 1
      then decideSymbol h { s with dem := s.dem.counted c } else { s with dem := s.dem.counted c } := rfl
  rw [hcounted]
  split
  · next hk =>
    by_cases hb : s.dem.bitpos.toNat ≤ 7
    · rcases decideSymbol_of_le h { s with dem := s.dem.counted c } (by simpa using hb) with ⟨h7, e⟩ | ⟨h7, e⟩
      · simp only [DemUnit.counted_bitpos, DemUnit.counted_acc] at h7 e
        exact e ▸ ⟨_, _, .emit c hs hk h7, rfl⟩
      · simp only [DemUnit.counted_bitpos, DemUnit.counted_acc] at h7 e
        exact e ▸ (DemMove.fold c hs hk h7).effect
    · have h7 : 7 < s.dem.bitpos.toNat := Nat.lt_of_not_le hb
      rw [decideSymbol_of_gt h _ (by simpa using h7)]
      simp only [DemUnit.counted_bitpos, DemUnit.counted_acc]
      exact (DemMove.overflow c hs hk h7).effect
  · next hk => exact (DemMove.vote c hs (Nat.lt_of_not_le hk)).effect

theorem demEffect_demodStep (h : Word) (c : ToneClass) (s : State) : DemEffect h s (demodStep h c s) := by
  unfold demodStep
  split
  · next hs => exact demEffect_stepPreambleSpace c hs
  · next hs => exact demEffect_stepPreambleMark c hs
  · next hs => exact demEffect_stepDecode c hs
  all_goals exact demEffect_refl h s

theorem demEffect_deliverFrame {detect : Detector} {h : Word} {payload : List Word} {s : State}
    (hs : s.dem.state.acceptsStream = true) : DemEffect h s (deliverFrame detect h payload s) := by
  unfold deliverFrame
  split
  · exact demEffect_raiseFault (DemState.active_of_acceptsStream hs).2 (by simp)
  · exact demEffect_demodStep h _ s

theorem demEffect_endDem {s : State} (hs : s.dem.state.acceptsStream = true) :
    DemEffect (encodeHeader .dEnd) s (endDem s) := by
  unfold endDem
  split
  · next hb => exact ⟨_, _, .finishByte hs hb rfl, rfl⟩
  · next hb => exact (DemMove.finish hs hb rfl).effect

end Sys2Proof.Machine
end

section
/-! SUPPORT. What one command, and one step, can do: one inversion lemma for `exec`, one for an illegal header, one for
`step`. -/

namespace Sys2Proof.Machine

/-- Everything a command can do: reset both units, or one move of one unit and nothing else (R72). -/
theorem exec_cases {i : Instr} {s t : State} (e : exec i s = .next t) :
    (i = .grst ∧ t = s.resetAll) ∨ ModEffect (encodeHeader i) s t ∨ DemEffect (encodeHeader i) s t := by
  cases i <;> obtain rfl := Host.Outcome.next.inj e
  case nop => exact .inr (.inl (modEffect_refl _ _))
  case grst => exact .inl ⟨rfl, rfl⟩
  case mCfgw f v =>
    exact .inr (.inl (modEffect_modCommand fun hk =>
      (ModMove.configure f v ((ModState.acceptsConfig_iff _).1 hk)).effect))
  case mStart =>
    exact .inr (.inl (modEffect_modCommand fun hk => modEffect_startMod ((ModState.acceptsConfig_iff _).1 hk)))
  case mByte b =>
    exact .inr (.inl (modEffect_modCommand fun hk => modEffect_pushByte b ((ModState.acceptsStream_iff _).1 hk)))
  case mEnd =>
    exact .inr (.inl (modEffect_modCommand fun hk => modEffect_endMod ((ModState.acceptsStream_iff _).1 hk)))
  case mRst => exact .inr (.inl (ModMove.reset (.inl rfl)).effect)
  case dCfgw f v =>
    exact .inr (.inr (demEffect_demCommand fun hk =>
      (DemMove.configure f v ((DemState.acceptsConfig_iff _).1 hk)).effect))
  case dStart =>
    exact .inr (.inr (demEffect_demCommand fun hk => demEffect_startDem ((DemState.acceptsConfig_iff _).1 hk)))
  case dFrame payload => exact .inr (.inr (demEffect_demCommand demEffect_deliverFrame))
  case dEnd => exact .inr (.inr (demEffect_demCommand demEffect_endDem))
  case dCls space mark => exact .inr (.inr (demEffect_demCommand fun _ => demEffect_demodStep _ _ _))
  case dRst => exact .inr (.inr (DemMove.reset (.inl rfl)).effect)

/-- Everything an illegal header can do: set ILL, or one move of one unit and nothing else (R89). -/
theorem illegalCommand_effect (h : Word) (s : State) :
    illegalCommand h s = s.raiseIllegal ∨ ModEffect h s (illegalCommand h s) ∨
      DemEffect h s (illegalCommand h s) := by
  rcases illegalCommand_cases h s with ⟨-, -, e⟩ | ⟨-, -, e⟩ | ⟨-, hs, e⟩ | ⟨-, -, e⟩ | ⟨-, hs, e⟩ <;>
    rw [e]
  · exact .inl rfl
  · exact .inr (.inl (modEffect_refl h s))
  · exact .inr (.inl (modEffect_raiseFault hs (by simp)))
  · exact .inr (.inl (modEffect_refl h s))
  · exact .inr (.inr (demEffect_raiseFault hs (by simp)))

/-- Between `s` and `t` each unit makes one move of the command with header `h`, and the queues grow by what the
moves emit. -/
def UnitMoves (h : Word) (s t : State) : Prop :=
  (∃ items, t.modOut = s.modOut ++ items ∧ ModMove h s.mod t.mod items) ∧
  ∃ bytes, t.demOut = s.demOut ++ bytes ∧ DemMove h s.dem t.dem bytes

/-- Accepting words from the command channel moves neither unit. -/
theorem unitMoves_withCmdIn {h : Word} {s t : State} (ws : List Word) :
    UnitMoves h { s with cmdIn := ws } t ↔ UnitMoves h s t := Iff.rfl

/-- What leaves both units and their queues alone. -/
theorem unitMoves_keep {h : Word} {s t : State} (hmod : t.mod = s.mod) (hdem : t.dem = s.dem)
    (hmodOut : t.modOut = s.modOut) (hdemOut : t.demOut = s.demOut) : UnitMoves h s t :=
  ⟨⟨[], by simp [hmodOut], hmod ▸ .keep⟩, [], by simp [hdemOut], hdem ▸ .keep⟩

theorem ModEffect.unitMoves {h : Word} {s t : State} (e : ModEffect h s t) : UnitMoves h s t := by
  obtain ⟨m, items, hm, rfl⟩ := e
  exact ⟨⟨items, rfl, hm⟩, [], by simp, .keep⟩

theorem DemEffect.unitMoves {h : Word} {s t : State} (e : DemEffect h s t) : UnitMoves h s t := by
  obtain ⟨d, bytes, hd, rfl⟩ := e
  exact ⟨⟨[], by simp, .keep⟩, bytes, rfl, hd⟩

theorem unitMoves_of_exec {i : Instr} {s t : State} (e : exec i s = .next t) :
    UnitMoves (encodeHeader i) s t := by
  rcases exec_cases e with ⟨rfl, rfl⟩ | hm | hd
  · exact ⟨⟨[], by simp, .reset (.inr rfl)⟩, [], by simp, .reset (.inr rfl)⟩
  · exact hm.unitMoves
  · exact hd.unitMoves

theorem unitMoves_illegalCommand (h : Word) (s : State) : UnitMoves h s (illegalCommand h s) := by
  rcases illegalCommand_effect h s with e | hm | hd
  · rw [e]
    exact unitMoves_keep rfl rfl rfl rfl
  · exact hm.unitMoves
  · exact hd.unitMoves

/-- Everything a step can do to the units and the queues; the header is the one at the head of the command channel. -/
theorem step_moves {s t : State} (e : step s = .next t) :
    ∃ h, UnitMoves h s t ∧ ∀ x ws, s.cmdIn = x :: ws → x = h := by
  rcases step_cases e with rfl | ⟨h, ws, rest, hcmd, hrun⟩
  · exact ⟨t.cmdIn.headD 0, unitMoves_keep rfl rfl rfl rfl, fun x ws hx => by simp [hx]⟩
  · refine ⟨h, ?_, fun x ws' hx => (List.cons.inj (hx.symm.trans hcmd)).1⟩
    rcases hrun with ⟨i, rfl, hi⟩ | rfl
    · exact (unitMoves_withCmdIn rest).1 (unitMoves_of_exec hi)
    · exact (unitMoves_withCmdIn rest).1 (unitMoves_illegalCommand h _)

end Sys2Proof.Machine
end

section
/-! SUPPORT. The invariants between commands (10_state.md R44): each move of a unit keeps its own. -/

namespace Sys2Proof.Machine

/-! ## The effective registers hold what validation answers -/

/-- The effective sample rate fits its register. -/
theorem srEff_of_validate {u : UnitId} {c : RawCfg} {sr spf : Nat} (e : validate u c = .ok sr spf) :
    (BitVec.ofNat 32 sr).toNat = sr := by
  obtain ⟨-, -, -, rfl, -⟩ := validate_eq_ok e
  exact Nat.mod_eq_of_lt (effSr_bounds c).2

/-- The effective frame size fits its register. -/
theorem spfEff_of_validate {u : UnitId} {c : RawCfg} {sr spf : Nat} (e : validate u c = .ok sr spf) :
    (BitVec.ofNat 32 spf).toNat = spf := by
  obtain ⟨-, -, -, -, -, -, hle, -⟩ := validate_eq_ok e
  exact Nat.mod_eq_of_lt (by omega)

/-- K is positive and fits its register (R6). -/
theorem ksym_of_validate {u : UnitId} {c : RawCfg} {sr spf : Nat} (e : validate u c = .ok sr spf) :
    0 < ceilDiv sr (spf * c.baud.toNat) ∧
      (BitVec.ofNat 32 (ceilDiv sr (spf * c.baud.toNat))).toNat = ceilDiv sr (spf * c.baud.toNat) := by
  obtain ⟨hbaud, -, -, rfl, -, hspf, -⟩ := validate_eq_ok e
  have hb : 0 < c.baud.toNat :=
    Nat.pos_of_ne_zero fun h0 => hbaud (BitVec.eq_of_toNat_eq (by simpa using h0))
  obtain ⟨hsr, hfits⟩ := effSr_bounds c
  obtain ⟨hpos, hle⟩ := ceilDiv_bounds hsr (Nat.mul_pos hspf hb)
  exact ⟨hpos, Nat.mod_eq_of_lt (hle.trans_lt hfits)⟩

/-! ## R44 -/

/-- Each move of MOD keeps R44 item 1: the framer leaves less than a frame. -/
theorem ModMove.keeps_modInv {h : Word} {m m' : ModUnit} {items : List ModItem} (hm : ModMove h m m' items)
    (hinv : ModInv m) : ModInv m' := by
  have ⟨hbuf, _⟩ := hinv
  cases hm with
  | keep => exact hinv
  | reset _ => exact ⟨by simp [ModUnit.reset], by simp [ModUnit.reset]⟩
  | fault _ _ => exact ⟨by simp, by simp⟩
  | configure f v hs => exact ⟨by simp [hs], by simp [hs]⟩
  | @start sr spf hs hv _ =>
    obtain ⟨-, -, -, -, -, hpos, -⟩ := validate_eq_ok hv
    exact ⟨fun _ => (spfEff_of_validate hv).symm ▸ hpos, fun _ => rfl⟩
  | push b hs =>
    have hspf : 0 < m.spfEff.toNat := Nat.zero_lt_of_lt (hbuf (.inl hs))
    obtain ⟨-, -, -, -, hlt⟩ := slice_spec hspf (m.bufWith b)
    exact ⟨fun _ => hlt, by simp [hs]⟩
  | finish hs _ => exact ⟨fun _ => Nat.zero_lt_of_lt (hbuf (.inl hs)), fun _ => rfl⟩

/-- A fold makes room for one more bit: the low bits that stay clear are one fewer (R44 item 6, R170). -/
theorem foldBit_low_bits_clear {acc : Byte} {p : Nat} (bit : Bool) (hp : p < 7)
    (hacc : acc.toNat % 2 ^ (8 - p) = 0) : (foldBit acc bit).toNat % 2 ^ (8 - (p + 1)) = 0 := by
  have hpow : 2 ^ (8 - p) = 2 * 2 ^ (8 - (p + 1)) := by
    rw [← Nat.pow_succ']
    congr 1
    omega
  have hbit : 2 ^ (8 - (p + 1)) ∣ 128 := pow_dvd_pow 2 (show 8 - (p + 1) ≤ 7 by omega)
  have hhalf : 2 ^ (8 - (p + 1)) ∣ acc.toNat / 2 := by
    obtain ⟨q, hq⟩ := Nat.dvd_of_mod_eq_zero hacc
    exact ⟨q, by rw [hq, hpow, Nat.mul_assoc, Nat.mul_div_cancel_left _ (by decide)]⟩
  rw [foldBit_toNat]
  cases bit with
  | false => exact Nat.mod_eq_zero_of_dvd hhalf
  | true => exact Nat.mod_eq_zero_of_dvd (hhalf.add hbit)

/-- At the boundary the minority count is below K (R169, R171, R181). -/
theorem decisionErr_lt_ksym {d : DemUnit} (c : ToneClass)
    (hvotes : d.spaces.toNat + d.marks.toNat ≤ d.clock.toNat) (hclock : d.clock.toNat < d.ksym.toNat) :
    (d.counted c).decisionErr.toNat < d.ksym.toNat := by
  have hle := d.counted_votes_le c
  rw [decisionErr_toNat]
  omega

/-- Each move of DEM keeps R44 items 2 to 6. -/
theorem DemMove.keeps_demInv {h : Word} {d d' : DemUnit} {bytes : List Byte} (hd : DemMove h d d' bytes)
    (hinv : DemInv d) : DemInv d' := by
  have ⟨hpre, hspace, hmark, hdec, hbit, hacc⟩ := hinv
  cases hd with
  | keep => exact hinv
  | reset _ => decide
  | fault _ _ => exact ⟨by simp, by simp, by simp, by simp, hbit, hacc⟩
  | configure f v hs => exact ⟨by simp [hs], by simp [hs], by simp [hs], by simp [hs], hbit, hacc⟩
  | @start sr spf hs hv _ =>
    refine ⟨fun _ => ⟨rfl, rfl, rfl, rfl⟩, fun _ => ⟨rfl, ?_⟩, by simp, by simp, by simp, by simp⟩
    obtain ⟨hpos, hk⟩ := ksym_of_validate hv
    exact hk.symm ▸ hpos
  | lock hs =>
    exact ⟨fun _ => hpre (.inl hs), by simp, fun _ => (hspace hs).2, by simp, hbit, hacc⟩
  | countMark hs hk =>
    refine ⟨fun _ => hpre (.inr hs), by simp [hs], fun _ => ?_, by simp [hs], hbit, hacc⟩
    exact (Nat.mod_le _ _).trans_lt hk
  | enterDecode hs hk =>
    obtain ⟨hspaces, hmarks, -, -⟩ := hpre (.inr hs)
    refine ⟨by simp, by simp, by simp, fun _ => ⟨?_, Nat.zero_lt_of_lt (hmark hs)⟩, hbit, hacc⟩
    simp [hspaces, hmarks]
  | vote c hs hk =>
    have hclock : (BitVec.ofNat 32 (d.clock.toNat + 1)).toNat = d.clock.toNat + 1 :=
      Nat.mod_eq_of_lt (hk.trans d.ksym.isLt)
    have hle := d.counted_votes_le c
    have hvotes := (hdec hs).1
    refine ⟨by simp [hs], by simp [hs], by simp [hs], fun _ => ?_, by simpa using hbit, by simpa using hacc⟩
    rw [DemUnit.counted_clock, DemUnit.counted_ksym, hclock]
    omega
  | fold c hs hk hb =>
    obtain ⟨hvotes, hclock⟩ := hdec hs
    have hpos : (BitVec.ofNat 4 (d.bitpos.toNat + 1)).toNat = d.bitpos.toNat + 1 :=
      Nat.mod_eq_of_lt (by omega)
    refine ⟨by simp [hs], by simp [hs], by simp [hs], fun _ => ⟨by simp, ?_⟩, ?_, ?_⟩
    · simpa using decisionErr_lt_ksym c hvotes hclock
    · dsimp only; omega
    · dsimp only
      rw [hpos]
      exact foldBit_low_bits_clear _ hb hacc
  | emit c hs hk hb =>
    obtain ⟨hvotes, hclock⟩ := hdec hs
    refine ⟨by simp [hs], by simp [hs], by simp [hs], fun _ => ⟨by simp, ?_⟩, by simp, by simp⟩
    simpa using decisionErr_lt_ksym c hvotes hclock
  | overflow c hs hk hb => exact absurd hbit (Nat.not_le.2 hb)
  | finish hs hb _ => exact ⟨by simp, by simp, by simp, by simp, hbit, hacc⟩
  | finishByte hs hb _ => omega

/-- Settles O47: a step is one move of each unit, and each move keeps the invariants of its unit. -/
theorem invariantsKeptByStep : Obligations.InvariantsKeptByStep := by
  intro s t ⟨hmod, hdem⟩ e
  obtain ⟨h, ⟨⟨items, -, hm⟩, bytes, -, hd⟩, -⟩ := step_moves e
  exact ⟨hm.keeps_modInv hmod, hd.keeps_demInv hdem⟩

/-- Settles O48: power-on leaves both units in IDLE with every register 0. -/
theorem invariantsHoldAtReset : Obligations.InvariantsHoldAtReset := by
  have hinv : Inv State.reset := by decide
  have hfault : FaultRegsInv State.reset := by decide
  have hmod : ModCfgInv State.reset.mod := by decide
  have hdem : DemCfgInv State.reset.dem := by decide
  exact ⟨hinv, hfault, hmod, hdem⟩

end Sys2Proof.Machine
end

section
/-! SUPPORT. The protocol state and the queues, read off the moves of the units (10_state.md R40, R45). -/

namespace Sys2Proof.Machine

/-- The changes of D.STATE that the command with header `h` can make (R45). -/
theorem DemMove.state_forward {h : Word} {d d' : DemUnit} {bytes : List Byte} (hd : DemMove h d d' bytes)
    (hne : d.state ≠ d'.state) :
    (d.state = .idle ∧ d'.state = .preambleSpace ∧ h = 0x22000000) ∨
    (d.state = .preambleSpace ∧ d'.state = .preambleMark) ∨
    (d.state = .preambleMark ∧ d'.state = .decode) ∨
    ((d.state = .preambleSpace ∨ d.state = .preambleMark ∨ d.state = .decode) ∧
      d'.state = .done ∧ h = 0x24000000) ∨
    (d.state ≠ .error ∧ d'.state = .error) ∨
    (d'.state = .idle ∧ (h = 0x2F000000 ∨ h = 0x01000000)) := by
  cases hd with
  | keep => exact absurd rfl hne
  | reset hh => exact .inr (.inr (.inr (.inr (.inr ⟨rfl, hh⟩))))
  | fault hs _ => exact .inr (.inr (.inr (.inr (.inl ⟨hs, rfl⟩))))
  | configure f v hs => exact absurd rfl hne
  | start hs _ hh => exact .inl ⟨hs, rfl, hh⟩
  | lock hs => exact .inr (.inl ⟨hs, rfl⟩)
  | countMark hs _ => exact absurd rfl hne
  | enterDecode hs _ => exact .inr (.inr (.inl ⟨hs, rfl⟩))
  | vote c hs _ => exact absurd (d.counted_state c).symm hne
  | fold c hs _ _ => exact absurd (d.counted_state c).symm hne
  | emit c hs _ _ => exact absurd (d.counted_state c).symm hne
  | overflow c hs _ _ => exact .inr (.inr (.inr (.inr (.inl ⟨by simp [hs], rfl⟩))))
  | finish hs _ hh => exact .inr (.inr (.inr (.inl ⟨(DemState.acceptsStream_iff _).1 hs, rfl, hh⟩)))
  | finishByte hs _ hh => exact .inr (.inr (.inr (.inl ⟨(DemState.acceptsStream_iff _).1 hs, rfl, hh⟩)))

/-- Settles O41: the header at the head of the channel is the one of the step's move. -/
theorem protocolStateMovesForward : Obligations.ProtocolStateMovesForward := by
  intro s t h ws hcmd e hne
  obtain ⟨h', ⟨-, bytes, -, hd⟩, hhead⟩ := step_moves e
  obtain rfl := hhead h ws hcmd
  exact hd.state_forward hne

/-- The items one move of MOD emits: full frames, or at M.END a TAIL shorter than one (R40, R145). -/
theorem ModMove.items_lengths {h : Word} {m m' : ModUnit} {items : List ModItem} (hm : ModMove h m m' items)
    (hinv : ModInv m) :
    ∀ item ∈ items, (∃ xs, item = .frame xs ∧ xs.length = m.spfEff.toNat) ∨
      (∃ xs, item = .tail xs ∧ 1 ≤ xs.length ∧ xs.length < m.spfEff.toNat) := by
  cases hm with
  | push b hs =>
    have hspf : 0 < m.spfEff.toNat := Nat.zero_lt_of_lt (hinv.1 (.inl hs))
    obtain ⟨frames, hframes, -, hlen, -⟩ := slice_spec hspf (m.bufWith b)
    intro item hitem
    obtain ⟨xs, hxs, rfl⟩ := List.mem_map.1 (hframes ▸ hitem)
    exact .inl ⟨xs, rfl, hlen xs hxs⟩
  | finish hs _ =>
    intro item hitem
    split at hitem
    · cases hitem
    · next hne =>
      obtain rfl := List.mem_singleton.1 hitem
      have hpos : 1 ≤ m.buf.length := List.length_pos_iff.2 (by simpa using hne)
      exact .inr ⟨m.buf, rfl, hpos, hinv.1 (.inl hs)⟩
  | _ => exact fun _ hitem => nomatch hitem

/-- One move of DEM emits at most one byte (R170, R174). -/
theorem DemMove.bytes_length_le {h : Word} {d d' : DemUnit} {bytes : List Byte} (hd : DemMove h d d' bytes) :
    bytes.length ≤ 1 := by
  cases hd <;> simp

/-- Settles O53: the queues grow by what the moves of the step emit. -/
theorem queuesOnlyGrow : Obligations.QueuesOnlyGrow := by
  intro s t ⟨hmod, _⟩ e
  obtain ⟨h, ⟨⟨items, hitems, hm⟩, bytes, hbytes, hd⟩, -⟩ := step_moves e
  exact ⟨⟨items, hitems, hm.items_lengths hmod⟩, bytes, hbytes, hd.bytes_length_le⟩

end Sys2Proof.Machine
end

section
/-! SUPPORT. The fault registers and the effective registers (10_state.md R27 to R29, R33 to R35): each move of a unit
keeps their agreement with the rest of the unit. -/

namespace Sys2Proof.Machine

/-- CAUSE names a fault in ERROR alone, and FCMD is 0 elsewhere (R27). -/
abbrev ModFaultRegs (m : ModUnit) : Prop :=
  (m.state = .error ↔ m.cause ≠ .none) ∧ (m.state ≠ .error → m.fcmd = 0)

/-- CAUSE names a fault in ERROR alone, and FCMD is 0 elsewhere (R33). -/
abbrev DemFaultRegs (d : DemUnit) : Prop :=
  (d.state = .error ↔ d.cause ≠ .none) ∧ (d.state ≠ .error → d.fcmd = 0)

theorem faultRegsInv_iff (s : State) : FaultRegsInv s ↔ ModFaultRegs s.mod ∧ DemFaultRegs s.dem :=
  and_assoc.symm

theorem ModMove.keeps_faultRegs {h : Word} {m m' : ModUnit} {items : List ModItem} (hm : ModMove h m m' items)
    (hinv : ModFaultRegs m) : ModFaultRegs m' := by
  cases hm with
  | keep => exact hinv
  | reset _ => decide
  | fault _ hc => exact ⟨by simpa using hc, by simp⟩
  | configure _ _ hs => exact hinv
  | start hs _ _ => simpa [ModFaultRegs, hs] using hinv
  | push _ hs => exact hinv
  | finish hs _ => simpa [ModFaultRegs, hs] using hinv

theorem DemMove.keeps_faultRegs {h : Word} {d d' : DemUnit} {bytes : List Byte} (hd : DemMove h d d' bytes)
    (hinv : DemFaultRegs d) : DemFaultRegs d' := by
  cases hd with
  | keep => exact hinv
  | reset _ => decide
  | fault _ hc => exact ⟨by simpa using hc, by simp⟩
  | configure _ _ hs => exact hinv
  | start hs _ _ => simpa [DemFaultRegs, hs] using hinv
  | lock hs => simpa [DemFaultRegs, hs] using hinv
  | countMark hs _ => exact hinv
  | enterDecode hs _ => simpa [DemFaultRegs, hs] using hinv
  | vote c _ _ => simpa [DemFaultRegs] using hinv
  | fold c _ _ _ => simpa [DemFaultRegs] using hinv
  | emit c _ _ _ => simpa [DemFaultRegs] using hinv
  | overflow _ _ _ _ => exact ⟨by simp, by simp⟩
  | finish hs _ _ => simpa [DemFaultRegs, (DemState.active_of_acceptsStream hs).2] using hinv
  | finishByte hs _ _ => simpa [DemFaultRegs, (DemState.active_of_acceptsStream hs).2] using hinv

/-- M.START divides the sample rate into whole symbols (R106, R110), and nothing else changes what ModCfgInv
speaks of while a stream lasts. -/
theorem ModMove.keeps_modCfgInv {h : Word} {m m' : ModUnit} {items : List ModItem} (hm : ModMove h m m' items)
    (hinv : ModCfgInv m) : ModCfgInv m' := by
  have ⟨hidle, hrun⟩ := hinv
  cases hm with
  | keep => exact hinv
  | reset _ => exact ⟨fun _ => ⟨rfl, rfl, rfl, rfl, rfl⟩, by simp [ModUnit.reset]⟩
  | fault _ _ => exact ⟨by simp, by simp⟩
  | configure f v hs => exact ⟨fun _ => hidle hs, by simp [hs]⟩
  | @start sr spf hs hv _ =>
    refine ⟨by simp, fun _ => ⟨?_, ?_, fun _ => rfl⟩⟩
    · simpa only [srEff_of_validate hv, spfEff_of_validate hv] using hv
    · obtain ⟨-, -, -, -, -, -, -, hint⟩ := validate_eq_ok hv
      have hnsym : (BitVec.ofNat 32 (sr / m.cfg.baud.toNat)).toNat = sr / m.cfg.baud.toNat :=
        Nat.mod_eq_of_lt ((Nat.div_le_self _ _).trans_lt (srEff_of_validate hv ▸ (BitVec.ofNat 32 sr).isLt))
      simp only [hnsym, srEff_of_validate hv]
      exact Nat.div_mul_cancel (Nat.dvd_of_mod_eq_zero (hint rfl))
  | push b hs =>
    obtain ⟨hv, hnsym, -⟩ := hrun (.inl hs)
    exact ⟨by simp [hs], fun _ => ⟨hv, hnsym, by simp⟩⟩
  | finish hs _ =>
    obtain ⟨hv, hnsym, -⟩ := hrun (.inl hs)
    exact ⟨by simp, fun _ => ⟨hv, hnsym, fun _ => rfl⟩⟩

/-- D.START writes what validation answers and K (R111), and nothing else changes what DemCfgInv speaks of while
a stream lasts. -/
theorem DemMove.keeps_demCfgInv {h : Word} {d d' : DemUnit} {bytes : List Byte} (hd : DemMove h d d' bytes)
    (hinv : DemCfgInv d) : DemCfgInv d' := by
  have ⟨hidle, hrun⟩ := hinv
  cases hd with
  | keep => exact hinv
  | reset _ => exact ⟨fun _ => ⟨rfl, rfl, rfl⟩, by simp [DemUnit.reset]⟩
  | fault _ _ => exact ⟨by simp, by simp⟩
  | configure f v hs => exact ⟨fun _ => hidle hs, by simp [hs]⟩
  | @start sr spf hs hv _ =>
    refine ⟨by simp, fun _ => ⟨?_, ?_⟩⟩
    · simpa only [srEff_of_validate hv, spfEff_of_validate hv] using hv
    · simpa only [srEff_of_validate hv, spfEff_of_validate hv] using (ksym_of_validate hv).2
  | lock hs => exact ⟨by simp, fun _ => hrun (by simp [hs])⟩
  | countMark hs _ => exact hinv
  | enterDecode hs _ => exact ⟨by simp, fun _ => hrun (by simp [hs])⟩
  | vote c _ _ => simpa [DemCfgInv] using hinv
  | fold c _ _ _ => simpa [DemCfgInv] using hinv
  | emit c _ _ _ => simpa [DemCfgInv] using hinv
  | overflow c _ _ _ => exact ⟨by simp, by simp⟩
  | finish hs _ _ => exact ⟨by simp, fun _ => hrun (DemState.active_of_acceptsStream hs)⟩
  | finishByte hs _ _ => exact ⟨by simp, fun _ => hrun (DemState.active_of_acceptsStream hs)⟩

/-- Settles O49: a step is one move of each unit, and each move keeps the agreement of its unit's registers. -/
theorem unitRegistersStayConsistent : Obligations.UnitRegistersStayConsistent := by
  intro s t e
  obtain ⟨h, ⟨⟨items, -, hm⟩, bytes, -, hd⟩, -⟩ := step_moves e
  refine ⟨fun hinv => ?_, hm.keeps_modCfgInv, hd.keeps_demCfgInv⟩
  obtain ⟨hmod, hdem⟩ := (faultRegsInv_iff s).1 hinv
  exact (faultRegsInv_iff t).2 ⟨hm.keeps_faultRegs hmod, hd.keeps_faultRegs hdem⟩

end Sys2Proof.Machine
end

section
/-! SUPPORT. The register read space and the layout of the status words (10_state.md R23, R25, R32; 20_memory.md
R61). -/

namespace Sys2Proof.Machine

/-- A concatenation of bit fields, as a number. -/
theorem toNat_append_eq_add {v w : Nat} (x : BitVec v) (y : BitVec w) :
    (x ++ y).toNat = 2 ^ w * x.toNat + y.toNat := by
  rw [BitVec.toNat_append, ← Nat.shiftLeft_add_eq_or_of_lt y.isLt, Nat.shiftLeft_eq, Nat.mul_comm]

/-- A status bit that compares two values, as a number. -/
theorem toNat_beq {α : Type} [DecidableEq α] (a b : α) : (a == b).toNat = if a = b then 1 else 0 := by
  by_cases h : a = b
  · simp [h]
  · rw [if_neg h, beq_false_of_ne h, Bool.toNat_false]

/-- The mapped addresses are multiples of 4. -/
theorem mappedAddrs_aligned : ∀ a ∈ mappedAddrs, a % 4 = 0 := by decide

/-- Only a mapped address reads a register (R61). -/
theorem regRead_of_not_mem (s : State) {a : RegAddr} (ha : a.toNat ∉ mappedAddrs) : s.regRead a = 0 := by
  unfold State.regRead
  split
  case h_28 => rfl
  all_goals
    next haddr => exact absurd (by rw [haddr]; decide) ha

theorem toNat_gStatus (s : State) :
    s.gStatus.toNat = s.ill.toNat + 2 * (if s.mod.state = .error then 1 else 0)
      + 4 * (if s.dem.state = .error then 1 else 0) := by
  simp only [State.gStatus, toNat_append_eq_add, BitVec.toNat_ofBool, toNat_beq, BitVec.ofNat_eq_ofNat,
    BitVec.toNat_ofNat]
  omega

theorem toNat_modStatus (m : ModUnit) :
    m.status.toNat = m.state.code.toNat + 8 * m.first.toNat + 256 * m.cause.code.toNat := by
  simp only [ModUnit.status, toNat_append_eq_add, BitVec.toNat_ofBool, BitVec.ofNat_eq_ofNat, BitVec.toNat_ofNat]
  omega

theorem toNat_demStatus (d : DemUnit) :
    d.status.toNat = d.state.code.toNat + 256 * d.cause.code.toNat := by
  simp only [DemUnit.status, toNat_append_eq_add, BitVec.ofNat_eq_ofNat, BitVec.toNat_ofNat]
  omega

/-- Settles O12: the read space is a table, and the fields of a status word do not overlap. -/
theorem registerReadsAndStatusWords : Obligations.RegisterReadsAndStatusWords := by
  refine ⟨fun s a ha => ?_, fun s => ?_, fun s => ?_, rfl, rfl, rfl⟩
  · exact regRead_of_not_mem s (ha.elim id fun hodd hmem => hodd (mappedAddrs_aligned _ hmem))
  · refine ⟨rfl, rfl, rfl, rfl, rfl, rfl, rfl, rfl, rfl, fun hlen => Nat.mod_eq_of_lt hlen, rfl, rfl, rfl, rfl, rfl,
      rfl, rfl, rfl, rfl, rfl, rfl, rfl, ?_, ?_⟩
    · exact BitVec.toNat_setWidth_of_le (by decide)
    · exact BitVec.toNat_setWidth_of_le (by decide)
  · exact ⟨toNat_gStatus s, toNat_modStatus s.mod, toNat_demStatus s.dem⟩

end Sys2Proof.Machine
end

section
/-! SUPPORT. The serializations: the bytes of a word and of an output item, and the samples of a D.FRAME payload
(20_memory.md R64, R66; 30_encoding.md R87). -/

namespace Sys2Proof

/-! ## Words as bytes (R66) -/

/-- Byte `k` of a word is its bits 8k+7..8k. -/
theorem getD_wordBytes (w : Word) {k : Nat} (hk : k < 4) :
    (wordBytes w).getD k 0 = w.extractLsb' (8 * k) 8 := by
  rcases k with _ | _ | _ | _ | k
  case succ.succ.succ.succ => omega
  all_goals rfl

/-- The four bytes of a word carry it back. -/
theorem bytesWord_extract (w : Word) :
    bytesWord (w.extractLsb' 0 8) (w.extractLsb' 8 8) (w.extractLsb' 16 8) (w.extractLsb' 24 8) = w := by
  rw [bytesWord, BitVec.extractLsb'_append_extractLsb'_eq_extractLsb',
    BitVec.extractLsb'_append_extractLsb'_eq_extractLsb', BitVec.extractLsb'_append_extractLsb'_eq_extractLsb']
  · exact BitVec.extractLsb'_eq_self
  all_goals rfl

/-- A receiver takes the bytes of one word off the stream as that word. -/
theorem wordsOfBytes_wordBytes_append (w : Word) (bs : List Byte) :
    wordsOfBytes (wordBytes w ++ bs) = (w :: (wordsOfBytes bs).1, (wordsOfBytes bs).2) := by
  simp only [wordBytes, List.cons_append, List.nil_append, wordsOfBytes, bytesWord_extract]

theorem bytesOfWords_cons (w : Word) (ws : List Word) :
    bytesOfWords (w :: ws) = wordBytes w ++ bytesOfWords ws := rfl

theorem length_bytesOfWords (ws : List Word) : (bytesOfWords ws).length = 4 * ws.length := by
  simp [bytesOfWords, wordBytes, Nat.mul_comm]

theorem wordsOfBytes_bytesOfWords (ws : List Word) : wordsOfBytes (bytesOfWords ws) = (ws, []) := by
  induction ws with
  | nil => rfl
  | cons w ws ih => rw [bytesOfWords_cons, wordsOfBytes_wordBytes_append, ih]

namespace Machine

/-! ## Output items as bytes (R64) -/

theorem length_flatMap_sampleBytes (xs : List Sample) : (xs.flatMap sampleBytes).length = 2 * xs.length := by
  simp [sampleBytes, Nat.mul_comm]

/-- Sample `i` is delivered in bytes 2i and 2i+1, low byte first. -/
theorem getElem?_flatMap_sampleBytes {xs : List Sample} {i : Nat} {r : Sample} (h : xs[i]? = some r) :
    (xs.flatMap sampleBytes)[2 * i]? = some (r.extractLsb' 0 8) ∧
      (xs.flatMap sampleBytes)[2 * i + 1]? = some (r.extractLsb' 8 8) := by
  induction xs generalizing i with
  | nil => cases h
  | cons x xs ih =>
    cases i with
    | zero =>
      obtain rfl : x = r := Option.some.inj h
      exact ⟨rfl, rfl⟩
    | succ i => exact ih h

/-! ## Samples as payload words (R87) -/

/-- The even sample of a word is its low half. -/
theorem sampleAt_cons_zero (hi lo : Sample) (ws : List Word) : sampleAt ((hi ++ lo) :: ws) 0 = lo :=
  BitVec.extractLsb'_append_eq_right

/-- The odd sample of a word is its high half. -/
theorem sampleAt_cons_one (hi lo : Sample) (ws : List Word) : sampleAt ((hi ++ lo) :: ws) 1 = hi :=
  BitVec.extractLsb'_append_eq_left

/-- Each word holds two samples. -/
theorem sampleAt_cons_add_two (w : Word) (ws : List Word) (i : Nat) :
    sampleAt (w :: ws) (i + 2) = sampleAt ws i := by
  simp [sampleAt]

/-- No word, no sample: a missing word reads as 0 (assumption log entry 11). -/
theorem sampleAt_nil (i : Nat) : sampleAt [] i = 0 := by
  simp [sampleAt]

/-- Sample `i` of packed samples is sample `i`; the padding is 0. -/
theorem sampleAt_packSamples (xs : List Sample) (i : Nat) : sampleAt (packSamples xs) i = xs.getD i 0 := by
  induction xs using packSamples.induct generalizing i with
  | case1 => exact sampleAt_nil i
  | case2 a =>
    match i with
    | 0 => exact sampleAt_cons_zero 0 a []
    | 1 => exact sampleAt_cons_one 0 a []
    | i + 2 => exact (sampleAt_cons_add_two _ [] i).trans (sampleAt_nil i)
  | case3 a b rest ih =>
    match i with
    | 0 => exact sampleAt_cons_zero b a _
    | 1 => exact sampleAt_cons_one b a _
    | i + 2 => exact (sampleAt_cons_add_two _ _ i).trans (ih i)

theorem frameSamples_packSamples (xs : List Sample) : frameSamples xs.length (packSamples xs) = xs := by
  refine List.ext_getElem (by simp [frameSamples]) fun i _ hi => ?_
  simp [frameSamples, sampleAt_packSamples, hi]

theorem length_packSamples (xs : List Sample) : (packSamples xs).length = ceilDiv xs.length 2 := by
  induction xs using packSamples.induct with
  | case1 => rfl
  | case2 a => simp [packSamples, ceilDiv]
  | case3 a b rest ih =>
    simp only [packSamples, List.length_cons, ih, ceilDiv]
    omega

/-- Settles O8: each serialization is the concatenation of fixed-size pieces, and each piece carries back what it
was cut from. -/
theorem serializationsRoundTrip : Obligations.SerializationsRoundTrip := by
  refine ⟨fun w k j hk hj => ?_, fun ws => ⟨length_bytesOfWords ws, wordsOfBytes_bytesOfWords ws⟩,
    fun item => ⟨length_flatMap_sampleBytes item.samples, fun i r h => getElem?_flatMap_sampleBytes h⟩,
    fun xs => ⟨frameSamples_packSamples xs, length_packSamples xs⟩⟩
  rw [getD_wordBytes w hk, BitVec.getLsbD_extractLsb', decide_eq_true hj, Bool.true_and]

end Machine

end Sys2Proof
end

section
/-! SUPPORT. Register reads in a host session (20_memory.md R69, R71; 40_control.md R114): a read answers one word and
changes nothing, and nothing else answers a word. -/

namespace Sys2Proof.Machine

/-- The event is a REGRD. -/
def HostAction.isRead : HostAction → Bool
  | .op (.regrd _) => true
  | _ => false

/-- The reply is that of a REGRD. -/
def HostReply.isWord : HostReply → Bool
  | .word _ => true
  | _ => false

/-- A REGRD answers one word and leaves the state as it was (R114). -/
theorem hostAction_of_isRead {a : HostAction} (ha : a.isRead = true) (s : State) :
    ∃ w, hostAction a s = ([.word w], s) := by
  match a, ha with
  | .op (.regrd addr), _ => exact ⟨s.regRead addr, rfl⟩

/-- A step of the core answers the host nothing. -/
theorem hostAction_accept_replies (s : State) : (hostAction .accept s).1 = [] := by
  cases h : step s with
  | next t => simp only [hostAction, h]
  | fault _ => simp only [hostAction, h]
  | refused _ => simp only [hostAction, h]

/-- Only a REGRD answers a word. -/
theorem isWord_of_not_isRead {a : HostAction} (ha : a.isRead = false) {s : State} :
    ∀ r ∈ (hostAction a s).1, r.isWord = false := by
  match a, ha with
  | .deliver _, _ => exact fun r hr => nomatch hr
  | .accept, _ => exact fun r hr => nomatch hostAction_accept_replies s ▸ hr
  | .op .mpop, _ => exact fun r hr => List.mem_singleton.1 hr ▸ rfl
  | .op .dpop, _ => exact fun r hr => List.mem_singleton.1 hr ▸ rfl
  | .powerOn, _ => exact fun r hr => nomatch hr

/-- A session without its register reads gives the other replies, in order, and ends in the same state. -/
theorem hostRun_filter_not_isRead (as : List HostAction) (s : State) :
    (hostRun (as.filter fun a => !a.isRead) s).2 = (hostRun as s).2 ∧
      (hostRun (as.filter fun a => !a.isRead) s).1 = (hostRun as s).1.filter fun r => !r.isWord := by
  induction as generalizing s with
  | nil => exact ⟨rfl, rfl⟩
  | cons a as ih =>
    cases ha : a.isRead with
    | true =>
      obtain ⟨w, hw⟩ := hostAction_of_isRead ha s
      simpa [ha, hostRun, hw, HostReply.isWord] using ih s
    | false =>
      obtain ⟨hstate, hreplies⟩ := ih (hostAction a s).2
      have hkeep : ((hostAction a s).1.filter fun r => !r.isWord) = (hostAction a s).1 :=
        List.filter_eq_self.2 fun r hr => by simp [isWord_of_not_isRead ha r hr]
      simp [ha, hostRun, hstate, hreplies, hkeep]

/-- Settles O14, by induction on the session. -/
theorem registerReadsDisturbNothing : Obligations.RegisterReadsDisturbNothing :=
  hostRun_filter_not_isRead

end Sys2Proof.Machine
end

section
/-! SUPPORT. A command and the unit it does not address (20_memory.md R72). `exec_cases` leaves open which unit
moves; here `touches` says which. -/

namespace Sys2Proof.Machine

/-- A command that does not address DEM does nothing but one move of MOD. -/
theorem modEffect_of_exec {i : Instr} {s t : State} (hi : touches .dem i = false) (e : exec i s = .next t) :
    ModEffect (encodeHeader i) s t := by
  cases i <;> obtain rfl := Host.Outcome.next.inj e
  case nop => exact modEffect_refl _ _
  case mCfgw f v =>
    exact modEffect_modCommand fun hk => (ModMove.configure f v ((ModState.acceptsConfig_iff _).1 hk)).effect
  case mStart => exact modEffect_modCommand fun hk => modEffect_startMod ((ModState.acceptsConfig_iff _).1 hk)
  case mByte b => exact modEffect_modCommand fun hk => modEffect_pushByte b ((ModState.acceptsStream_iff _).1 hk)
  case mEnd => exact modEffect_modCommand fun hk => modEffect_endMod ((ModState.acceptsStream_iff _).1 hk)
  case mRst => exact (ModMove.reset (.inl rfl)).effect
  all_goals exact nomatch hi

/-- A command that does not address MOD does nothing but one move of DEM. -/
theorem demEffect_of_exec {i : Instr} {s t : State} (hi : touches .mod i = false) (e : exec i s = .next t) :
    DemEffect (encodeHeader i) s t := by
  cases i <;> obtain rfl := Host.Outcome.next.inj e
  case nop => exact demEffect_refl _ _
  case dCfgw f v =>
    exact demEffect_demCommand fun hk => (DemMove.configure f v ((DemState.acceptsConfig_iff _).1 hk)).effect
  case dStart => exact demEffect_demCommand fun hk => demEffect_startDem ((DemState.acceptsConfig_iff _).1 hk)
  case dFrame payload => exact demEffect_demCommand demEffect_deliverFrame
  case dEnd => exact demEffect_demCommand demEffect_endDem
  case dCls space mark => exact demEffect_demCommand fun _ => demEffect_demodStep _ _ _
  case dRst => exact (DemMove.reset (.inl rfl)).effect
  all_goals exact nomatch hi

/-- A move of MOD leaves DEM and its queue alone. -/
theorem ModEffect.dem_frame {h : Word} {s t : State} (e : ModEffect h s t) :
    t.dem = s.dem ∧ t.demOut = s.demOut := by
  obtain ⟨m, items, -, rfl⟩ := e
  exact ⟨rfl, rfl⟩

/-- A move of MOD leaves ILL and the undelivered words alone. -/
theorem ModEffect.global_frame {h : Word} {s t : State} (e : ModEffect h s t) :
    t.ill = s.ill ∧ t.cmdIn = s.cmdIn := by
  obtain ⟨m, items, -, rfl⟩ := e
  exact ⟨rfl, rfl⟩

/-- A move of DEM leaves MOD and its queue alone. -/
theorem DemEffect.mod_frame {h : Word} {s t : State} (e : DemEffect h s t) :
    t.mod = s.mod ∧ t.modOut = s.modOut := by
  obtain ⟨d, bytes, -, rfl⟩ := e
  exact ⟨rfl, rfl⟩

/-- A move of DEM leaves ILL and the undelivered words alone. -/
theorem DemEffect.global_frame {h : Word} {s t : State} (e : DemEffect h s t) :
    t.ill = s.ill ∧ t.cmdIn = s.cmdIn := by
  obtain ⟨d, bytes, -, rfl⟩ := e
  exact ⟨rfl, rfl⟩

/-- No command changes the undelivered words, and only GRST changes ILL. -/
theorem exec_global_frame {i : Instr} {s t : State} (e : exec i s = .next t) :
    (i ≠ .grst → t.ill = s.ill) ∧ t.cmdIn = s.cmdIn := by
  rcases exec_cases e with ⟨rfl, rfl⟩ | hm | hd
  · exact ⟨fun hne => absurd rfl hne, rfl⟩
  · exact ⟨fun _ => hm.global_frame.1, hm.global_frame.2⟩
  · exact ⟨fun _ => hd.global_frame.1, hd.global_frame.2⟩

/-- Settles O54: a command that does not address a unit is a move of the other one. -/
theorem commandsTouchOneUnit : Obligations.CommandsTouchOneUnit := fun _ _ _ e =>
  ⟨fun hi => (demEffect_of_exec hi e).mod_frame, fun hi => (modEffect_of_exec hi e).dem_frame, exec_global_frame e⟩

end Sys2Proof.Machine
end

section
/-! SUPPORT. A step that finds a whole legal command (20_memory.md R63; 40_control.md R100). -/

namespace Sys2Proof.Machine

/-- The step fetches the command the decoder reads off the channel, and its words are removed. -/
theorem fetch_of_decode {s : State} {i : Instr} {rest : List Word}
    (h : decode s.cmdIn = some (.instr i, rest)) : s.fetch = .command i { s with cmdIn := rest } := by
  unfold decode at h
  unfold State.fetch
  cases htake : takeCommand s.cmdIn with
  | none => simp [htake] at h
  | some command =>
    obtain ⟨hdr, payload, rest'⟩ := command
    simp only [htake, Option.some.injEq, Prod.mk.injEq] at h
    obtain ⟨hdec, rfl⟩ := h
    simp only [hdec]

/-- Settles O4: the step executes what it fetches. -/
theorem stepRunsDecodedInstruction : Obligations.StepRunsDecodedInstruction := by
  intro s i rest h
  rw [step, fetch_of_decode h]

end Sys2Proof.Machine
end

section
/-! SUPPORT. Decode and encode are inverse to each other (30_encoding.md R80 to R88). -/

namespace Sys2Proof

/-- Only the payload can make a command ill formed (R91). -/
theorem wf_iff_length_encodePayload_lt (i : Instr) : i.wf = true ↔ (encodePayload i).length < 65536 := by
  have hfits : i.wf = payloadFits (encodePayload i) := by cases i <;> rfl
  rw [hfits, payloadFits, decide_eq_true_iff]

/-- LEN is a 16-bit field (R81). -/
theorem hdrLen_encodeHeader (i : Instr) : hdrLen (encodeHeader i) = (encodePayload i).length % 65536 := by
  cases i <;> simp [encodeHeader, encodePayload]

/-- LEN of a well-formed command's header is the length of its payload (R80). -/
theorem length_encodePayload {i : Instr} (hi : i.wf = true) :
    (encodePayload i).length = hdrLen (encodeHeader i) := by
  rw [hdrLen_encodeHeader, Nat.mod_eq_of_lt ((wf_iff_length_encodePayload_lt i).1 hi)]

/-- The decoder reads a command back from its header and payload. -/
theorem decodeCommand_encode (i : Instr) : decodeCommand (encodeHeader i) (encodePayload i) = .instr i := by
  cases i
  case mCfgw f v => simp [decodeCommand, decodeMod, decodeCfgw, encodeHeader, encodePayload]
  case dCfgw f v => simp [decodeCommand, decodeDem, decodeCfgw, encodeHeader, encodePayload]
  case nop arg payload => simp [decodeCommand, decodeGlobal, encodeHeader, encodePayload]
  case mByte b => simp [decodeCommand, decodeMod, decodeByte, encodeHeader]
  case dFrame payload => simp [decodeCommand, decodeDem, decodeFrame, encodeHeader, encodePayload]
  case dCls space mark => cases space <;> cases mark <;> rfl
  all_goals rfl

/-- The decoder keeps every payload word. -/
theorem encodePayload_of_decodeCommand {h : Word} {payload : List Word} {i : Instr}
    (hlen : payload.length = hdrLen h) (e : decodeCommand h payload = .instr i) : encodePayload i = payload := by
  obtain rfl := encodeHeader_of_decodeCommand hlen e
  cases i
  case nop arg ws => simpa [decodeCommand, decodeGlobal, encodeHeader, encodePayload, eq_comm] using e
  case dFrame ws => simpa [decodeCommand, decodeDem, decodeFrame, encodeHeader, encodePayload, eq_comm] using e
  case mCfgw f v =>
    simp only [decodeCommand, decodeMod, encodeHeader, hdrUnit_mkHeader, hdrOp_mkHeader] at e
    obtain ⟨f', v', hi, rfl, -⟩ := decodeCfgw_eq_instr e
    cases hi
    rfl
  case dCfgw f v =>
    simp only [decodeCommand, decodeDem, encodeHeader, hdrUnit_mkHeader, hdrOp_mkHeader] at e
    obtain ⟨f', v', hi, rfl, -⟩ := decodeCfgw_eq_instr e
    cases hi
    rfl
  all_goals exact (List.length_eq_zero_iff.1 (hlen.trans (hdrLen_mkHeader _ _ _ _))).symm

/-- A header with its LEN payload words decodes to exactly the command that they encode. -/
theorem decodeCommand_eq_instr_iff {h : Word} {payload : List Word} {i : Instr}
    (hlen : payload.length = hdrLen h) : decodeCommand h payload = .instr i ↔ encode i = h :: payload := by
  constructor
  · intro e
    rw [encode, encodeHeader_of_decodeCommand hlen e, encodePayload_of_decodeCommand hlen e]
  · intro e
    obtain ⟨rfl, rfl⟩ := List.cons.inj e
    exact decodeCommand_encode i

/-- The decoder takes the words of a well-formed command off the stream. -/
theorem decode_encode_append {i : Instr} (hi : i.wf = true) (rest : List Word) :
    decode (encode i ++ rest) = some (.instr i, rest) := by
  have hlen := length_encodePayload hi
  have htake : takeCommand (encode i ++ rest) = some (encodeHeader i, encodePayload i, rest) := by
    rw [encode, List.cons_append, Machine.takeCommand_of_le (by simp [hlen]), ← hlen, List.take_left, List.drop_left]
  simp only [decode, htake, decodeCommand_encode]

/-- Settles O1: the decoder answers exactly what the encoder gives, and LEN bounds the payload. -/
theorem decodeAndEncodeAgree : Obligations.DecodeAndEncodeAgree := by
  refine ⟨fun i rest hi => decode_encode_append hi rest, fun h payload i hlen hdec => ?_⟩
  have hpayload : encodePayload i = payload := encodePayload_of_decodeCommand hlen hdec
  have hlt : hdrLen h < 65536 := (h.extractLsb' 0 16).isLt
  refine ⟨(wf_iff_length_encodePayload_lt i).2 ?_, (decodeCommand_eq_instr_iff hlen).1 hdec⟩
  rwa [hpayload, hlen]

end Sys2Proof
end

section
/-! SUPPORT. What the decoder accepts: the legal headers of R88, and the rows of the opcode table (30_encoding.md R83 to
R88). -/

namespace Sys2Proof

/-! ## The legal headers (R88) -/

theorem exists_decodeBare_iff (i : Instr) (h : Word) :
    (∃ j, decodeBare i h = .instr j) ↔ (hdrArg h).toNat = 0 ∧ hdrLen h = 0 := by
  constructor
  · rintro ⟨j, e⟩
    obtain ⟨-, ha, hl⟩ := decodeBare_eq_instr e
    exact ⟨congrArg BitVec.toNat ha, hl⟩
  · rintro ⟨ha, hl⟩
    have ha : hdrArg h = 0 := BitVec.eq_of_toNat_eq ha
    exact ⟨i, by simp [decodeBare, ha, hl]⟩

theorem exists_decodeCfgw_iff {mk : CfgField → Word → Instr} {h : Word} {payload : List Word}
    (hlen : payload.length = hdrLen h) :
    (∃ j, decodeCfgw mk h payload = .instr j) ↔ (hdrArg h).toNat ≤ 4 ∧ hdrLen h = 1 := by
  have hfield : (cfgFieldOf (hdrArg h)).isSome ↔ (hdrArg h).toNat ≤ 4 := by
    rw [cfgFieldOf_isSome, decide_eq_true_iff]
  rw [← hfield, ← hlen]
  constructor
  · rintro ⟨j, e⟩
    obtain ⟨f, v, -, rfl, ha⟩ := decodeCfgw_eq_instr e
    simp [ha]
  · rintro ⟨hf, hl⟩
    obtain ⟨f, hf⟩ := Option.isSome_iff_exists.1 hf
    obtain ⟨v, rfl⟩ := List.length_eq_one_iff.1 hl
    exact ⟨mk f v, by simp [decodeCfgw, hf]⟩

theorem exists_decodeByte_iff (h : Word) : (∃ j, decodeByte h = .instr j) ↔ hdrLen h = 0 := by
  by_cases hl : hdrLen h = 0 <;> simp [decodeByte, hl]

theorem exists_decodeFrame_iff (h : Word) (payload : List Word) :
    (∃ j, decodeFrame h payload = .instr j) ↔ (hdrArg h).toNat = 0 := by
  have hzero : (hdrArg h).toNat = 0 ↔ hdrArg h = 0#8 := BitVec.toNat_inj (y := 0)
  by_cases ha : hdrArg h = 0#8 <;> simp [decodeFrame, hzero, ha]

/-- ARG[7:2] is zero exactly when ARG is at most 3. -/
theorem extractLsb'_two_six_eq_zero_iff (a : Byte) : a.extractLsb' 2 6 = 0 ↔ a.toNat ≤ 3 := by
  revert a
  decide

theorem exists_decodeCls_iff (h : Word) :
    (∃ j, decodeCls h = .instr j) ↔ (hdrArg h).toNat ≤ 3 ∧ hdrLen h = 0 := by
  rw [← extractLsb'_two_six_eq_zero_iff]
  by_cases ha : (hdrArg h).extractLsb' 2 6 = 0#6 <;> by_cases hl : hdrLen h = 0 <;> simp [decodeCls, ha, hl]

theorem exists_decodeGlobal_iff {h : Word} {payload : List Word} (hu : (hdrUnit h).toNat = 0) :
    (∃ i, decodeGlobal h payload = .instr i) ↔ legal h = true := by
  unfold decodeGlobal
  split
  · next ho => simp [legal, hu, ho]
  · next ho => simp [exists_decodeBare_iff, legal, hu, ho]
  · next => simp_all [legal]

theorem exists_decodeMod_iff {h : Word} {payload : List Word} (hu : (hdrUnit h).toNat = 1)
    (hlen : payload.length = hdrLen h) : (∃ i, decodeMod h payload = .instr i) ↔ legal h = true := by
  unfold decodeMod
  split
  · next ho => simp [exists_decodeCfgw_iff hlen, legal, hu, ho]
  · next ho => simp [exists_decodeBare_iff, legal, hu, ho]
  · next ho => simp [exists_decodeByte_iff, legal, hu, ho]
  · next ho => simp [exists_decodeBare_iff, legal, hu, ho]
  · next ho => simp [exists_decodeBare_iff, legal, hu, ho]
  · next => simp_all [legal]

theorem exists_decodeDem_iff {h : Word} {payload : List Word} (hu : (hdrUnit h).toNat = 2)
    (hlen : payload.length = hdrLen h) : (∃ i, decodeDem h payload = .instr i) ↔ legal h = true := by
  unfold decodeDem
  split
  · next ho => simp [exists_decodeCfgw_iff hlen, legal, hu, ho]
  · next ho => simp [exists_decodeBare_iff, legal, hu, ho]
  · next ho => simp [exists_decodeFrame_iff, legal, hu, ho]
  · next ho => simp [exists_decodeBare_iff, legal, hu, ho]
  · next ho => simp [exists_decodeCls_iff, legal, hu, ho]
  · next ho => simp [exists_decodeBare_iff, legal, hu, ho]
  · next => simp_all [legal]

/-- The decoder answers some command exactly for the legal headers. -/
theorem exists_decodeCommand_iff {h : Word} {payload : List Word} (hlen : payload.length = hdrLen h) :
    (∃ i, decodeCommand h payload = .instr i) ↔ legal h = true := by
  unfold decodeCommand
  split
  · next hu => exact exists_decodeGlobal_iff hu
  · next hu => exact exists_decodeMod_iff hu hlen
  · next hu => exact exists_decodeDem_iff hu hlen
  · next => simp_all [legal]

/-! ## The rows of the opcode table -/

/-- A mask acts on each field of a header by itself. -/
theorem and_mkHeader_eq_iff (h : Word) (mu mo u o : BitVec 4) (ma a : Byte) (ml l : BitVec 16) :
    h &&& mkHeader mu mo ma ml = mkHeader u o a l ↔
      hdrUnit h &&& mu = u ∧ hdrOp h &&& mo = o ∧ hdrArg h &&& ma = a ∧ h.extractLsb' 0 16 &&& ml = l := by
  conv_lhs => rw [header_eq_mkHeader h, mkHeader_and, mkHeader_inj]

/-- A header is the one built from its fields, and no other. -/
theorem eq_mkHeader_iff (h : Word) (u o : BitVec 4) (a : Byte) (l : BitVec 16) :
    h = mkHeader u o a l ↔ hdrUnit h = u ∧ hdrOp h = o ∧ hdrArg h = a ∧ h.extractLsb' 0 16 = l := by
  conv_lhs => rw [header_eq_mkHeader h, mkHeader_inj]

theorem nibble_and_ones (x : BitVec 4) : x &&& 15#4 = x := BitVec.and_allOnes
theorem byte_and_ones (x : Byte) : x &&& 255#8 = x := BitVec.and_allOnes
theorem half_and_ones (x : BitVec 16) : x &&& 65535#16 = x := BitVec.and_allOnes

/-- LEN as the field of a header. -/
theorem ofNat_hdrLen (h : Word) : BitVec.ofNat 16 (hdrLen h) = h.extractLsb' 0 16 :=
  (BitVec.ofNat_toNat _ _).trans (BitVec.setWidth_eq _)

/-- The mask of NOP leaves ARG and LEN free. -/
theorem and_nopMask_iff (h : Word) (u o : BitVec 4) :
    h &&& 0xFF000000 = mkHeader u o 0 0 ↔ h = mkHeader u o (hdrArg h) (BitVec.ofNat 16 (hdrLen h)) := by
  change h &&& mkHeader 0xF 0xF 0 0 = _ ↔ _
  rw [and_mkHeader_eq_iff, eq_mkHeader_iff]
  simp [nibble_and_ones, ofNat_hdrLen]

/-- The mask of M.CFGW, D.CFGW and M.BYTE leaves ARG free. -/
theorem and_argMask_iff (h : Word) (u o : BitVec 4) (l : BitVec 16) :
    h &&& 0xFF00FFFF = mkHeader u o 0 l ↔ h = mkHeader u o (hdrArg h) l := by
  change h &&& mkHeader 0xF 0xF 0 0xFFFF = _ ↔ _
  rw [and_mkHeader_eq_iff, eq_mkHeader_iff]
  simp [nibble_and_ones, half_and_ones]

/-- The mask of D.FRAME leaves LEN free. -/
theorem and_lenMask_iff (h : Word) (u o : BitVec 4) (a : Byte) :
    h &&& 0xFFFF0000 = mkHeader u o a 0 ↔ h = mkHeader u o a (BitVec.ofNat 16 (hdrLen h)) := by
  change h &&& mkHeader 0xF 0xF 0xFF 0 = _ ↔ _
  rw [and_mkHeader_eq_iff, eq_mkHeader_iff]
  simp [nibble_and_ones, byte_and_ones, ofNat_hdrLen]

/-- The mask of D.CLS clears exactly the two bits that carry a class. -/
theorem byte_and_clsMask_iff (x : Byte) : x &&& 252#8 = 0#8 ↔ clsArg (x.getLsbD 0) (x.getLsbD 1) = x := by
  revert x
  decide

/-- The mask of D.CLS leaves ARG[1:0] free. -/
theorem and_clsMask_iff (h : Word) (u o : BitVec 4) (l : BitVec 16) :
    h &&& 0xFFFCFFFF = mkHeader u o 0 l ↔
      h = mkHeader u o (clsArg ((hdrArg h).getLsbD 0) ((hdrArg h).getLsbD 1)) l := by
  change h &&& mkHeader 0xF 0xF 0xFC 0xFFFF = _ ↔ _
  rw [and_mkHeader_eq_iff, eq_mkHeader_iff]
  simp [nibble_and_ones, half_and_ones, byte_and_clsMask_iff, eq_comm (a := hdrArg h)]

theorem and_exactMask (h : Word) : h &&& 0xFFFFFFFF = h := BitVec.and_allOnes

end Sys2Proof

namespace Sys2Proof.Machine

/-- The header belongs to the row: its bits under the mask are the pattern, and ARG meets the bound. -/
abbrev OpcodeRow.Matches (row : OpcodeRow) (h : Word) : Prop :=
  h &&& row.mask = row.pattern ∧ (hdrArg h).toNat ≤ row.maxArg

theorem hdrArg_le_255 (h : Word) : (hdrArg h).toNat ≤ 255 := Nat.le_of_lt_succ (hdrArg h).isLt

theorem hdrArg_cfgw_le (u o : BitVec 4) (f : CfgField) (l : BitVec 16) :
    (hdrArg (mkHeader u o (cfgIndex f) l)).toNat ≤ 4 := by
  cases f <;> simp [cfgIndex]

/-- The header of a command belongs to the row with the command's name. -/
theorem exists_row_of_encodeHeader (i : Instr) :
    ∃ row ∈ opcodeRows, row.mnemonic = mnemonicOf i ∧ row.Matches (encodeHeader i) := by
  cases i
  case nop arg payload =>
    exact ⟨opcodeRows[0], List.getElem_mem _, rfl, (and_nopMask_iff _ 0 0).2
      (header_of_fields (by simp [encodeHeader]) (by simp [encodeHeader]) rfl rfl), hdrArg_le_255 _⟩
  case grst => exact ⟨opcodeRows[1], List.getElem_mem _, rfl, by decide⟩
  case mCfgw f v =>
    exact ⟨opcodeRows[2], List.getElem_mem _, rfl, (and_argMask_iff _ 1 1 1).2 (by simp [encodeHeader]),
      hdrArg_cfgw_le 1 1 f 1⟩
  case mStart => exact ⟨opcodeRows[3], List.getElem_mem _, rfl, by decide⟩
  case mByte b =>
    exact ⟨opcodeRows[4], List.getElem_mem _, rfl, (and_argMask_iff _ 1 3 0).2 (by simp [encodeHeader]),
      hdrArg_le_255 _⟩
  case mEnd => exact ⟨opcodeRows[5], List.getElem_mem _, rfl, by decide⟩
  case mRst => exact ⟨opcodeRows[6], List.getElem_mem _, rfl, by decide⟩
  case dCfgw f v =>
    exact ⟨opcodeRows[7], List.getElem_mem _, rfl, (and_argMask_iff _ 2 1 1).2 (by simp [encodeHeader]),
      hdrArg_cfgw_le 2 1 f 1⟩
  case dStart => exact ⟨opcodeRows[8], List.getElem_mem _, rfl, by decide⟩
  case dFrame payload =>
    exact ⟨opcodeRows[9], List.getElem_mem _, rfl, (and_lenMask_iff _ 2 3 0).2
      (header_of_fields (by simp [encodeHeader]) (by simp [encodeHeader]) (by simp [encodeHeader]) rfl),
      hdrArg_le_255 _⟩
  case dEnd => exact ⟨opcodeRows[10], List.getElem_mem _, rfl, by decide⟩
  case dCls space mark =>
    refine ⟨opcodeRows[11], List.getElem_mem _, rfl, ?_⟩
    cases space <;> cases mark <;> decide
  case dRst => exact ⟨opcodeRows[12], List.getElem_mem _, rfl, by decide⟩

/-- The header of a command without payload, with its LEN payload words, is that command's encoding. -/
theorem encode_of_encodePayload_nil {i : Instr} {h : Word} {payload : List Word}
    (hp : encodePayload i = []) (hlen : payload.length = hdrLen h) (hh : h = encodeHeader i) :
    encode i = h :: payload := by
  subst hh
  rw [hdrLen_encodeHeader, hp] at hlen
  rw [encode, hp, List.length_eq_zero_iff.1 hlen]

/-- The mask and the bound of a CFGW row allow exactly the headers with a field index in ARG. -/
theorem exists_cfgw_of_argMask {u o : BitVec 4} {h : Word} {payload : List Word}
    (hlen : payload.length = hdrLen h) (hmask : h &&& 0xFF00FFFF = mkHeader u o 0 1)
    (harg : (hdrArg h).toNat ≤ 4) : ∃ f v, mkHeader u o (cfgIndex f) 1 :: [v] = h :: payload := by
  have hh := (and_argMask_iff h u o 1).1 hmask
  have hsome : (cfgFieldOf (hdrArg h)).isSome := by simpa [cfgFieldOf_isSome] using harg
  obtain ⟨f, hf⟩ := Option.isSome_iff_exists.1 hsome
  have hone : hdrLen h = 1 := by rw [hh, hdrLen_mkHeader]; rfl
  obtain ⟨v, rfl⟩ := List.length_eq_one_iff.1 (hlen.trans hone)
  exact ⟨f, v, by rw [cfgIndex_of_cfgFieldOf hf, ← hh]⟩

/-- A header of a row, with its payload, is a command with the row's name. -/
theorem exists_encode_of_matches {row : OpcodeRow} (hrow : row ∈ opcodeRows) {h : Word} {payload : List Word}
    (hlen : payload.length = hdrLen h) (hm : row.Matches h) :
    ∃ i, encode i = h :: payload ∧ mnemonicOf i = row.mnemonic := by
  obtain ⟨hmask, harg⟩ := hm
  simp only [opcodeRows, List.mem_cons, List.not_mem_nil, or_false] at hrow
  rcases hrow with rfl | rfl | rfl | rfl | rfl | rfl | rfl | rfl | rfl | rfl | rfl | rfl | rfl
  · exact ⟨.nop (hdrArg h) payload, by
      rw [encode, encodeHeader, hlen, ← (and_nopMask_iff h 0 0).1 hmask, encodePayload], rfl⟩
  · exact ⟨.grst, encode_of_encodePayload_nil rfl hlen (and_exactMask h ▸ hmask), rfl⟩
  · obtain ⟨f, v, e⟩ := exists_cfgw_of_argMask (u := 1) (o := 1) hlen hmask harg
    exact ⟨.mCfgw f v, e, rfl⟩
  · exact ⟨.mStart, encode_of_encodePayload_nil rfl hlen (and_exactMask h ▸ hmask), rfl⟩
  · exact ⟨.mByte (hdrArg h), encode_of_encodePayload_nil rfl hlen ((and_argMask_iff h 1 3 0).1 hmask), rfl⟩
  · exact ⟨.mEnd, encode_of_encodePayload_nil rfl hlen (and_exactMask h ▸ hmask), rfl⟩
  · exact ⟨.mRst, encode_of_encodePayload_nil rfl hlen (and_exactMask h ▸ hmask), rfl⟩
  · obtain ⟨f, v, e⟩ := exists_cfgw_of_argMask (u := 2) (o := 1) hlen hmask harg
    exact ⟨.dCfgw f v, e, rfl⟩
  · exact ⟨.dStart, encode_of_encodePayload_nil rfl hlen (and_exactMask h ▸ hmask), rfl⟩
  · exact ⟨.dFrame payload, by
      rw [encode, encodeHeader, hlen, ← (and_lenMask_iff h 2 3 0).1 hmask, encodePayload], rfl⟩
  · exact ⟨.dEnd, encode_of_encodePayload_nil rfl hlen (and_exactMask h ▸ hmask), rfl⟩
  · exact ⟨.dCls _ _, encode_of_encodePayload_nil rfl hlen ((and_clsMask_iff h 2 5 0).1 hmask), rfl⟩
  · exact ⟨.dRst, encode_of_encodePayload_nil rfl hlen (and_exactMask h ▸ hmask), rfl⟩

/-- Each row has a name of its own. -/
theorem opcodeRows_mnemonics_nodup : (opcodeRows.map OpcodeRow.mnemonic).Nodup := by decide

/-- Settles O2: a header of a row is the header of a command of that row, and the encoder's words are the ones the
decoder accepts. -/
theorem decoderFollowsOpcodeTable : Obligations.DecoderFollowsOpcodeTable := by
  refine fun h payload hlen => ⟨fun row hrow => ⟨?_, fun hm => ?_⟩, exists_decodeCommand_iff hlen⟩
  · rintro ⟨i, hdec, hname⟩
    obtain ⟨row', hrow', hname', hm⟩ := exists_row_of_encodeHeader i
    obtain rfl : row' = row :=
      List.inj_on_of_nodup_map opcodeRows_mnemonics_nodup hrow' hrow (hname'.trans hname)
    rwa [encodeHeader_of_decodeCommand hlen hdec] at hm
  · obtain ⟨i, hi, hname⟩ := exists_encode_of_matches hrow hlen hm
    exact ⟨i, (decodeCommand_eq_instr_iff hlen).2 hi, hname⟩

end Sys2Proof.Machine
end

section
/-! SUPPORT. What a step takes off the command channel, and what it does with an illegal header (30_encoding.md R80,
R89; 20_memory.md R63). -/

namespace Sys2Proof.Machine

/-- Nothing delivered, or not the whole command: the step waits (assumption log entry 3). -/
theorem step_of_takeCommand_none {s : State} (h : takeCommand s.cmdIn = none) : step s = .next s := by
  simp only [step, State.fetch, h]

/-- A whole command with a legal header: the step executes it. -/
theorem step_of_instr {s : State} {h : Word} {payload rest : List Word} {i : Instr}
    (htake : takeCommand s.cmdIn = some (h, payload, rest)) (hdec : decodeCommand h payload = .instr i) :
    step s = exec i { s with cmdIn := rest } := by
  simp only [step, State.fetch, htake, hdec]

/-- A whole command with a header that the decoder rejects: the step has the effect of R89. -/
theorem step_of_reject {s : State} {h : Word} {payload rest : List Word} {why : Reject}
    (htake : takeCommand s.cmdIn = some (h, payload, rest)) (hdec : decodeCommand h payload = .reject why) :
    step s = .next (illegalCommand h { s with cmdIn := rest }) := by
  simp only [step, State.fetch, htake, hdec]

/-- An illegal header leaves the undelivered words alone. -/
theorem illegalCommand_cmdIn (h : Word) (s : State) : (illegalCommand h s).cmdIn = s.cmdIn := by
  rcases illegalCommand_effect h s with e | hm | hd
  · rw [e, State.raiseIllegal_cmdIn]
  · exact hm.global_frame.2
  · exact hd.global_frame.2

/-- A step that finds a whole command removes its words and no others. -/
theorem step_cmdIn_of_takeCommand {s : State} {h : Word} {payload rest : List Word}
    (htake : takeCommand s.cmdIn = some (h, payload, rest)) : ∃ t, step s = .next t ∧ t.cmdIn = rest := by
  cases hdec : decodeCommand h payload with
  | instr i =>
    obtain ⟨t, ht⟩ := exec_next i { s with cmdIn := rest }
    exact ⟨t, (step_of_instr htake hdec).trans ht, (exec_global_frame ht).2⟩
  | reject why => exact ⟨_, step_of_reject htake hdec, illegalCommand_cmdIn h _⟩

/-- Settles O3: `takeCommand` cuts the stream after LEN payload words or leaves it, and nothing later touches the
rest. -/
theorem stepTakesWholeCommands : Obligations.StepTakesWholeCommands := by
  refine ⟨fun i hi => ?_, fun s hs => step_of_takeCommand_none (hs ▸ rfl),
    fun s h ws hs => ⟨fun hle => ?_, fun hlt => ?_⟩⟩
  · rw [encode, List.length_cons, length_encodePayload hi, Nat.add_comm]
  · exact step_cmdIn_of_takeCommand (hs ▸ takeCommand_of_le hle)
  · exact step_of_takeCommand_none (hs ▸ takeCommand_of_lt hlt)

/-- The decoder rejects an illegal header. -/
theorem decodeCommand_of_not_legal {h : Word} {payload : List Word} (hlen : payload.length = hdrLen h)
    (hl : legal h = false) : ∃ why, decodeCommand h payload = .reject why := by
  cases hdec : decodeCommand h payload with
  | instr i => exact absurd ((exists_decodeCommand_iff hlen).1 ⟨i, hdec⟩) (by simp [hl])
  | reject why => exact ⟨why, rfl⟩

/-- An illegal header at the head of the channel, with its payload delivered. -/
theorem step_of_not_legal {s : State} {h : Word} {ws : List Word} (hs : s.cmdIn = h :: ws)
    (hle : hdrLen h ≤ ws.length) (hl : legal h = false) :
    step s = .next (illegalCommand h { s with cmdIn := ws.drop (hdrLen h) }) := by
  obtain ⟨why, hdec⟩ := decodeCommand_of_not_legal (List.length_take_of_le hle) hl
  exact step_of_reject (hs ▸ takeCommand_of_le hle) hdec

/-- Settles O5: UNIT and the state of the unit decide which of the five cases of `illegalCommand_cases` it is. -/
theorem stepOnIllegalHeader : Obligations.StepOnIllegalHeader := by
  intro s h ws hs hle hl s'
  have hstep : step s = .next (illegalCommand h s') := step_of_not_legal hs hle hl
  rw [hstep]
  rcases illegalCommand_cases h s' with
    ⟨h1, h2, e⟩ | ⟨hu, he, e⟩ | ⟨hu, hne, e⟩ | ⟨hu, he, e⟩ | ⟨hu, hne, e⟩ <;> rw [e]
  · exact ⟨fun _ => rfl, fun h => absurd h h1, fun h => absurd h h1, fun h => absurd h h2, fun h => absurd h h2⟩
  · exact ⟨by omega, fun _ hne => absurd he hne, fun _ _ => rfl, by omega, by omega⟩
  · exact ⟨by omega, fun _ _ => rfl, fun _ he => absurd he hne, by omega, by omega⟩
  · exact ⟨by omega, by omega, by omega, fun _ hne => absurd he hne, fun _ _ => rfl⟩
  · exact ⟨by omega, by omega, by omega, fun _ _ => rfl, fun _ he => absurd he hne⟩

end Sys2Proof.Machine
end

section
/-! SUPPORT. Words of the spec's examples, and the samples that a D.FRAME payload carries (30_encoding.md R81, R87,
R88, R93). -/

namespace Sys2Proof

/-- Settles O6: the first six are encodings of well-formed commands; field index 5 is none (R103). -/
theorem specWordsDecode : Obligations.SpecWordsDecode :=
  ⟨decode_encode_append (i := .mCfgw .baud 1000) rfl [], decode_encode_append (i := .mByte 1) rfl [0x14000000],
    decode_encode_append (i := .dCls false true) rfl [], decode_encode_append (i := .dFrame [0x7FFF0000]) rfl [],
    decode_encode_append (i := .grst) rfl [], decode_encode_append (i := .nop 0xFF [0x12345678]) rfl [], rfl⟩

namespace Machine

/-- Sample `i` is the low half of its word for even `i`, the high half for odd `i`. -/
theorem sampleAt_eq_half (payload : List Word) (i : Nat) :
    sampleAt payload i = if i % 2 = 0 then (payload.getD (i / 2) 0).extractLsb' 0 16
      else (payload.getD (i / 2) 0).extractLsb' 16 16 := by
  rcases Nat.mod_two_eq_zero_or_one i with h | h <;> rw [sampleAt, h] <;> rfl

/-- The samples of the words before the last one. -/
theorem sampleAt_append_of_lt {ws : List Word} {i : Nat} (hi : i < 2 * ws.length) (last : List Word) :
    sampleAt (ws ++ last) i = sampleAt ws i := by
  rw [sampleAt, sampleAt, List.getD_append _ _ _ _ (by omega)]

/-- The even sample of the last word. -/
theorem sampleAt_append_last (ws : List Word) (hi lo : Sample) :
    sampleAt (ws ++ [hi ++ lo]) (2 * ws.length) = lo := by
  induction ws with
  | nil => exact sampleAt_cons_zero hi lo []
  | cons w ws ih => exact (sampleAt_cons_add_two w _ _).trans ih

/-- With an odd number of samples the last word gives its low half only. -/
theorem frameSamples_append_last (ws : List Word) (hi lo : Sample) :
    frameSamples (2 * ws.length + 1) (ws ++ [hi ++ lo]) = frameSamples (2 * ws.length) ws ++ [lo] := by
  have hbefore : (List.range (2 * ws.length)).map (sampleAt (ws ++ [hi ++ lo])) =
      (List.range (2 * ws.length)).map (sampleAt ws) :=
    List.map_congr_left fun i hi => sampleAt_append_of_lt (List.mem_range.1 hi) _
  rw [frameSamples, List.range_succ, List.map_append, hbefore, List.map_singleton, sampleAt_append_last, frameSamples]

/-- Settles O7: each sample is a half of its word, and the last upper half of an odd frame is no sample's. -/
theorem framePayloadPacking : Obligations.FramePayloadPacking := by
  refine ⟨fun n payload => ⟨by simp [frameSamples], fun i hi => ?_⟩, ?_⟩
  · rw [← sampleAt_eq_half]
    simp [frameSamples, hi]
  · rintro _ ws lo hi hi' rfl
    rw [frameSamples_append_last, frameSamples_append_last]

end Machine

end Sys2Proof
end

section
/-! SUPPORT. The commands of `m.init` and `d.init`, run on a unit in IDLE (30_encoding.md R94; 40_control.md R104 to
R111; 70_reset_and_hazards.md R234). -/

namespace Sys2Proof.Machine

/-! ## The configuration writes -/

/-- The raw registers after a sequence of writes. -/
def RawCfg.writeAll (c : RawCfg) (ws : List (CfgField × Word)) : RawCfg :=
  ws.foldl (fun c w => c.write w.1 w.2) c

/-- The writes of `m.init` and `d.init`: an omitted field has none (R94). -/
def initWrites (b sp mk : Word) (sr spf : Option Word) : List (CfgField × Word) :=
  [(.baud, b), (.space, sp), (.mark, mk)] ++ (sr.map (CfgField.sampleRate, ·)).toList
    ++ (spf.map (CfgField.samplesPerFrame, ·)).toList

theorem asmModInit_eq (b sp mk : Word) (sr spf : Option Word) :
    asmModInit b sp mk sr spf = (initWrites b sp mk sr spf).map (fun w => .mCfgw w.1 w.2) ++ [.mStart] := by
  cases sr <;> cases spf <;> rfl

theorem asmDemInit_eq (b sp mk : Word) (sr spf : Option Word) :
    asmDemInit b sp mk sr spf = (initWrites b sp mk sr spf).map (fun w => .dCfgw w.1 w.2) ++ [.dStart] := by
  cases sr <;> cases spf <;> rfl

/-- A field that is given takes its value, and an omitted one keeps its register. -/
theorem writeAll_initWrites (c : RawCfg) (b sp mk : Word) (sr spf : Option Word) :
    c.writeAll (initWrites b sp mk sr spf) = ⟨b, sp, mk, sr.getD c.sr, spf.getD c.spf⟩ := by
  cases sr <;> cases spf <;> rfl

/-- In IDLE any sequence of M.CFGW is accepted and changes the raw registers alone (R104). -/
theorem runsTo_mCfgw (ws : List (CfgField × Word)) {s : State} (hs : s.mod.state = .idle) :
    RunsTo (ws.map fun w => .mCfgw w.1 w.2) s
      { s with mod := { s.mod with cfg := s.mod.cfg.writeAll ws } } := by
  induction ws generalizing s with
  | nil => rfl
  | cons w ws ih =>
    exact ⟨writeModCfg w.1 w.2 s, congrArg Host.Outcome.next (modCommand_config hs),
      ih (s := writeModCfg w.1 w.2 s) hs⟩

/-- In IDLE any sequence of D.CFGW is accepted and changes the raw registers alone (R105). -/
theorem runsTo_dCfgw (ws : List (CfgField × Word)) {s : State} (hs : s.dem.state = .idle) :
    RunsTo (ws.map fun w => .dCfgw w.1 w.2) s
      { s with dem := { s.dem with cfg := s.dem.cfg.writeAll ws } } := by
  induction ws generalizing s with
  | nil => rfl
  | cons w ws ih =>
    exact ⟨writeDemCfg w.1 w.2 s, congrArg Host.Outcome.next (demCommand_config hs),
      ih (s := writeDemCfg w.1 w.2 s) hs⟩

/-- `m.init` is its writes, then M.START on the configuration they leave. -/
theorem runsTo_asmModInit {b sp mk : Word} {sr spf : Option Word} {s t : State} (hs : s.mod.state = .idle)
    (ht : exec .mStart { s with mod := { s.mod with
      cfg := ⟨b, sp, mk, sr.getD s.mod.cfg.sr, spf.getD s.mod.cfg.spf⟩ } } = .next t) :
    RunsTo (asmModInit b sp mk sr spf) s t := by
  rw [← writeAll_initWrites] at ht
  rw [asmModInit_eq, runsTo_append]
  exact ⟨_, runsTo_mCfgw _ hs, t, ht, rfl⟩

/-- `d.init` is its writes, then D.START on the configuration they leave. -/
theorem runsTo_asmDemInit {b sp mk : Word} {sr spf : Option Word} {s t : State} (hs : s.dem.state = .idle)
    (ht : exec .dStart { s with dem := { s.dem with
      cfg := ⟨b, sp, mk, sr.getD s.dem.cfg.sr, spf.getD s.dem.cfg.spf⟩ } } = .next t) :
    RunsTo (asmDemInit b sp mk sr spf) s t := by
  rw [← writeAll_initWrites] at ht
  rw [asmDemInit_eq, runsTo_append]
  exact ⟨_, runsTo_dCfgw _ hs, t, ht, rfl⟩

/-! ## M.START on a valid configuration -/

/-- In IDLE a configuration that validates makes M.START construct MOD (R110). -/
theorem exec_mStart_of_validate_ok {s : State} {sr spf : Nat} (hs : s.mod.state = .idle)
    (e : validate .mod s.mod.cfg = .ok sr spf) :
    exec .mStart s = .next { s with mod := { s.mod with
      state := .run, first := true, buf := [], srEff := BitVec.ofNat 32 sr, spfEff := BitVec.ofNat 32 spf,
      nsym := BitVec.ofNat 32 (sr / s.mod.cfg.baud.toNat) } } := by
  change Host.Outcome.next (modCommand _ _ _ s) = _
  rw [modCommand_config hs, startMod, e]

/-- The symbol length fits its register, and that many samples a symbol make up the sample rate (R110). -/
theorem nsym_mul_baud_of_validate {c : RawCfg} {sr spf : Nat} (e : validate .mod c = .ok sr spf) :
    (BitVec.ofNat 32 (sr / c.baud.toNat)).toNat * c.baud.toNat = sr := by
  obtain ⟨-, -, -, rfl, -, -, -, hdvd⟩ := validate_eq_ok e
  have hfits : c.effSr / c.baud.toNat < 2 ^ 32 := (Nat.div_le_self _ _).trans_lt (effSr_bounds c).2
  rw [BitVec.toNat_ofNat, Nat.mod_eq_of_lt hfits, Nat.div_mul_cancel (Nat.dvd_of_mod_eq_zero (hdvd rfl))]

/-- Settles O22: in IDLE the writes are accepted and make the configuration valid, so START constructs the unit. -/
theorem initReachesRunningState : Obligations.InitReachesRunningState := by
  intro b sp mk r p s hb hsp hmk cfgOf sr spf
  constructor
  · intro c hidle hspf1 hspf2 hint
    have hok : validate .mod c = .ok (sr c) (spf c) := validate_of_valid hb hsp hmk hspf1 hspf2 fun _ => hint
    have hspf := spfEff_of_validate hok
    exact ⟨_, runsTo_asmModInit hidle (exec_mStart_of_validate_ok hidle hok),
      ⟨rfl, rfl, rfl, hspf.symm ▸ hspf1⟩, srEff_of_validate hok, hspf, nsym_mul_baud_of_validate hok, rfl⟩
  · intro c hidle hspf1 hspf2
    obtain ⟨t, hexec, hsr, hspf, hk, ht⟩ :=
      demStartConstructs { s with dem := { s.dem with cfg := c } } hidle hb hsp hmk hspf1 hspf2
    have hpos : 0 < t.dem.ksym.toNat := Nat.pos_of_ne_zero fun h0 =>
      absurd ((hk 0).1 h0.le) (by rw [Nat.zero_mul]; exact Nat.not_le.2 (effSr_bounds c).1)
    have hfresh : DemFresh t.dem :=
      ⟨by rw [ht], by rw [ht], by rw [ht], by rw [ht], by rw [ht], by rw [ht], hpos⟩
    exact ⟨t, runsTo_asmDemInit hidle hexec, hfresh, hsr, hspf, hk, ht⟩

end Sys2Proof.Machine
end

section
/-! SUPPORT. NOP, the pops and CFGW (40_control.md R101, R103 to R105, R115, R116; 20_memory.md R61). -/

namespace Sys2Proof.Machine

/-- Settles O11: NOP answers the state it is given. -/
theorem nopChangesNothing : Obligations.NopChangesNothing := fun _ _ _ => rfl

/-! ## The pops -/

theorem State.mpop_of_nil {s : State} (h : s.modOut = []) : s.mpop = (none, s) := by
  simp only [State.mpop, h]

theorem State.mpop_of_cons {s : State} {item : ModItem} {rest : List ModItem} (h : s.modOut = item :: rest) :
    s.mpop = (some item, { s with modOut := rest }) := by
  simp only [State.mpop, h]

theorem State.dpop_of_nil {s : State} (h : s.demOut = []) : s.dpop = (none, s) := by
  simp only [State.dpop, h]

theorem State.dpop_of_cons {s : State} {b : Byte} {rest : List Byte} (h : s.demOut = b :: rest) :
    s.dpop = (some b, { s with demOut := rest }) := by
  simp only [State.dpop, h]

/-- Settles O13: a pop does what the first cell of its queue says. -/
theorem popsTakeTheHead : Obligations.PopsTakeTheHead := fun _ =>
  ⟨State.mpop_of_nil, fun _ _ => State.mpop_of_cons, State.dpop_of_nil, fun _ _ => State.dpop_of_cons⟩

/-! ## The raw configuration registers -/

/-- A write of one raw register is read back there and leaves the other four alone (R103). -/
theorem RawCfg.read_write (c : RawCfg) (f : CfgField) (v : Word) (g : CfgField) :
    (c.write f v).read g = if g = f then v else c.read g := by
  cases f <;> cases g <;> rfl

/-- MOD's raw registers stand in field order from address 0x110 (R28, R61). -/
theorem State.regRead_mod_cfg (s : State) (f : CfgField) :
    s.regRead (BitVec.ofNat 12 (0x110 + 4 * (cfgIndex f).toNat)) = s.mod.cfg.read f := by
  cases f <;> rfl

/-- DEM's raw registers stand in field order from address 0x210 (R34, R61). -/
theorem State.regRead_dem_cfg (s : State) (f : CfgField) :
    s.regRead (BitVec.ofNat 12 (0x210 + 4 * (cfgIndex f).toNat)) = s.dem.cfg.read f := by
  cases f <;> rfl

/-- In IDLE M.CFGW runs its rule (R104). -/
theorem exec_mCfgw_of_idle {s : State} (f : CfgField) (v : Word) (hs : s.mod.state = .idle) :
    exec (.mCfgw f v) s = .next (writeModCfg f v s) :=
  congrArg Host.Outcome.next (modCommand_config hs)

/-- In IDLE D.CFGW runs its rule (R105). -/
theorem exec_dCfgw_of_idle {s : State} (f : CfgField) (v : Word) (hs : s.dem.state = .idle) :
    exec (.dCfgw f v) s = .next (writeDemCfg f v s) :=
  congrArg Host.Outcome.next (demCommand_config hs)

/-- Settles O15: in IDLE CFGW writes one raw register, and the register's address reads that register. -/
theorem cfgwWritesOneRegister : Obligations.CfgwWritesOneRegister := by
  intro f v s
  constructor
  · intro hidle
    refine ⟨_, exec_mCfgw_of_idle f v hidle, rfl, RawCfg.read_write _ f v, ?_⟩
    rw [State.regRead_mod_cfg, writeModCfg_mod, RawCfg.read_write, if_pos rfl]
  · intro hidle
    refine ⟨_, exec_dCfgw_of_idle f v hidle, rfl, RawCfg.read_write _ f v, ?_⟩
    rw [State.regRead_dem_cfg, writeDemCfg_dem, RawCfg.read_write, if_pos rfl]

end Sys2Proof.Machine
end

section
/-! SUPPORT. Legal commands in a state that does not accept them (40_control.md R100; 60_exceptions.md R203). -/

namespace Sys2Proof.Machine

/-- Outside ERROR, where StateOK is false, a command of MOD raises E_STATE. -/
theorem modCommand_of_refused {h : Word} {ok : ModState → Bool} {act : State → State} {s : State}
    (hs : s.mod.state ≠ .error) (hok : ok s.mod.state = false) :
    modCommand h ok act s = s.raiseFault .mod .state h := by
  rcases modCommand_cases h ok act s with ⟨he, -⟩ | ⟨-, hk, -⟩ | ⟨-, -, e⟩
  · exact absurd he hs
  · exact absurd hk (by simp [hok])
  · exact e

/-- Outside ERROR, where StateOK is false, a command of DEM raises E_STATE. -/
theorem demCommand_of_refused {h : Word} {ok : DemState → Bool} {act : State → State} {s : State}
    (hs : s.dem.state ≠ .error) (hok : ok s.dem.state = false) :
    demCommand h ok act s = s.raiseFault .dem .state h := by
  rcases demCommand_cases h ok act s with ⟨he, -⟩ | ⟨-, hk, -⟩ | ⟨-, -, e⟩
  · exact absurd he hs
  · exact absurd hk (by simp [hok])
  · exact e

theorem ModState.refusesConfig {x : ModState} (hx : x = .run ∨ x = .done) :
    x ≠ .error ∧ x.acceptsConfig = false := by
  rcases hx with rfl | rfl <;> simp [ModState.acceptsConfig]

theorem ModState.refusesStream {x : ModState} (hx : x = .idle ∨ x = .done) :
    x ≠ .error ∧ x.acceptsStream = false := by
  rcases hx with rfl | rfl <;> simp [ModState.acceptsStream]

theorem DemState.refusesConfig {x : DemState} (hx : x ≠ .idle) : x.acceptsConfig = false :=
  Bool.eq_false_iff.2 fun h => hx ((DemState.acceptsConfig_iff x).1 h)

theorem DemState.refusesStream {x : DemState} (hx : x = .idle ∨ x = .done) :
    x ≠ .error ∧ x.acceptsStream = false := by
  rcases hx with rfl | rfl <;> simp [DemState.acceptsStream]

/-- Settles O16: each command is its unit's check around its rule, and the check refuses. -/
theorem wrongStateRaisesEState : Obligations.WrongStateRaisesEState := by
  intro s fm fd
  refine ⟨fun hs => ?modConfig, fun hs => ?modStream, fun hidle herror => ?demConfig, fun hs => ?demStream⟩
  case modConfig =>
    obtain ⟨herror, hok⟩ := ModState.refusesConfig hs
    exact ⟨fun _ _ => congrArg Host.Outcome.next (modCommand_of_refused herror hok),
      congrArg Host.Outcome.next (modCommand_of_refused herror hok)⟩
  case modStream =>
    obtain ⟨herror, hok⟩ := ModState.refusesStream hs
    exact ⟨fun _ => congrArg Host.Outcome.next (modCommand_of_refused herror hok),
      congrArg Host.Outcome.next (modCommand_of_refused herror hok)⟩
  case demConfig =>
    have hok := DemState.refusesConfig hidle
    exact ⟨fun _ _ => congrArg Host.Outcome.next (demCommand_of_refused herror hok),
      congrArg Host.Outcome.next (demCommand_of_refused herror hok)⟩
  case demStream =>
    obtain ⟨herror, hok⟩ := DemState.refusesStream hs
    exact ⟨fun _ => congrArg Host.Outcome.next (demCommand_of_refused herror hok),
      congrArg Host.Outcome.next (demCommand_of_refused herror hok),
      fun _ _ => congrArg Host.Outcome.next (demCommand_of_refused herror hok)⟩

end Sys2Proof.Machine
end

section
/-! SUPPORT. START: the valid configuration of MOD, the causes of an invalid one, and the default frame size
(40_control.md R106 to R111). -/

namespace Sys2Proof.Machine

/-- Settles O18: validation answers the effective values, and each fits its register. -/
theorem modStartConstructs : Obligations.ModStartConstructs := by
  intro s c sr spf hidle hbaud hspace hmark hspf1 hspf2 hint
  have hok : validate .mod c = .ok sr spf := validate_of_valid hbaud hspace hmark hspf1 hspf2 fun _ => hint
  exact ⟨_, exec_mStart_of_validate_ok hidle hok, srEff_of_validate hok, spfEff_of_validate hok,
    nsym_mul_baud_of_validate hok, rfl⟩

/-! ## The causes, in the order of R106 -/

section
variable {u : UnitId} {c : RawCfg}

theorem validate_of_missing (h : c.baud = 0 ∨ c.space = 0 ∨ c.mark = 0) :
    validate u c = .cause .cfgMissing := if_pos h

theorem validate_of_spf_zero (h : ¬ (c.baud = 0 ∨ c.space = 0 ∨ c.mark = 0)) (h0 : c.effSpf = 0) :
    validate u c = .cause .cfgSpfZero := by
  rw [validate, if_neg h, if_pos h0]

theorem validate_of_spf_large (h : ¬ (c.baud = 0 ∨ c.space = 0 ∨ c.mark = 0)) (hbig : Config.spfMax < c.effSpf) :
    validate u c = .cause .cfgSpfRange := by
  rw [validate, if_neg h, if_neg (Nat.ne_zero_of_lt hbig), if_pos hbig]

/-- The last check is MOD's alone (R106). -/
theorem validate_of_nonint (h : ¬ (c.baud = 0 ∨ c.space = 0 ∨ c.mark = 0)) (h1 : 1 ≤ c.effSpf)
    (h2 : c.effSpf ≤ Config.spfMax) (hr : c.effSr % c.baud.toNat ≠ 0) : validate .mod c = .cause .cfgNonint := by
  rw [validate, if_neg h, if_neg (Nat.ne_zero_of_lt h1), if_neg (Nat.not_lt.2 h2), if_pos ⟨rfl, hr⟩]

end

/-- In IDLE a cause makes M.START raise it: three writes, the header among them (R110, R203). -/
theorem exec_mStart_of_validate_cause {s : State} {x : Cause} (hs : s.mod.state = .idle)
    (e : validate .mod s.mod.cfg = .cause x) :
    exec .mStart s = .next { s with mod := { s.mod with state := .error, cause := x, fcmd := 0x12000000 } } := by
  change Host.Outcome.next (modCommand _ _ _ s) = _
  rw [modCommand_config hs, startMod, e]
  rfl

/-- In IDLE a cause makes D.START raise it: three writes, the header among them (R111, R203). -/
theorem exec_dStart_of_validate_cause {s : State} {x : Cause} (hs : s.dem.state = .idle)
    (e : validate .dem s.dem.cfg = .cause x) :
    exec .dStart s = .next { s with dem := { s.dem with state := .error, cause := x, fcmd := 0x22000000 } } := by
  change Host.Outcome.next (demCommand _ _ _ s) = _
  rw [demCommand_config hs, startDem, e]
  rfl

/-- Settles O20: START raises what validation answers. -/
theorem startFaultsInOrder : Obligations.StartFaultsInOrder := by
  intro s fm fd
  constructor
  · intro hs
    exact ⟨fun h => exec_mStart_of_validate_cause hs (validate_of_missing h),
      fun h h0 => exec_mStart_of_validate_cause hs (validate_of_spf_zero h h0),
      fun h hbig => exec_mStart_of_validate_cause hs (validate_of_spf_large h hbig),
      fun h h1 h2 hr => exec_mStart_of_validate_cause hs (validate_of_nonint h h1 h2 hr)⟩
  · intro hs
    exact ⟨fun h => exec_dStart_of_validate_cause hs (validate_of_missing h),
      fun h h0 => exec_dStart_of_validate_cause hs (validate_of_spf_zero h h0),
      fun h hbig => exec_dStart_of_validate_cause hs (validate_of_spf_large h hbig)⟩

/-! ## The default frame size (R108) -/

/-- From IDLE, M.START reaches RUN on a valid configuration alone. -/
theorem validate_of_exec_mStart_run {s t : State} (hs : s.mod.state = .idle) (e : exec .mStart s = .next t)
    (ht : t.mod.state = .run) : ∃ sr spf, validate .mod s.mod.cfg = .ok sr spf := by
  cases hv : validate .mod s.mod.cfg with
  | ok sr spf => exact ⟨sr, spf, rfl⟩
  | cause x =>
    obtain rfl := Host.Outcome.next.inj ((exec_mStart_of_validate_cause hs hv).symm.trans e)
    cases ht

/-- From IDLE, D.START reaches PREAMBLE_SPACE on a valid configuration alone. -/
theorem validate_of_exec_dStart_preamble {s t : State} (hs : s.dem.state = .idle)
    (e : exec .dStart s = .next t) (ht : t.dem.state = .preambleSpace) :
    ∃ sr spf, validate .dem s.dem.cfg = .ok sr spf := by
  cases hv : validate .dem s.dem.cfg with
  | ok sr spf => exact ⟨sr, spf, rfl⟩
  | cause x =>
    obtain rfl := Host.Outcome.next.inj ((exec_dStart_of_validate_cause hs hv).symm.trans e)
    cases ht

section
variable {u : UnitId} {c : RawCfg} {sr spf : Nat}

/-- A validated configuration has a baud rate and at least one sample to a frame. -/
theorem baud_pos_spf_pos_of_validate (e : validate u c = .ok sr spf) : 0 < c.baud.toNat ∧ 0 < spf := by
  obtain ⟨hbaud, -, -, -, -, hspf, -⟩ := validate_eq_ok e
  exact ⟨Nat.pos_of_ne_zero fun h0 => hbaud (BitVec.eq_of_toNat_eq (by simpa using h0)), hspf⟩

/-- The defaulted frame size is `sr div (5 · baud)`, so five frames last at most a symbol. -/
theorem five_mul_frame_le_of_validate (e : validate u c = .ok sr spf) (h0 : c.spf = 0) :
    5 * (spf * c.baud.toNat) ≤ sr := by
  obtain ⟨-, -, -, rfl, rfl, -⟩ := validate_eq_ok e
  calc 5 * (c.effSpf * c.baud.toNat)
      = c.effSr / (5 * c.baud.toNat) * (5 * c.baud.toNat) := by rw [RawCfg.effSpf, if_pos h0]; ring
    _ ≤ c.effSr := Nat.div_mul_le_self _ _

/-- Five frames are at most NSYM samples. -/
theorem five_mul_spf_le_nsym_of_validate (e : validate .mod c = .ok sr spf) (h0 : c.spf = 0) :
    5 * spf ≤ (BitVec.ofNat 32 (sr / c.baud.toNat)).toNat := by
  refine Nat.le_of_mul_le_mul_right ?_ (baud_pos_spf_pos_of_validate e).1
  rw [nsym_mul_baud_of_validate e, Nat.mul_assoc]
  exact five_mul_frame_le_of_validate e h0

/-- Four frames do not last a symbol, so K, the least number that does (R6), is at least 5. -/
theorem five_le_ksym_of_validate (e : validate u c = .ok sr spf) (h0 : c.spf = 0) :
    5 ≤ (BitVec.ofNat 32 (ceilDiv sr (spf * c.baud.toNat))).toNat := by
  obtain ⟨hbaud, hspf⟩ := baud_pos_spf_pos_of_validate e
  have hframe : 0 < spf * c.baud.toNat := Nat.mul_pos hspf hbaud
  have hfive := five_mul_frame_le_of_validate e h0
  rw [(ksym_of_validate e).2]
  by_contra hlt
  have hfour : sr ≤ 4 * (spf * c.baud.toNat) := (ceilDiv_le_iff hframe).1 (by omega)
  omega

end

/-- Settles O21: a START that succeeds has validated, and the defaulted frame size is a fifth of a symbol rounded
down. -/
theorem defaultFrameGivesFivePerSymbol : Obligations.DefaultFrameGivesFivePerSymbol := by
  intro s t
  constructor
  · intro hs h0 e ht
    obtain ⟨sr, spf, hv⟩ := validate_of_exec_mStart_run hs e ht
    obtain rfl := Host.Outcome.next.inj ((exec_mStart_of_validate_ok hs hv).symm.trans e)
    dsimp only
    rw [srEff_of_validate hv, spfEff_of_validate hv]
    exact ⟨five_mul_frame_le_of_validate hv h0, five_mul_spf_le_nsym_of_validate hv h0⟩
  · intro hs h0 e ht
    obtain ⟨sr, spf, hv⟩ := validate_of_exec_dStart_preamble hs e ht
    obtain rfl := Host.Outcome.next.inj ((exec_dStart_of_validate_ok hs hv).symm.trans e)
    dsimp only
    rw [srEff_of_validate hv, spfEff_of_validate hv]
    exact ⟨five_mul_frame_le_of_validate hv h0, five_le_ksym_of_validate hv h0⟩

end Sys2Proof.Machine
end

section
/-! SUPPORT. The symbols and the sample sequence of a stream (41_modulator.md R130 to R137). -/

namespace Sys2Proof.Machine

/-! ## Tones -/

/-- The sample at index 0 is on the grid, at index 0 of the table, for every tone and sample rate (R132). -/
@[simp] theorem tonePcm_zero (f sr : ℕ) : tonePcm f sr 0 = 0 := by
  rw [tonePcm_of_grid (by simp), Nat.mul_zero, Nat.zero_div]
  rfl

/-- The table of R134, entry by entry as signed integers. -/
theorem gridTone_toInt {r : ℕ} (hr : r < 8) :
    (gridTone r).toInt = [0, 23169, 32767, 23169, 0, -23170, -32768, -23170].getD r 0 := by
  interval_cases r <;> rfl

/-- Settles O24: on the grid TONE_PCM is the table's entry, and each entry is PCM16 of its sine. -/
theorem gridTonesAreExactSines : Obligations.GridTonesAreExactSines := by
  intro f sr j hsr hgrid
  refine ⟨?_, tonePcm_isPcm16_of_grid hsr hgrid⟩
  rw [tonePcm_of_grid hgrid]
  exact gridTone_toInt (Nat.mod_lt _ (by norm_num))

/-! ## Symbols -/

@[simp] theorem length_sym (m : ModUnit) (b : Bool) : (sym m b).length = m.nsym.toNat := by
  simp [sym]

theorem getElem?_sym (m : ModUnit) (b : Bool) {j : ℕ} (hj : j < m.nsym.toNat) :
    (sym m b)[j]? = some (tonePcm (m.freq b) m.srEff.toNat j) := by
  simp [sym, hj]

/-- Settles O23: the samples of a symbol depend on the index within the symbol alone. -/
theorem symbolRestartsAtZero : Obligations.SymbolRestartsAtZero := fun m b =>
  ⟨length_sym m b, fun _ hj => getElem?_sym m b hj, fun h0 => by rw [getElem?_sym m b h0, tonePcm_zero]⟩

/-! ## Preamble, bytes and streams -/

/-- A byte is the symbols of its bits in transmission order (R136). -/
theorem byteSamples_eq_flatMap_byteBits (m : ModUnit) (b : Byte) :
    byteSamples m b = (byteBits b).flatMap (sym m) := by
  rw [byteSamples, byteBits, List.flatMap_map]

/-- A byte is eight symbols, bit 0 first (R136). -/
theorem byteSamples_eq_append (m : ModUnit) (b : Byte) :
    byteSamples m b = sym m (b.getLsbD 0) ++ sym m (b.getLsbD 1) ++ sym m (b.getLsbD 2)
      ++ sym m (b.getLsbD 3) ++ sym m (b.getLsbD 4) ++ sym m (b.getLsbD 5) ++ sym m (b.getLsbD 6)
      ++ sym m (b.getLsbD 7) := by
  simp [byteSamples, List.range_succ]

@[simp] theorem length_byteSamples (m : ModUnit) (b : Byte) :
    (byteSamples m b).length = 8 * m.nsym.toNat := by
  simp [byteSamples_eq_append]
  ring

@[simp] theorem length_preambleSamples (m : ModUnit) : (preambleSamples m).length = 2 * m.nsym.toNat := by
  simp [preambleSamples, Nat.two_mul]

theorem streamSamples_nil (m : ModUnit) : streamSamples m [] = [] := rfl

theorem streamSamples_of_ne_nil (m : ModUnit) {bs : List Byte} (h : bs ≠ []) :
    streamSamples m bs = preambleSamples m ++ bs.flatMap (byteSamples m) := by
  simp [streamSamples, h]

/-- One byte more: the preamble if it is the first byte, and the byte's symbols (R137, R138). -/
theorem streamSamples_concat (m : ModUnit) (bs : List Byte) (b : Byte) :
    streamSamples m (bs ++ [b]) =
      streamSamples m bs ++ ((if bs.isEmpty then preambleSamples m else []) ++ byteSamples m b) := by
  cases bs <;> simp [streamSamples]

/-- Settles O27: preamble and bytes written out symbol by symbol, and their lengths added up. -/
theorem streamSampleSequence : Obligations.StreamSampleSequence := by
  refine fun m bs => ⟨streamSamples_nil m, fun h => ?_⟩
  rw [streamSamples_of_ne_nil m h]
  constructor
  · rw [preambleSamples, funext (byteSamples_eq_append m)]
  · simp [List.length_flatMap]
    ring

end Sys2Proof.Machine
end

section
/-! SUPPORT. Cutting a sample sequence into frames (41_modulator.md R138 to R140): what it is to be the complete
frames and the leftover of a sequence, and that the framer answers them. -/

namespace Sys2Proof.Machine

/-- `frames` are the complete frames of `spf` samples of the sequence `all`, and `rest` its leftover. -/
structure Framed (spf : ℕ) (all : List Sample) (frames : List (List Sample)) (rest : List Sample) : Prop where
  concat : frames.flatten ++ rest = all
  frame_length : ∀ f ∈ frames, f.length = spf
  rest_length : rest.length < spf

/-- The framer answers the complete frames of its buffer and the leftover (R138). -/
theorem slice_framed {spf : ℕ} (hspf : 0 < spf) (buf : List Sample) :
    ∃ frames : List (List Sample), (slice spf buf).1 = frames.map .frame ∧
      Framed spf buf frames (slice spf buf).2 := by
  obtain ⟨frames, hitems, hconcat, hlen, hrest⟩ := slice_spec hspf buf
  exact ⟨frames, hitems, hconcat, hlen, hrest⟩

namespace Framed

variable {spf : ℕ} {all rest : List Sample} {frames : List (List Sample)}

theorem nil (hspf : 0 < spf) : Framed spf [] [] [] := ⟨rfl, by simp, hspf⟩

/-- Cutting the leftover followed by `more` continues the cut of `all` to one of `all ++ more`. -/
theorem append {more rest' : List Sample} {frames' : List (List Sample)} (h : Framed spf all frames rest)
    (h' : Framed spf (rest ++ more) frames' rest') : Framed spf (all ++ more) (frames ++ frames') rest' where
  concat := by
    rw [List.flatten_append, List.append_assoc, h'.concat, ← List.append_assoc, h.concat]
  frame_length f hf := (List.mem_append.1 hf).elim (h.frame_length f) (h'.frame_length f)
  rest_length := h'.rest_length

/-- A cut without its first frame is a cut of what follows that frame. -/
theorem tail {f : List Sample} (h : Framed spf all (f :: frames) rest) :
    Framed spf (frames.flatten ++ rest) frames rest :=
  ⟨rfl, fun g hg => h.frame_length g (List.mem_cons_of_mem f hg), h.rest_length⟩

theorem flatten_length (h : Framed spf all frames rest) : frames.flatten.length = frames.length * spf := by
  rw [List.length_flatten, List.map_congr_left h.frame_length, List.map_const', List.sum_replicate, smul_eq_mul]

theorem length_eq (h : Framed spf all frames rest) : all.length = rest.length + frames.length * spf := by
  rw [← h.concat, List.length_append, h.flatten_length, Nat.add_comm]

/-- There are `|all| div spf` frames. -/
theorem frames_length (h : Framed spf all frames rest) : frames.length = all.length / spf := by
  have hspf : 0 < spf := Nat.zero_lt_of_lt h.rest_length
  rw [h.length_eq, Nat.add_mul_div_right _ _ hspf, Nat.div_eq_of_lt h.rest_length, Nat.zero_add]

/-- The leftover has `|all| mod spf` samples. -/
theorem rest_length_eq (h : Framed spf all frames rest) : rest.length = all.length % spf := by
  rw [h.length_eq, Nat.add_mul_mod_self_right, Nat.mod_eq_of_lt h.rest_length]

/-- The leftover is what follows the frames. -/
theorem rest_eq (h : Framed spf all frames rest) : rest = all.drop (frames.length * spf) := by
  rw [← h.concat, ← h.flatten_length, List.drop_left]

/-- Frame `q` is the `q`-th block of `spf` samples. -/
theorem getElem?_frames (h : Framed spf all frames rest) {q : ℕ} (hq : q < frames.length) :
    frames[q]? = some ((all.drop (q * spf)).take spf) := by
  induction frames generalizing all q with
  | nil => simp at hq
  | cons f frames ih =>
    obtain rfl : f.length = spf := h.frame_length f List.mem_cons_self
    have hall : f ++ (frames.flatten ++ rest) = all := by
      rw [← h.concat, List.flatten_cons, List.append_assoc]
    cases q with
    | zero => rw [← hall, Nat.zero_mul, List.drop_zero, List.take_left]; rfl
    | succ q =>
      rw [List.getElem?_cons_succ, ih h.tail (Nat.lt_of_succ_lt_succ hq), ← hall, Nat.succ_mul,
        Nat.add_comm, List.drop_length_add_append]

end Framed

end Sys2Proof.Machine
end

section
/-! SUPPORT. M.BYTE and M.END in RUN, and the runs of M.BYTE of a stream (41_modulator.md R138 to R146). -/

namespace Sys2Proof.Machine

/-- The state `s` after bytes of a stream that emitted `frames`: FIRST, M.BUF and MOD_OUT alone are new (R138). -/
def State.streamed (s : State) (first : Bool) (buf : List Sample) (frames : List (List Sample)) : State :=
  { s with mod := { s.mod with first := first, buf := buf }, modOut := s.modOut ++ frames.map .frame }

section
variable (s : State) (first : Bool) (buf : List Sample) (frames : List (List Sample))

@[simp] theorem State.streamed_mod :
    (s.streamed first buf frames).mod = { s.mod with first := first, buf := buf } := rfl
@[simp] theorem State.streamed_modOut :
    (s.streamed first buf frames).modOut = s.modOut ++ frames.map .frame := rfl

/-- Two stretches of a stream are one. -/
theorem State.streamed_streamed (first' : Bool) (buf' : List Sample) (frames' : List (List Sample)) :
    (s.streamed first buf frames).streamed first' buf' frames' =
      s.streamed first' buf' (frames ++ frames') := by
  simp [State.streamed]

/-- Nothing emitted, and FIRST and M.BUF kept: the same state. -/
theorem State.streamed_self : s.streamed s.mod.first s.mod.buf [] = s := by
  simp [State.streamed]

end

/-- In RUN, M.BYTE emits the complete frames of the old samples, the preamble if FIRST, and the byte's symbols, and
keeps the leftover (R138). -/
theorem exec_mByte_of_run {s : State} (b : Byte) (hs : s.mod.state = .run) (hspf : 0 < s.mod.spfEff.toNat) :
    ∃ frames buf, exec (.mByte b) s = .next (s.streamed false buf frames) ∧
      Framed s.mod.spfEff.toNat (s.mod.bufWith b) frames buf := by
  obtain ⟨frames, hitems, hframed⟩ := slice_framed hspf (s.mod.bufWith b)
  refine ⟨frames, _, ?_, hframed⟩
  change Host.Outcome.next (modCommand _ _ _ s) = _
  rw [modCommand_stream hs, State.streamed, ← hitems]
  rfl

/-- In RUN, M.END flushes the leftover as one TAIL, none if it is empty (R143, R145). -/
theorem exec_mEnd_of_run {s : State} (hs : s.mod.state = .run) :
    exec .mEnd s = .next { s with
      mod := { s.mod with buf := [], state := .done }
      modOut := s.modOut ++ (if s.mod.buf = [] then [] else [.tail s.mod.buf]) } := by
  change Host.Outcome.next (modCommand _ _ _ s) = _
  simp only [modCommand_stream hs, endMod, State.emitMod, List.isEmpty_iff]

/-- Settles O28: the command's one cut of the samples, read part by part. -/
theorem byteEmitsCompleteFrames : Obligations.ByteEmitsCompleteFrames := by
  intro b s hs hspf
  obtain ⟨frames, buf, hexec, hframed⟩ := exec_mByte_of_run b hs hspf
  refine ⟨_, frames, hexec, rfl, ?_, hframed.frame_length, hframed.rest_length⟩
  rw [← byteSamples_eq_flatMap_byteBits]
  exact hframed.concat

/-- Settles O29: it is the rule of M.END in RUN. -/
theorem endFlushesTail : Obligations.EndFlushesTail := fun _ hs => exec_mEnd_of_run hs

/-- The invariant of a stream (R140): after the bytes `bs` the frames emitted and M.BUF are the cut of S(m), and FIRST
says whether no byte has come yet. -/
theorem runsTo_mByte_of_fresh (bs : List Byte) {s : State} (hs : ModFresh s.mod) :
    ∃ frames buf, RunsTo (bs.map .mByte) s (s.streamed bs.isEmpty buf frames) ∧
      Framed s.mod.spfEff.toNat (streamSamples s.mod bs) frames buf := by
  obtain ⟨hrun, hfirst, hbuf, hspf⟩ := hs
  induction bs using List.reverseRecOn with
  | nil =>
    refine ⟨[], [], ?_, .nil hspf⟩
    have hself := s.streamed_self
    rw [hfirst, hbuf] at hself
    exact hself
  | append_singleton bs b ih =>
    obtain ⟨frames, buf, hbytes, hframed⟩ := ih
    obtain ⟨frames', buf', hexec, hframed'⟩ :=
      exec_mByte_of_run (s := s.streamed bs.isEmpty buf frames) b hrun hspf
    refine ⟨frames ++ frames', buf', ?_, ?_⟩
    · have hsome : (bs ++ [b]).isEmpty = false := by simp
      rw [State.streamed_streamed] at hexec
      rw [List.map_append, runsTo_append, hsome]
      exact ⟨_, hbytes, _, hexec, rfl⟩
    · rw [ModUnit.bufWith, List.append_assoc] at hframed'
      rw [streamSamples_concat]
      exact hframed.append hframed'

/-- Settles O30: the invariant, read as blocks of S(m). -/
theorem framesAreBlocksOfTheStream : Obligations.FramesAreBlocksOfTheStream := by
  intro bs s hs _ all spf
  obtain ⟨frames, buf, hbytes, hframed⟩ := runsTo_mByte_of_fresh bs hs
  exact ⟨_, frames, hbytes, rfl, hframed.frames_length, fun q hq => hframed.getElem?_frames hq,
    hframed.rest_eq, hframed.rest_length_eq⟩

/-- Settles O31: the invariant, then M.END flushes the leftover. -/
theorem wholeStreamIsEmittedExactly : Obligations.WholeStreamIsEmittedExactly := by
  intro bs s hs all spf
  obtain ⟨frames, buf, hbytes, hframed⟩ := runsTo_mByte_of_fresh bs hs
  have hend := exec_mEnd_of_run (s := s.streamed bs.isEmpty buf frames) hs.1
  exact ⟨_, frames, buf, (runsTo_append ..).2 ⟨_, hbytes, _, hend, rfl⟩, rfl, rfl, hframed.concat,
    hframed.frame_length, hframed.frames_length, hframed.rest_length_eq⟩

end Sys2Proof.Machine
end

section
/-! SUPPORT. One frame at DEM: the two commands that deliver it, and what each protocol state does with each class
(42_demodulator.md R163 to R174). -/

namespace Sys2Proof.Machine

/-! ## Classes (R163) -/

theorem classify_eq_mark_iff (sp mk : Bool) : classify sp mk = .mark ↔ mk = true ∧ sp = false := by
  revert sp mk
  decide

theorem classify_eq_space_iff (sp mk : Bool) : classify sp mk = .space ↔ sp = true ∧ mk = false := by
  revert sp mk
  decide

/-! ## The commands that deliver a frame -/

/-- A protocol state accepts frames (R100). -/
def DemUnit.Receiving (d : DemUnit) : Prop :=
  d.state = .preambleSpace ∨ d.state = .preambleMark ∨ d.state = .decode

theorem exec_dCls_of_receiving {s : State} (sp mk : Bool) (hs : s.dem.Receiving) :
    exec (.dCls sp mk) s = .next (demodStep (encodeHeader (.dCls sp mk)) (classify sp mk) s) :=
  congrArg Host.Outcome.next (demCommand_stream hs)

theorem frameCommand_of_receiving {s : State} (detect : Detector) (payload : List Word) (hs : s.dem.Receiving) :
    frameCommand detect payload s =
      deliverFrame detect (encodeHeader (.dFrame payload)) payload s :=
  demCommand_stream hs

/-- A frame of the right length is detected, classified and stepped on (R172). -/
theorem deliverFrame_of_length_eq {s : State} {payload : List Word} (detect : Detector) (h : Word)
    (hlen : payload.length = ceilDiv s.dem.spfEff.toNat 2) :
    deliverFrame detect h payload s = demodStep h (frameClass detect s.dem payload) s :=
  if_neg (not_not.2 hlen)

/-- A frame of another length faults before it is looked at (R172). -/
theorem deliverFrame_of_length_ne {s : State} {payload : List Word} (detect : Detector) (h : Word)
    (hlen : payload.length ≠ ceilDiv s.dem.spfEff.toNat 2) :
    deliverFrame detect h payload s = s.raiseFault .dem .frameLen h :=
  if_pos hlen

/-- Whichever command delivers a frame, DEM steps on its class. -/
theorem exec_of_frameClassOf {i : Instr} {c : ToneClass} {s : State} (hs : s.dem.Receiving)
    (hc : frameClassOf i s = some c) : exec i s = .next (demodStep (encodeHeader i) c s) := by
  cases i with
  | dFrame payload =>
    simp only [frameClassOf, Option.ite_none_right_eq_some, Option.some.injEq] at hc
    obtain ⟨hlen, rfl⟩ := hc
    exact congrArg Host.Outcome.next
      ((frameCommand_of_receiving _ payload hs).trans (deliverFrame_of_length_eq _ _ hlen))
  | dCls sp mk =>
    obtain rfl := Option.some.inj hc
    exact exec_dCls_of_receiving sp mk hs
  | _ => cases hc

/-- The class of a frame depends on the configuration and the effective registers alone. -/
theorem frameClassOf_congr {s t : State} (i : Instr) (hcfg : t.dem.cfg = s.dem.cfg)
    (hsr : t.dem.srEff = s.dem.srEff) (hspf : t.dem.spfEff = s.dem.spfEff) :
    frameClassOf i t = frameClassOf i s := by
  cases i with
  | dFrame payload => simp only [frameClassOf, frameClass, hcfg, hsr, hspf]
  | _ => rfl

/-! ## What a frame does in each protocol state -/

section
variable {h : Word} {c : ToneClass} {s : State}

/-- R165. -/
theorem demodStep_preambleSpace_mark (hs : s.dem.state = .preambleSpace) :
    demodStep h .mark s = { s with dem := { s.dem with clock := 0, state := .preambleMark } } := by
  simp only [demodStep, hs, stepPreambleSpace]

/-- R165. -/
theorem demodStep_preambleSpace_of_ne_mark (hs : s.dem.state = .preambleSpace) (hc : c ≠ .mark) :
    demodStep h c s = s := by
  cases c with
  | mark => exact absurd rfl hc
  | space => simp only [demodStep, hs, stepPreambleSpace]
  | ambig => simp only [demodStep, hs, stepPreambleSpace]

/-- R166, below K. -/
theorem demodStep_preambleMark_counts (hs : s.dem.state = .preambleMark)
    (hk : s.dem.clock.toNat + 1 < s.dem.ksym.toNat) :
    demodStep h .mark s = { s with dem := { s.dem with clock := BitVec.ofNat 32 (s.dem.clock.toNat + 1) } } := by
  simp only [demodStep, hs, stepPreambleMark, Nat.not_le.2 hk, if_false]

/-- R166, at K. -/
theorem demodStep_preambleMark_enters (hs : s.dem.state = .preambleMark)
    (hk : s.dem.ksym.toNat ≤ s.dem.clock.toNat + 1) :
    demodStep h .mark s = { s with dem := { s.dem with clock := 0, state := .decode } } := by
  simp only [demodStep, hs, stepPreambleMark, hk, if_true]

/-- R166, any other class. -/
theorem demodStep_preambleMark_faults (hs : s.dem.state = .preambleMark) (hc : c ≠ .mark) :
    demodStep h c s = s.raiseFault .dem .preamble h := by
  cases c with
  | mark => exact absurd rfl hc
  | space => simp only [demodStep, hs, stepPreambleMark]
  | ambig => simp only [demodStep, hs, stepPreambleMark]

/-- R167, R168, below the boundary. -/
theorem demodStep_decode_votes (hs : s.dem.state = .decode) (hk : s.dem.clock.toNat + 1 < s.dem.ksym.toNat) :
    demodStep h c s = { s with dem := s.dem.counted c } := by
  simp only [demodStep, hs, stepDecode, Nat.not_le.2 hk, if_false, DemUnit.counted]

/-- R167, at the boundary. -/
theorem demodStep_decode_decides (hs : s.dem.state = .decode) (hk : s.dem.ksym.toNat ≤ s.dem.clock.toNat + 1) :
    demodStep h c s = decideSymbol h { s with dem := s.dem.counted c } := by
  simp only [demodStep, hs, stepDecode, hk, if_true, DemUnit.counted]

/-- A decision that completes no byte (R169 to R171). -/
theorem demodStep_decode_folds (hs : s.dem.state = .decode) (hk : s.dem.ksym.toNat ≤ s.dem.clock.toNat + 1)
    (hb : s.dem.bitpos.toNat < 7) :
    demodStep h c s = { s with dem := { s.dem.counted c with
      spaces := 0, marks := 0, acc := foldBit s.dem.acc (s.dem.counted c).decidedBit,
      bitpos := BitVec.ofNat 4 (s.dem.bitpos.toNat + 1), clock := (s.dem.counted c).decisionErr } } := by
  rw [demodStep_decode_decides hs hk]
  rcases decideSymbol_of_le h { s with dem := s.dem.counted c } (by simpa using hb.le) with ⟨h7, -⟩ | ⟨-, e⟩
  · exact absurd (by simpa using h7) hb.ne
  · simpa using e

/-- A decision that completes a byte (R169 to R171). -/
theorem demodStep_decode_emits (hs : s.dem.state = .decode) (hk : s.dem.ksym.toNat ≤ s.dem.clock.toNat + 1)
    (hb : s.dem.bitpos.toNat = 7) :
    demodStep h c s = { s with
      dem := { s.dem.counted c with
        spaces := 0, marks := 0, acc := 0, bitpos := 0, clock := (s.dem.counted c).decisionErr }
      demOut := s.demOut ++ [foldBit s.dem.acc (s.dem.counted c).decidedBit] } := by
  rw [demodStep_decode_decides hs hk]
  rcases decideSymbol_of_le h { s with dem := s.dem.counted c } (by simpa using hb.le) with ⟨-, e⟩ | ⟨h7, -⟩
  · simpa using e
  · exact absurd hb (Nat.ne_of_lt (by simpa using h7))

/-- The header of the command shows in a fault alone (R203). -/
theorem demodStep_header_of_not_error (h' : Word) (hne : (demodStep h c s).dem.state ≠ .error) :
    demodStep h' c s = demodStep h c s := by
  cases hs : s.dem.state with
  | preambleMark =>
    by_cases hc : c = .mark
    · subst hc
      simp only [demodStep, hs, stepPreambleMark]
    · exact absurd (by simp [demodStep_preambleMark_faults hs hc]) hne
  | decode =>
    by_cases hk : s.dem.ksym.toNat ≤ s.dem.clock.toNat + 1
    · rcases Nat.lt_trichotomy s.dem.bitpos.toNat 7 with hb | hb | hb
      · rw [demodStep_decode_folds hs hk hb, demodStep_decode_folds hs hk hb]
      · rw [demodStep_decode_emits hs hk hb, demodStep_decode_emits hs hk hb]
      · exact absurd (by rw [demodStep_decode_decides hs hk, decideSymbol_of_gt _ _ (by simpa using hb)]) hne
    · rw [demodStep_decode_votes hs (Nat.lt_of_not_le hk), demodStep_decode_votes hs (Nat.lt_of_not_le hk)]
  | _ => simp only [demodStep, hs]

end

/-! ## The votes with a frame counted -/

section
variable {d : DemUnit} (c : ToneClass)

/-- Under R44 item 4 the space count does not wrap (R186). -/
theorem DemUnit.counted_spaces_toNat (hvotes : d.spaces.toNat + d.marks.toNat < d.ksym.toNat) :
    (d.counted c).spaces.toNat = d.spaces.toNat + if c = .space then 1 else 0 := by
  have hk := d.ksym.isLt
  cases c with
  | space => exact Nat.mod_eq_of_lt (by omega)
  | mark => rfl
  | ambig => rfl

/-- Under R44 item 4 the mark count does not wrap (R186). -/
theorem DemUnit.counted_marks_toNat (hvotes : d.spaces.toNat + d.marks.toNat < d.ksym.toNat) :
    (d.counted c).marks.toNat = d.marks.toNat + if c = .mark then 1 else 0 := by
  have hk := d.ksym.isLt
  cases c with
  | space => rfl
  | mark => exact Nat.mod_eq_of_lt (by omega)
  | ambig => rfl

/-- Below the boundary the clock does not wrap (R186). -/
theorem DemUnit.counted_clock_toNat (hk : d.clock.toNat + 1 < d.ksym.toNat) :
    (d.counted c).clock.toNat = d.clock.toNat + 1 :=
  Nat.mod_eq_of_lt (hk.trans d.ksym.isLt)

end

/-! ## The statements about one D.CLS -/

/-- Settles O32: the rule of PREAMBLE_SPACE for each class. -/
theorem preambleSpaceWaitsForMark : Obligations.PreambleSpaceWaitsForMark := by
  intro sp mk s hs
  rw [exec_dCls_of_receiving sp mk (.inl hs)]
  split
  · next hc => rw [(classify_eq_mark_iff sp mk).2 hc, demodStep_preambleSpace_mark hs]
  · next hc => rw [demodStep_preambleSpace_of_ne_mark hs (mt (classify_eq_mark_iff sp mk).1 hc)]

/-- Settles O33: the rule of PREAMBLE_MARK for each class, below K and at K. -/
theorem preambleMarkCountsMarks : Obligations.PreambleMarkCountsMarks := by
  intro sp mk s hs
  refine ⟨_, exec_dCls_of_receiving sp mk (.inr (.inl hs)), fun hc hk => ?_, fun hc hk => ?_, fun hc => ?_⟩
  · rw [(classify_eq_mark_iff sp mk).2 hc, demodStep_preambleMark_counts hs hk]
    exact ⟨rfl, Nat.mod_eq_of_lt (hk.trans s.dem.ksym.isLt)⟩
  · rw [(classify_eq_mark_iff sp mk).2 hc, demodStep_preambleMark_enters hs hk]
  · rw [demodStep_preambleMark_faults hs (mt (classify_eq_mark_iff sp mk).1 hc)]
    rfl

/-- Settles O34: the rule of DECODE below the boundary; no count wraps. -/
theorem decodeFrameVotes : Obligations.DecodeFrameVotes := by
  intro sp mk s hs hk hvotes
  refine ⟨_, exec_dCls_of_receiving sp mk (.inr (.inr hs)), ?_⟩
  have hlt : s.dem.spaces.toNat + s.dem.marks.toNat < s.dem.ksym.toNat := by omega
  rw [demodStep_decode_votes hs hk]
  simp only [DemUnit.counted_clock_toNat _ hk, DemUnit.counted_spaces_toNat _ hlt,
    DemUnit.counted_marks_toNat _ hlt, classify_eq_space_iff, classify_eq_mark_iff, and_self, and_true]
  cases classify sp mk <;> rfl

end Sys2Proof.Machine
end

section
/-! SUPPORT. The symbol decision, D.END, and D.FRAME against D.CLS (42_demodulator.md R162, R169 to R174). -/

namespace Sys2Proof.Machine

/-! ## The decision and the fold -/

section
variable {d : DemUnit} (c : ToneClass)

/-- R169, with the deciding frame counted. -/
theorem DemUnit.decidedBit_counted (hvotes : d.spaces.toNat + d.marks.toNat < d.ksym.toNat) :
    (d.counted c).decidedBit = decide (d.spaces.toNat + (if c = .space then 1 else 0)
      < d.marks.toNat + (if c = .mark then 1 else 0)) := by
  rw [DemUnit.decidedBit, DemUnit.counted_spaces_toNat c hvotes, DemUnit.counted_marks_toNat c hvotes]

/-- R169, with the deciding frame counted. -/
theorem DemUnit.decisionErr_counted (hvotes : d.spaces.toNat + d.marks.toNat < d.ksym.toNat) :
    (d.counted c).decisionErr.toNat = min (d.spaces.toNat + (if c = .space then 1 else 0))
      (d.marks.toNat + (if c = .mark then 1 else 0)) := by
  rw [decisionErr_toNat, DemUnit.counted_spaces_toNat c hvotes, DemUnit.counted_marks_toNat c hvotes]

end

/-- R44 item 4: in DECODE the votes are fewer than K. -/
theorem votes_lt_ksym_of_demInv {d : DemUnit} (hinv : DemInv d) (hs : d.state = .decode) :
    d.spaces.toNat + d.marks.toNat < d.ksym.toNat := by
  obtain ⟨-, -, -, hdec, -⟩ := hinv
  obtain ⟨hvotes, hclock⟩ := hdec hs
  exact hvotes.trans_lt hclock

/-- R44 item 5. -/
theorem bitpos_le_of_demInv {d : DemUnit} (hinv : DemInv d) : d.bitpos.toNat ≤ 7 := by
  obtain ⟨-, -, -, -, hbit, -⟩ := hinv
  exact hbit

/-- A count of bits below 8 fits D.BITPOS. -/
theorem bitpos_succ_toNat {p : ℕ} (hp : p < 7) : (BitVec.ofNat 4 (p + 1)).toNat = p + 1 :=
  Nat.mod_eq_of_lt (by omega)

theorem foldBit_eq_ofNat (acc : Byte) (bit : Bool) :
    foldBit acc bit = BitVec.ofNat 8 (acc.toNat / 2 + if bit then 128 else 0) := by
  rw [← foldBit_toNat, BitVec.ofNat_toNat, BitVec.setWidth_eq]

/-- Settles O35: the decision's two outcomes, at BITPOS 7 and below. -/
theorem boundaryFrameDecides : Obligations.BoundaryFrameDecides := by
  intro sp mk s hs hinv hk spaces marks acc
  have hvotes := votes_lt_ksym_of_demInv hinv hs
  have herr : (s.dem.counted (classify sp mk)).decisionErr.toNat = min spaces marks := by
    simp only [DemUnit.decisionErr_counted _ hvotes, classify_eq_space_iff, classify_eq_mark_iff, spaces, marks]
  have hacc : foldBit s.dem.acc (s.dem.counted (classify sp mk)).decidedBit = acc := by
    simp only [foldBit_eq_ofNat, DemUnit.decidedBit_counted _ hvotes, decide_eq_true_eq, classify_eq_space_iff,
      classify_eq_mark_iff, acc, spaces, marks]
  refine ⟨_, exec_dCls_of_receiving sp mk (.inr (.inr hs)), ?_⟩
  rcases (bitpos_le_of_demInv hinv).lt_or_eq with hb | hb
  · rw [demodStep_decode_folds hs hk hb, hacc]
    refine ⟨?_, herr, fun h7 => absurd h7 hb.ne, fun _ => ⟨rfl, rfl, bitpos_succ_toNat hb⟩⟩
    cases classify sp mk <;> rfl
  · rw [demodStep_decode_emits hs hk hb, hacc]
    refine ⟨?_, herr, fun _ => ⟨rfl, rfl, rfl⟩, fun h7 => absurd hb h7.ne⟩
    cases classify sp mk <;> rfl

/-- A fold shifts the accumulator down and puts the bit on top (R170). -/
theorem getLsbD_foldBit (acc : Byte) (bit : Bool) {i : ℕ} (hi : i < 8) :
    (foldBit acc bit).getLsbD i = if i = 7 then bit else acc.getLsbD (i + 1) := by
  have htop : (if bit then (0x80 : Byte) else 0x00).getLsbD i = (bit && decide (i = 7)) := by
    cases bit
    · simp
    · interval_cases i <;> rfl
  rw [foldBit, BitVec.getLsbD_or, BitVec.getLsbD_ushiftRight, htop, Nat.add_comm 1 i]
  split
  · next h7 => simp [h7]
  · next h7 => simp [h7]

/-- Settles O36, by induction on the decided bits: the last one is on top and the others one place lower. -/
theorem foldedBitsLsbFirst : Obligations.FoldedBitsLsbFirst := by
  intro ds
  induction ds using List.reverseRecOn with
  | nil => simp
  | append_singleton ds d ih =>
    intro hlen i hi
    rw [List.length_append, List.length_singleton] at *
    rw [List.foldl_append, List.foldl_cons, List.foldl_nil, getLsbD_foldBit _ _ hi]
    split
    · next h7 =>
      obtain rfl := h7
      rw [if_pos (by omega), show 7 + (ds.length + 1) - 8 = ds.length by omega]
      simp
    · next h7 =>
      rw [ih (by omega) (i + 1) (by omega), show i + 1 + ds.length = i + (ds.length + 1) by omega]
      split
      · rw [List.getD_append _ _ _ _ (by omega)]
      · rfl

/-! ## D.FRAME against D.CLS (R172, R173) -/

/-- A frame faults nowhere but in PREAMBLE_MARK on a non-MARK class, where BITPOS is at most 7 (R166, R183); then it
changes the decoder registers, D.STATE and DEM_OUT alone, and does not leave DECODE. -/
theorem demodStep_completes {h : Word} {c : ToneClass} {s t : State} (ht : demodStep h c s = t)
    (hs : s.dem.Receiving) (hb : s.dem.bitpos.toNat ≤ 7) (hc : s.dem.state = .preambleMark → c = .mark) :
    t.dem.state ≠ .error ∧ (s.dem.state = .decode → t.dem.state = .decode) ∧
      t = { s with dem := { s.dem with state := t.dem.state, clock := t.dem.clock, spaces := t.dem.spaces,
                                       marks := t.dem.marks, acc := t.dem.acc, bitpos := t.dem.bitpos },
                   demOut := t.demOut } := by
  subst ht
  rcases hs with hs | hs | hs
  · by_cases hm : c = .mark
    · subst hm
      rw [demodStep_preambleSpace_mark hs]
      exact ⟨by simp, by simp [hs], rfl⟩
    · rw [demodStep_preambleSpace_of_ne_mark hs hm]
      exact ⟨by simp [hs], id, rfl⟩
  · obtain rfl := hc hs
    by_cases hk : s.dem.ksym.toNat ≤ s.dem.clock.toNat + 1
    · rw [demodStep_preambleMark_enters hs hk]
      exact ⟨by simp, by simp, rfl⟩
    · rw [demodStep_preambleMark_counts hs (Nat.lt_of_not_le hk)]
      exact ⟨by simp [hs], by simp [hs], rfl⟩
  · by_cases hk : s.dem.ksym.toNat ≤ s.dem.clock.toNat + 1
    · rcases hb.lt_or_eq with hb | hb
      · rw [demodStep_decode_folds hs hk hb]
        exact ⟨by simp [hs], by simp [hs], by cases c <;> rfl⟩
      · rw [demodStep_decode_emits hs hk hb]
        exact ⟨by simp [hs], by simp [hs], by cases c <;> rfl⟩
    · rw [demodStep_decode_votes hs (Nat.lt_of_not_le hk)]
      exact ⟨by simp [hs], by simp [hs], by cases c <;> rfl⟩

/-- A frame that does not fault has one effect, by D.CLS as by D.FRAME (R173). -/
theorem exec_dCls_eq_frameCommand {detect : Detector} {payload : List Word} {s : State} {sp mk : Bool}
    (hs : s.dem.Receiving) (hlen : payload.length = ceilDiv s.dem.spfEff.toNat 2)
    (hclass : frameClass detect s.dem payload = classify sp mk)
    (hne : (demodStep (encodeHeader (.dCls sp mk)) (classify sp mk) s).dem.state ≠ .error) :
    exec (.dCls sp mk) s = .next (frameCommand detect payload s) := by
  rw [exec_dCls_of_receiving sp mk hs, frameCommand_of_receiving detect payload hs,
    deliverFrame_of_length_eq detect _ hlen, hclass,
    demodStep_header_of_not_error (encodeHeader (.dFrame payload)) hne]

/-- Settles O37: both commands step on the same class. -/
theorem frameActsAsDetectorPair : Obligations.FrameActsAsDetectorPair := by
  intro detect payload s hs hb hlen n x sp mk
  refine ⟨fun hc => ?_, fun hm hc => ?_⟩
  · refine exec_dCls_eq_frameCommand hs hlen rfl (demodStep_completes rfl hs hb fun hm => ?_).1
    exact (classify_eq_mark_iff sp mk).2 (hc.resolve_left (not_not.2 hm))
  · rw [frameCommand_of_receiving detect payload hs, deliverFrame_of_length_eq detect _ hlen]
    exact demodStep_preambleMark_faults hm (mt (classify_eq_mark_iff sp mk).1 hc)

/-- Settles O38: the class steps without a fault, and then the command that delivered it does not matter. -/
theorem frameCompletes : Obligations.FrameCompletes := by
  intro payload s n x sp mk hs hb hlen
  have hrecv : s.dem.Receiving := hs.imp_right fun h => h.symm.imp_left And.left
  have hmark : s.dem.state = .preambleMark → classify sp mk = .mark := fun hm =>
    (classify_eq_mark_iff sp mk).2 (by simpa [hm] using hs)
  obtain ⟨hne, hdec, hframe⟩ :=
    demodStep_completes (h := encodeHeader (.dCls sp mk)) rfl hrecv hb hmark
  have hcls := exec_dCls_of_receiving sp mk hrecv
  have hsame : exec (.dFrame payload) s = exec (.dCls sp mk) s :=
    (exec_dCls_eq_frameCommand (detect := Config.detect) hrecv hlen rfl hne).symm
  refine ⟨_, hsame.trans hcls, hcls, hne, hframe, fun hps => ?_, hdec⟩
  by_cases hm : classify sp mk = .mark
  · exact .inr (by rw [hm, demodStep_preambleSpace_mark hps])
  · exact .inl (demodStep_preambleSpace_of_ne_mark hps hm)

/-- The header of D.FRAME with LEN in its low half (R81, R83). -/
theorem encodeHeader_dFrame {payload : List Word} (hlen : payload.length < 65536) :
    encodeHeader (.dFrame payload) = BitVec.ofNat 32 (0x23000000 + payload.length) := by
  apply BitVec.eq_of_toNat_eq
  simp only [encodeHeader, mkHeader, toNat_append_eq_add, BitVec.toNat_ofNat, BitVec.ofNat_eq_ofNat]
  omega

/-- Settles O39: the length is checked before the protocol state is looked at. -/
theorem frameLengthMismatchFaults : Obligations.FrameLengthMismatchFaults := by
  intro payload s hs hfits hlen
  rw [← encodeHeader_dFrame hfits]
  exact congrArg Host.Outcome.next
    ((frameCommand_of_receiving Config.detect payload hs).trans (deliverFrame_of_length_ne _ _ hlen))

/-! ## D.END (R174) -/

theorem endDem_of_bitpos_le {s : State} (hb : s.dem.bitpos.toNat ≤ 7) :
    endDem s = { s with dem := { s.dem with state := .done } } :=
  if_neg (by omega)

theorem exec_dEnd_of_receiving {s : State} (hs : s.dem.Receiving) : exec .dEnd s = .next (endDem s) :=
  congrArg Host.Outcome.next (demCommand_stream hs)

/-- Settles O40. -/
theorem endOfInputDropsPartials : Obligations.EndOfInputDropsPartials := by
  intro s hs hb
  rw [exec_dEnd_of_receiving hs, endDem_of_bitpos_le hb]

end Sys2Proof.Machine
end

section
/-! SUPPORT. The normalization of a sample and PCM16 (41_modulator.md R133; 42_demodulator.md R161). -/

namespace Sys2Proof.Machine

/-- Truncation keeps an integer (R10). -/
@[simp] theorem truncRat_intCast (n : ℤ) : truncRat n = n := by
  simp [truncRat]

theorem sample_bounds (r : Sample) : -32768 ≤ r.toInt ∧ r.toInt ≤ 32767 := by
  have hlo := BitVec.le_toInt r
  have hhi := BitVec.toInt_lt (x := r)
  omega

/-- Settles O26: both functions divide or multiply by the scale of the sample's sign. -/
theorem normalizationAndPcm16 : Obligations.NormalizationAndPcm16 := by
  refine ⟨fun r => ⟨rfl, ?_⟩, by decide +kernel⟩
  obtain ⟨hlo, hhi⟩ := sample_bounds r
  by_cases hr : r.toInt < 0
  · have hneg : (r.toInt : ℚ) / 32768 < 0 := div_neg_of_neg_of_pos (mod_cast hr) (by norm_num)
    have hback : (r.toInt : ℚ) / 32768 * 32768 = r.toInt := div_mul_cancel₀ _ (by norm_num)
    rw [normPcm, if_pos hr, pcm16, if_pos hneg, hback, truncRat_intCast]
    refine ⟨?_, hneg.le.trans zero_le_one, rfl⟩
    rw [le_div_iff₀ (by norm_num)]
    exact_mod_cast hlo
  · have hnonneg : 0 ≤ (r.toInt : ℚ) / 32767 := div_nonneg (mod_cast not_lt.1 hr) (by norm_num)
    have hback : (r.toInt : ℚ) / 32767 * 32767 = r.toInt := div_mul_cancel₀ _ (by norm_num)
    rw [normPcm, if_neg hr, pcm16, if_neg (not_lt.2 hnonneg), hback, truncRat_intCast]
    refine ⟨(by norm_num : (-1 : ℚ) ≤ 0).trans hnonneg, ?_, rfl⟩
    rw [div_le_iff₀ (by norm_num), one_mul]
    exact_mod_cast hhi

end Sys2Proof.Machine
end

section
/-! SUPPORT. What a command other than a reset can do to DEM, told apart by whether it delivers a frame, and the fault
that lasts (42_demodulator.md R178, R183; 60_exceptions.md R205). -/

namespace Sys2Proof.Machine

theorem encodeHeader_eq_dRst_iff (i : Instr) : encodeHeader i = encodeHeader .dRst ↔ i = .dRst := by
  cases i <;> simp [encodeHeader, mkHeader_inj]

theorem encodeHeader_eq_grst_iff (i : Instr) : encodeHeader i = encodeHeader .grst ↔ i = .grst := by
  cases i <;> simp [encodeHeader, mkHeader_inj]

/-- A command that resets DEM (R102, R113). -/
def resetsDem (i : Instr) : Prop := i = .dRst ∨ i = .grst

theorem not_resetsDem_iff (i : Instr) : ¬ resetsDem i ↔ i ≠ .dRst ∧ i ≠ .grst := not_or

theorem not_resetsDem_clsOf (b : Bool) : ¬ resetsDem (clsOf b) := by
  simp [resetsDem, clsOf]

section
variable {i : Instr} {s t : State}

/-- The move of DEM that a command makes. -/
theorem demMove_of_exec (e : exec i s = .next t) :
    ∃ bytes, t.demOut = s.demOut ++ bytes ∧ DemMove (encodeHeader i) s.dem t.dem bytes :=
  (unitMoves_of_exec e).2

/-! ## ERROR lasts until a reset -/

/-- A unit in ERROR makes no move but its reset (R205). -/
theorem DemMove.keep_of_error {d d' : DemUnit} {bytes : List Byte} (hm : DemMove (encodeHeader i) d d' bytes)
    (hi : ¬ resetsDem i) (hs : d.state = .error) : d' = d ∧ bytes = [] := by
  cases hm with
  | keep => exact ⟨rfl, rfl⟩
  | reset hh => exact absurd (hh.imp (encodeHeader_eq_dRst_iff i).1 (encodeHeader_eq_grst_iff i).1) hi
  | fault hne _ => exact absurd hs hne
  | finish hacc _ _ => exact absurd hs (DemState.active_of_acceptsStream hacc).2
  | finishByte hacc _ _ => exact absurd hs (DemState.active_of_acceptsStream hacc).2
  | _ => simp_all

/-- A run without a reset leaves DEM in ERROR, and its queue, as they are (R178). -/
theorem runsTo_of_dem_error {is : List Instr} (hs : s.dem.state = .error)
    (his : ∀ i ∈ is, ¬ resetsDem i) (hrun : RunsTo is s t) : t.dem = s.dem ∧ t.demOut = s.demOut := by
  induction is generalizing s with
  | nil => exact hrun ▸ ⟨rfl, rfl⟩
  | cons i is ih =>
    obtain ⟨u, e, hrest⟩ := hrun
    obtain ⟨bytes, hout, hm⟩ := demMove_of_exec e
    obtain ⟨hdem, rfl⟩ := hm.keep_of_error (his i List.mem_cons_self) hs
    obtain ⟨hdem', hout'⟩ := ih (hdem ▸ hs) (fun j hj => his j (List.mem_cons_of_mem i hj)) hrest
    exact ⟨hdem'.trans hdem, hout'.trans (by rw [hout, List.append_nil])⟩

/-! ## One command, by what it delivers -/

/-- What a command other than a reset does to DEM and its queue, told apart by what it delivers. `DemMove` says the
registers after it; this says which command and which frame they come from. -/
inductive DemResult (i : Instr) (s : State) : State → Prop
  /-- It does not address DEM, or DEM is in ERROR (R72, R205). -/
  | ignored {t : State} (hdem : t.dem = s.dem) (hout : t.demOut = s.demOut) : DemResult i s t
  /-- A fault of Step, of D.START or of the length check (R100, R106, R172). -/
  | refused {x : Cause} (hx : x ≠ .bitposOvf) : DemResult i s (s.raiseFault .dem x (encodeHeader i))
  /-- D.CFGW or D.START in IDLE (R105, R111). -/
  | setUp {t : State} (hs : s.dem.state = .idle) (hcause : t.dem.cause = s.dem.cause) : DemResult i s t
  /-- A frame in a protocol state (R172, R173). -/
  | frame {c : ToneClass} (hs : s.dem.Receiving) (hc : frameClassOf i s = some c) :
      DemResult i s (demodStep (encodeHeader i) c s)
  /-- D.END in a protocol state (R174). -/
  | ended (hs : s.dem.Receiving) : DemResult i s (endDem s)

/-- The checks of Step around a command's rule (R100). -/
theorem demResult_demCommand {ok : DemState → Bool} {act : State → State}
    (hact : ok s.dem.state = true → DemResult i s (act s)) :
    DemResult i s (demCommand (encodeHeader i) ok act s) := by
  rcases demCommand_cases (encodeHeader i) ok act s with ⟨-, e⟩ | ⟨-, hk, e⟩ | ⟨-, -, e⟩ <;> rw [e]
  · exact .ignored rfl rfl
  · exact hact hk
  · exact .refused (by simp)

theorem demResult_startDem (hs : s.dem.state = .idle) :
    DemResult .dStart s (startDem (encodeHeader .dStart) s) := by
  unfold startDem
  split
  · next x hv => exact .refused (validate_cause_ne_none hv).2
  · exact .setUp hs rfl

theorem demResult_deliverFrame {payload : List Word} (hs : s.dem.Receiving) :
    DemResult (.dFrame payload) s
      (deliverFrame Config.detect (encodeHeader (.dFrame payload)) payload s) := by
  by_cases hlen : payload.length = ceilDiv s.dem.spfEff.toNat 2
  · rw [deliverFrame_of_length_eq _ _ hlen]
    exact .frame hs (if_pos hlen)
  · rw [deliverFrame_of_length_ne _ _ hlen]
    exact .refused (by simp)

/-- Every command other than a reset has one of these results. -/
theorem demResult_of_exec (hi : ¬ resetsDem i) (e : exec i s = .next t) : DemResult i s t := by
  cases htouch : touches .dem i with
  | false =>
    obtain ⟨-, hframe, -⟩ := commandsTouchOneUnit i s t e
    exact .ignored (hframe htouch).1 (hframe htouch).2
  | true =>
    cases i <;> obtain rfl := Host.Outcome.next.inj e
    case dCfgw f v => exact demResult_demCommand fun hk => .setUp ((DemState.acceptsConfig_iff _).1 hk) rfl
    case dStart => exact demResult_demCommand fun hk => demResult_startDem ((DemState.acceptsConfig_iff _).1 hk)
    case dFrame payload =>
      exact demResult_demCommand fun hk => demResult_deliverFrame ((DemState.acceptsStream_iff _).1 hk)
    case dEnd => exact demResult_demCommand fun hk => .ended ((DemState.acceptsStream_iff _).1 hk)
    case dCls sp mk => exact demResult_demCommand fun hk => .frame ((DemState.acceptsStream_iff _).1 hk) rfl
    case grst => exact absurd (.inr rfl) hi
    case dRst => exact absurd (.inl rfl) hi
    all_goals cases htouch

end

/-! ## E_BITPOS_OVF is unreachable (R183) -/

/-- A frame raises no cause but E_PREAMBLE where BITPOS is at most 7. -/
theorem demodStep_cause {h : Word} {c : ToneClass} {s : State} (hs : s.dem.Receiving)
    (hb : s.dem.bitpos.toNat ≤ 7) :
    (demodStep h c s).dem.cause = s.dem.cause ∨ (demodStep h c s).dem.cause = .preamble := by
  by_cases hc : s.dem.state = .preambleMark ∧ c ≠ .mark
  · exact .inr (by rw [demodStep_preambleMark_faults hc.1 hc.2]; rfl)
  · obtain ⟨-, -, hframe⟩ := demodStep_completes (h := h) rfl hs hb fun hm => by_contra fun hne => hc ⟨hm, hne⟩
    exact .inl (congrArg (fun u => u.dem.cause) hframe)

theorem exec_cause_ne_bitposOvf {i : Instr} {s t : State} (hb : s.dem.bitpos.toNat ≤ 7)
    (e : exec i s = .next t) (hs : s.dem.cause ≠ .bitposOvf) : t.dem.cause ≠ .bitposOvf := by
  by_cases hi : resetsDem i
  · rcases hi with rfl | rfl <;> obtain rfl := Host.Outcome.next.inj e <;> simp [DemUnit.reset]
  · cases demResult_of_exec hi e with
    | ignored hdem _ => rwa [hdem]
    | refused hx => exact hx
    | setUp _ hcause => rwa [hcause]
    | @frame c hr _ =>
      rcases demodStep_cause (h := encodeHeader i) (c := c) hr hb with h | h <;> rw [h]
      · exact hs
      · simp
    | ended _ => rwa [endDem_of_bitpos_le hb]

/-- Settles O50: the invariants bound BITPOS, and below 8 nothing raises the cause. -/
theorem bitposOverflowUnreachable : Obligations.BitposOverflowUnreachable := by
  intro s t hinv e
  have hb := bitpos_le_of_demInv hinv
  obtain ⟨h, ⟨-, bytes, -, hm⟩, -⟩ := step_moves e
  refine ⟨hb, bitpos_le_of_demInv (hm.keeps_demInv hinv), fun ht => by_contra fun hs => ?_⟩
  rcases step_cases e with rfl | ⟨h, ws, rest, -, ⟨i, -, hi⟩ | rfl⟩
  · exact hs ht
  · exact exec_cause_ne_bitposOvf (s := { s with cmdIn := rest }) hb hi hs ht
  · rcases illegalCommand_cases h { s with cmdIn := rest } with
      ⟨-, -, h'⟩ | ⟨-, -, h'⟩ | ⟨-, -, h'⟩ | ⟨-, -, h'⟩ | ⟨-, -, h'⟩ <;> rw [h'] at ht
    case inr.inr.inr.inr => cases ht
    all_goals exact hs ht

end Sys2Proof.Machine
end

section
/-! SUPPORT. Runs of frames at DEM: the preamble, the windows and the decisions (42_demodulator.md R177 to R181). -/

namespace Sys2Proof.Machine

theorem demInv_of_fresh {d : DemUnit} (hd : DemFresh d) : DemInv d := by
  obtain ⟨hstate, hclock, hspaces, hmarks, hacc, hbit, hk⟩ := hd
  simp [DemInv, hstate, hclock, hspaces, hmarks, hacc, hbit, hk]

/-- Settles O42, by induction on the commands: each leaves the state as it was. -/
theorem noPrematureLock : Obligations.NoPrematureLock := by
  intro is s hfresh his
  induction is with
  | nil => rfl
  | cons i is ih =>
    obtain ⟨c, hc, hne⟩ := his i List.mem_cons_self
    have e := exec_of_frameClassOf (.inl hfresh.1) hc
    rw [demodStep_preambleSpace_of_ne_mark hfresh.1 hne] at e
    exact ⟨s, e, ih fun j hj => his j (List.mem_cons_of_mem i hj)⟩

/-! ## Counting the preamble's mark symbol (R166, R178) -/

/-- The state `s` with another D.STATE and D.CLOCK, as frames of the preamble leave it. -/
def State.atClock (s : State) (st : DemState) (clock : Word) : State :=
  { s with dem := { s.dem with state := st, clock := clock } }

section
variable {s : State} {st : DemState} {clock : Word}

@[simp] theorem State.atClock_dem : (s.atClock st clock).dem = { s.dem with state := st, clock := clock } := rfl
@[simp] theorem State.atClock_demOut : (s.atClock st clock).demOut = s.demOut := rfl

theorem State.atClock_self (hs : s.dem.state = st) : s.atClock st s.dem.clock = s := hs ▸ rfl

theorem frameClassOf_atClock (i : Instr) : frameClassOf i (s.atClock st clock) = frameClassOf i s :=
  frameClassOf_congr i rfl rfl rfl

end

/-- MARK frames below K advance the clock and nothing else. -/
theorem runsTo_preambleMark {marks : List Instr} {s : State} (hs : s.dem.state = .preambleMark)
    (hk : s.dem.clock.toNat + marks.length < s.dem.ksym.toNat) (hmarks : ∀ m ∈ marks, frameClassOf m s = some .mark) :
    ∃ clock, RunsTo marks s (s.atClock .preambleMark clock) ∧ clock.toNat = s.dem.clock.toNat + marks.length := by
  induction marks generalizing s with
  | nil => exact ⟨s.dem.clock, State.atClock_self hs, rfl⟩
  | cons m marks ih =>
    rw [List.length_cons] at hk ⊢
    have e := exec_of_frameClassOf (.inr (.inl hs)) (hmarks m List.mem_cons_self)
    rw [demodStep_preambleMark_counts hs (by omega)] at e
    have hnext : (BitVec.ofNat 32 (s.dem.clock.toNat + 1)).toNat = s.dem.clock.toNat + 1 :=
      Nat.mod_eq_of_lt (by have := s.dem.ksym.isLt; omega)
    obtain ⟨clock, hrun, hclock⟩ :=
      ih (s := { s with dem := { s.dem with clock := BitVec.ofNat 32 (s.dem.clock.toNat + 1) } }) hs
        (by simp only [hnext]; omega) fun j hj => hmarks j (List.mem_cons_of_mem m hj)
    exact ⟨clock, ⟨_, e, hrun⟩, by simp only [hnext] at hclock; omega⟩

/-- Settles O43: the MARK frames count, the next one faults, and the fault lasts. -/
theorem desyncIsFatal : Obligations.DesyncIsFatal := by
  intro marks i s hs hclock0 hk hmarks hi
  obtain ⟨clock, hrun, hclock⟩ := runsTo_preambleMark hs (by simpa [hclock0] using hk) hmarks
  obtain ⟨c, hc, hne⟩ : ∃ c, frameClassOf i s = some c ∧ c ≠ .mark :=
    hi.elim (fun h => ⟨_, h, by simp⟩) (fun h => ⟨_, h, by simp⟩)
  have e := exec_of_frameClassOf (s := s.atClock .preambleMark clock) (.inr (.inl rfl))
    ((frameClassOf_atClock i).trans hc)
  rw [demodStep_preambleMark_faults rfl hne] at e
  refine ⟨_, (runsTo_append ..).2 ⟨_, hrun, _, e, rfl⟩, rfl, rfl, rfl, ?_, rfl, fun is u his hu => ?_⟩
  · simpa [hclock0] using hclock
  · exact runsTo_of_dem_error rfl (fun j hj => (not_resetsDem_iff j).2 (his j hj)) hu

/-! ## Decisions (R167, R179) -/

theorem decidesNow_iff (i : Instr) (s : State) :
    decidesNow i s = true ↔ (∃ c, frameClassOf i s = some c) ∧ s.dem.state = .decode ∧
      s.dem.ksym.toNat ≤ s.dem.clock.toNat + 1 := by
  simp [decidesNow, Option.isSome_iff_exists, and_assoc]

theorem decisions_cons {i : Instr} {is : List Instr} {s t : State} (e : exec i s = .next t) :
    decisions (i :: is) s = (if decidesNow i s = true then 1 else 0) + decisions is t := by
  simp only [decisions, e]

/-- A frame adds a decided bit at the boundary of DECODE, to BITPOS or as a byte, and none elsewhere (R167, R170). -/
theorem bits_of_demodStep {h : Word} {c : ToneClass} {s : State} (hs : s.dem.Receiving)
    (hb : s.dem.bitpos.toNat ≤ 7) :
    ∃ bytes, (demodStep h c s).demOut = s.demOut ++ bytes ∧
      8 * bytes.length + (demodStep h c s).dem.bitpos.toNat = s.dem.bitpos.toNat +
        if s.dem.state = .decode ∧ s.dem.ksym.toNat ≤ s.dem.clock.toNat + 1 then 1 else 0 := by
  by_cases hd : s.dem.state = .decode ∧ s.dem.ksym.toNat ≤ s.dem.clock.toNat + 1
  · rw [if_pos hd]
    obtain ⟨hs, hk⟩ := hd
    rcases hb.lt_or_eq with hb | hb
    · rw [demodStep_decode_folds hs hk hb]
      exact ⟨[], (List.append_nil _).symm, by simp [bitpos_succ_toNat hb]⟩
    · rw [demodStep_decode_emits hs hk hb]
      exact ⟨_, rfl, by simp [hb]⟩
  · rw [if_neg hd]
    refine ⟨[], ?_⟩
    rcases hs with hs | hs | hs
    · cases c <;> simp [demodStep, hs, stepPreambleSpace]
    · by_cases hm : c = .mark
      · subst hm
        by_cases hk : s.dem.ksym.toNat ≤ s.dem.clock.toNat + 1
        · simp [demodStep_preambleMark_enters hs hk]
        · simp [demodStep_preambleMark_counts hs (Nat.lt_of_not_le hk)]
      · simp [demodStep_preambleMark_faults hs hm]
    · simp [demodStep_decode_votes hs (Nat.lt_of_not_le fun hk => hd ⟨hs, hk⟩)]

/-- The decided bits a command adds are a byte it emits or a step of BITPOS (R170, R179). -/
theorem bits_of_exec {i : Instr} {s t : State} (hi : ¬ resetsDem i) (hb : s.dem.bitpos.toNat ≤ 7)
    (hs : s.dem.state ≠ .idle) (e : exec i s = .next t) :
    ∃ bytes, t.demOut = s.demOut ++ bytes ∧
      8 * bytes.length + t.dem.bitpos.toNat = s.dem.bitpos.toNat + if decidesNow i s = true then 1 else 0 := by
  by_cases hf : s.dem.Receiving ∧ ∃ c, frameClassOf i s = some c
  · obtain ⟨hr, c, hc⟩ := hf
    obtain rfl := Host.Outcome.next.inj ((exec_of_frameClassOf hr hc).symm.trans e)
    have hiff : decidesNow i s = true ↔ s.dem.state = .decode ∧ s.dem.ksym.toNat ≤ s.dem.clock.toNat + 1 := by
      simp [decidesNow_iff, hc]
    simpa only [hiff] using bits_of_demodStep hr hb
  · have hno : ¬ decidesNow i s = true := fun h => by
      obtain ⟨hc, hdec, -⟩ := (decidesNow_iff i s).1 h
      exact hf ⟨.inr (.inr hdec), hc⟩
    rw [if_neg hno]
    refine ⟨[], ?_⟩
    cases demResult_of_exec hi e with
    | ignored hdem hout => simp [hdem, hout]
    | refused _ => simp
    | setUp hidle _ => exact absurd hidle hs
    | frame hr hc => exact absurd ⟨hr, _, hc⟩ hf
    | ended _ => simp [endDem_of_bitpos_le hb]

/-- Only a reset takes DEM to IDLE (R45). -/
theorem state_ne_idle_of_exec {i : Instr} {s t : State} (hi : ¬ resetsDem i)
    (hs : s.dem.state ≠ .idle) (e : exec i s = .next t) : t.dem.state ≠ .idle := by
  intro ht
  obtain ⟨bytes, -, hm⟩ := demMove_of_exec e
  have hforward := hm.state_forward (ht ▸ hs)
  simp only [ht, reduceCtorEq, false_and, and_false, false_or, true_and] at hforward
  exact hi (hforward.imp (encodeHeader_eq_dRst_iff i).1 (encodeHeader_eq_grst_iff i).1)

/-- R179, from any state of a stream: the decided bits are the decisions. -/
theorem bits_of_runsTo {is : List Instr} {s t : State} (hinv : DemInv s.dem) (hs : s.dem.state ≠ .idle)
    (his : ∀ i ∈ is, ¬ resetsDem i) (hrun : RunsTo is s t) :
    ∃ bytes, t.demOut = s.demOut ++ bytes ∧
      8 * bytes.length + t.dem.bitpos.toNat = s.dem.bitpos.toNat + decisions is s := by
  induction is generalizing s with
  | nil => exact hrun ▸ ⟨[], (List.append_nil _).symm, by simp [decisions]⟩
  | cons i is ih =>
    obtain ⟨u, e, hrest⟩ := hrun
    have hi := his i List.mem_cons_self
    obtain ⟨_, -, hm⟩ := demMove_of_exec e
    obtain ⟨bytes, hout, hbits⟩ := bits_of_exec hi (bitpos_le_of_demInv hinv) hs e
    obtain ⟨bytes', hout', hbits'⟩ := ih (hm.keeps_demInv hinv) (state_ne_idle_of_exec hi hs e)
      (fun j hj => his j (List.mem_cons_of_mem i hj)) hrest
    refine ⟨bytes ++ bytes', by rw [hout', hout, List.append_assoc], ?_⟩
    rw [List.length_append, decisions_cons e]
    omega

/-- Settles O44: R179 from the fresh unit, whose BITPOS is 0. -/
theorem everyByteTakesEightDecisions : Obligations.EveryByteTakesEightDecisions := by
  intro is s t hfresh his hrun
  have hinv := demInv_of_fresh hfresh
  obtain ⟨hstate, -, -, -, -, hbit, -⟩ := hfresh
  obtain ⟨bytes, hout, hbits⟩ := bits_of_runsTo hinv (by simp [hstate])
    (fun i hi => (not_resetsDem_iff i).2 (his i hi)) hrun
  exact ⟨bytes, hout, by simpa [hbit] using hbits⟩

/-! ## Windows (R180, R181) -/

/-- Frames short of the boundary decide nothing; with the one that reaches it they decide once. -/
theorem decisions_of_frames {is : List Instr} {s : State} (hs : s.dem.state = .decode)
    (his : ∀ i ∈ is, (frameClassOf i s).isSome = true) (hclock : s.dem.clock.toNat < s.dem.ksym.toNat)
    (hlen : s.dem.clock.toNat + is.length ≤ s.dem.ksym.toNat) :
    decisions is s = if s.dem.clock.toNat + is.length = s.dem.ksym.toNat then 1 else 0 := by
  induction is generalizing s with
  | nil => simp [decisions, hclock.ne]
  | cons i is ih =>
    rw [List.length_cons] at hlen ⊢
    obtain ⟨c, hc⟩ := Option.isSome_iff_exists.1 (his i List.mem_cons_self)
    have e := exec_of_frameClassOf (.inr (.inr hs)) hc
    rw [decisions_cons e]
    by_cases hk : s.dem.clock.toNat + 1 < s.dem.ksym.toNat
    · have hno : ¬ decidesNow i s = true := fun h => Nat.not_le.2 hk ((decidesNow_iff i s).1 h).2.2
      have hnext := DemUnit.counted_clock_toNat c hk
      rw [demodStep_decode_votes hs hk, if_neg hno, ih (by simpa using hs)]
      · simp only [hnext, DemUnit.counted_ksym]
        rw [Nat.zero_add, Nat.add_assoc, Nat.add_comm 1]
      · intro j hj
        rw [frameClassOf_congr (s := s) j (by simp) (by simp) (by simp)]
        exact his j (List.mem_cons_of_mem i hj)
      · simpa only [hnext, DemUnit.counted_ksym] using hk
      · simp only [hnext, DemUnit.counted_ksym]
        omega
    · obtain rfl : is = [] := List.eq_nil_of_length_eq_zero (by omega)
      have hyes : decidesNow i s = true := (decidesNow_iff i s).2 ⟨⟨c, hc⟩, hs, Nat.not_lt.1 hk⟩
      rw [if_pos hyes, if_pos (by simp only [List.length_nil]; omega)]
      rfl

/-- Settles O45: K − c frames reach the boundary, and one fewer do not. -/
theorem decisionWindowLength : Obligations.DecisionWindowLength := by
  intro is s hinv hs his hlen
  obtain ⟨-, -, -, hdec, -⟩ := hinv
  have hclock := (hdec hs).2
  constructor
  · rw [decisions_of_frames hs (fun i hi => his i (List.mem_of_mem_dropLast hi)) hclock
      (by rw [List.length_dropLast]; omega), List.length_dropLast]
    exact if_neg (by omega)
  · rw [decisions_of_frames hs his hclock (by omega)]
    exact if_pos (by omega)

/-- A decision clears the votes, leaves the clock at the minority count, and keeps DECODE and K (R169, R171). -/
theorem demodStep_at_decision {h : Word} {c : ToneClass} {s : State} (hs : s.dem.state = .decode)
    (hk : s.dem.ksym.toNat ≤ s.dem.clock.toNat + 1) (hb : s.dem.bitpos.toNat ≤ 7)
    (hvotes : s.dem.spaces.toNat + s.dem.marks.toNat < s.dem.ksym.toNat) :
    (demodStep h c s).dem.state = .decode ∧ (demodStep h c s).dem.ksym = s.dem.ksym ∧
      (demodStep h c s).dem.clock.toNat = min (s.dem.spaces.toNat + if c = .space then 1 else 0)
        (s.dem.marks.toNat + if c = .mark then 1 else 0) ∧
      (demodStep h c s).dem.spaces = 0 ∧ (demodStep h c s).dem.marks = 0 := by
  have herr := DemUnit.decisionErr_counted c hvotes
  rcases hb.lt_or_eq with hb | hb
  · rw [demodStep_decode_folds hs hk hb]
    exact ⟨by simp [hs], by simp, herr, rfl, rfl⟩
  · rw [demodStep_decode_emits hs hk hb]
    exact ⟨by simp [hs], by simp, herr, rfl, rfl⟩

/-- Settles O46: the votes are at most K, and the minority is at most half of them. -/
theorem decisionErrorBound : Obligations.DecisionErrorBound := by
  intro i c s hinv hc hdecides spaces marks votes k
  obtain ⟨-, hs, hk⟩ := (decidesNow_iff i s).1 hdecides
  have hlt := votes_lt_ksym_of_demInv hinv hs
  obtain ⟨hstate, hksym, hclock, -⟩ :=
    demodStep_at_decision (h := encodeHeader i) (c := c) hs hk (bitpos_le_of_demInv hinv) hlt
  have hvotes : votes ≤ k := by
    have hone : (if c = .space then 1 else 0) + (if c = .mark then 1 else 0) ≤ 1 := by cases c <;> simp
    omega
  refine ⟨_, exec_of_frameClassOf (.inr (.inr hs)) hc, hclock, ?_⟩
  rw [hclock]
  refine ⟨by omega, hvotes, by omega, by omega, by omega, fun h1 => ⟨by omega, fun j hj => ?_⟩⟩
  refine (decidesNow_iff j _).2 ⟨Option.isSome_iff_exists.1 hj, hstate, ?_⟩
  rw [hksym]
  omega

end Sys2Proof.Machine
end

section
/-! SUPPORT. Bytes as decided bits: the bits that stand in DEM_OUT, D.ACC and D.BITPOS (20_memory.md R65;
42_demodulator.md R170). -/

namespace Sys2Proof.Machine

/-! ## Bytes and their bits -/

@[simp] theorem length_byteBits (b : Byte) : (byteBits b).length = 8 := rfl

theorem byteBits_injective {b b' : Byte} (h : byteBits b = byteBits b') : b = b' := by
  refine BitVec.eq_of_getLsbD_eq fun i hi => ?_
  simpa [byteBits, hi] using congrArg (·[i]?) h

/-- Eight folds give the byte of the eight bits (R170). -/
theorem byteBits_foldl_foldBit {ds : List Bool} (hds : ds.length = 8) : byteBits (ds.foldl foldBit 0) = ds := by
  refine List.ext_getElem (by simp [hds]) fun i hi _ => ?_
  have hi8 : i < 8 := hi
  have hbit := foldedBitsLsbFirst ds hds.le i hi8
  simpa [byteBits, hds, hi8] using hbit

@[simp] theorem length_flatMap_byteBits (bs : List Byte) : (bs.flatMap byteBits).length = 8 * bs.length := by
  simp [List.length_flatMap, Nat.mul_comm]

/-- A bit sequence is cut into bytes and a part of a byte in one way. -/
theorem flatMap_byteBits_append_inj {bs bs' : List Byte} {ds ds' : List Bool} (hds : ds.length < 8)
    (hds' : ds'.length < 8) (h : bs.flatMap byteBits ++ ds = bs'.flatMap byteBits ++ ds') : bs = bs' ∧ ds = ds' := by
  induction bs generalizing bs' with
  | nil =>
    cases bs' with
    | nil => exact ⟨rfl, h⟩
    | cons b' bs' =>
      have hlen := congrArg List.length h
      simp at hlen
      omega
  | cons b bs ih =>
    cases bs' with
    | nil =>
      have hlen := congrArg List.length h
      simp at hlen
      omega
    | cons b' bs' =>
      simp only [List.flatMap_cons, List.append_assoc] at h
      obtain ⟨hb, hrest⟩ := List.append_inj h rfl
      obtain ⟨rfl, rfl⟩ := ih hrest
      exact ⟨by rw [byteBits_injective hb], rfl⟩

/-- The first bit of a stream's payload is bit 0 of its first byte. -/
theorem flatMap_byteBits_cons (b : Byte) (bs : List Byte) :
    (b :: bs).flatMap byteBits = b.getLsbD 0 :: ((byteBits b).tail ++ bs.flatMap byteBits) := rfl

theorem flatMap_byteBits_replicate_ones (m : ℕ) :
    (List.replicate m 0xFF).flatMap byteBits = List.replicate (8 * m) true := by
  induction m with
  | zero => rfl
  | succ m ih => rw [List.replicate_succ, List.flatMap_cons, ih, Nat.mul_succ, Nat.add_comm, List.replicate_add]; rfl

/-- Bits that are not all 1 are ones up to a first 0. -/
theorem exists_first_zero {ds : List Bool} (h : false ∈ ds) :
    ∃ n rest, ds = List.replicate n true ++ false :: rest := by
  induction ds with
  | nil => cases h
  | cons d ds ih =>
    cases d with
    | false => exact ⟨0, ds, rfl⟩
    | true =>
      obtain ⟨n, rest, hds⟩ := ih (by simpa using h)
      exact ⟨n + 1, rest, by rw [List.replicate_succ, List.cons_append, ← hds]⟩

/-- Bits without a 0 are all ones. -/
theorem eq_replicate_true {ds : List Bool} (h : false ∉ ds) : ds = List.replicate ds.length true :=
  List.eq_replicate_iff.2 ⟨rfl, fun d hd => by cases d with | false => exact absurd hd h | true => rfl⟩

/-! ## Decided bits in the unit -/

/-- The bits `ds`, decided since DEM_OUT was `out`: whole bytes in DEM_OUT, and the rest in D.ACC, counted by
D.BITPOS. -/
def Packed (out : List Byte) (ds : List Bool) (s : State) : Prop :=
  ∃ bytes part, ds = bytes.flatMap byteBits ++ part ∧ part.length < 8 ∧ s.demOut = out ++ bytes ∧
    s.dem.bitpos.toNat = part.length ∧ s.dem.acc = part.foldl foldBit 0

section
variable {out : List Byte} {ds : List Bool} {s t : State}

theorem packed_nil (hbit : s.dem.bitpos = 0) (hacc : s.dem.acc = 0) : Packed s.demOut [] s :=
  ⟨[], [], rfl, by decide, (List.append_nil _).symm, by simp [hbit], hacc⟩

theorem Packed.bitpos_le (hp : Packed out ds s) : s.dem.bitpos.toNat ≤ 7 := by
  obtain ⟨bytes, part, -, hlen, -, hbit, -⟩ := hp
  omega

theorem Packed.congr (hp : Packed out ds s) (hout : t.demOut = s.demOut) (hbit : t.dem.bitpos = s.dem.bitpos)
    (hacc : t.dem.acc = s.dem.acc) : Packed out ds t := by
  simpa only [Packed, hout, hbit, hacc] using hp

/-- The whole bytes of the decided bits are what came out, and BITPOS counts the rest. -/
theorem Packed.bytes_eq {bs : List Byte} {rest : List Bool} (hp : Packed out (bs.flatMap byteBits ++ rest) s)
    (hrest : rest.length < 8) : s.demOut = out ++ bs ∧ s.dem.bitpos.toNat = rest.length := by
  obtain ⟨bytes, part, hds, hlen, hout, hbit, -⟩ := hp
  obtain ⟨rfl, rfl⟩ := flatMap_byteBits_append_inj hrest hlen hds
  exact ⟨hout, hbit⟩

/-- The decided bits begin with the bytes that came out. -/
theorem Packed.begins_with_bytes {bs : List Byte} (hp : Packed out ds s) (hout : s.demOut = out ++ bs) :
    bs.flatMap byteBits <+: ds := by
  obtain ⟨bytes, part, rfl, -, hout', -⟩ := hp
  obtain rfl := List.append_cancel_left (hout.symm.trans hout')
  exact List.prefix_append _ _

/-- A decision adds its bit (R169, R170). -/
theorem Packed.decision {h : Word} {c : ToneClass} (hp : Packed out ds s) (hs : s.dem.state = .decode)
    (hk : s.dem.ksym.toNat ≤ s.dem.clock.toNat + 1) :
    Packed out (ds ++ [(s.dem.counted c).decidedBit]) (demodStep h c s) := by
  have hb := hp.bitpos_le
  obtain ⟨bytes, part, rfl, hlen, hout, hbit, hacc⟩ := hp
  have hfold : foldBit s.dem.acc (s.dem.counted c).decidedBit =
      (part ++ [(s.dem.counted c).decidedBit]).foldl foldBit 0 := by
    rw [List.foldl_concat, hacc]
  rcases hb.lt_or_eq with hb | hb
  · rw [demodStep_decode_folds hs hk hb, hfold]
    refine ⟨bytes, part ++ [_], List.append_assoc .., ?_, hout, ?_, rfl⟩
    · rw [List.length_append, List.length_singleton]
      omega
    · exact (bitpos_succ_toNat hb).trans (by simp [hbit])
  · have h8 : (part ++ [(s.dem.counted c).decidedBit]).length = 8 := by simp; omega
    rw [demodStep_decode_emits hs hk hb, hfold]
    refine ⟨bytes ++ [(part ++ [(s.dem.counted c).decidedBit]).foldl foldBit 0], [], ?_, by decide, ?_, rfl, rfl⟩
    · rw [List.flatMap_append, List.flatMap_singleton, byteBits_foldl_foldBit h8, List.append_nil, List.append_assoc]
    · rw [hout, List.append_assoc]

end

end Sys2Proof.Machine
end

section
/-! SUPPORT. The windows of an aligned loop-back under ideal classes: the preamble, the windows that lag one frame,
and the windows that are symbols (42_demodulator.md R187 to R193). -/

namespace Sys2Proof.Machine

/-! ## Frames of one symbol -/

/-- The class an ideal detector reports for a symbol of bit `b` (R195). -/
def bitClass (b : Bool) : ToneClass := if b then .mark else .space

@[simp] theorem classify_not_self (b : Bool) : classify (!b) b = bitClass b := by cases b <;> rfl

theorem frameClassOf_clsOf (b : Bool) (s : State) : frameClassOf (clsOf b) s = some (bitClass b) :=
  congrArg some (classify_not_self b)

theorem exec_clsOf {s : State} (b : Bool) (hs : s.dem.Receiving) :
    exec (clsOf b) s = .next (demodStep (encodeHeader (clsOf b)) (bitClass b) s) :=
  exec_of_frameClassOf hs (frameClassOf_clsOf b s)

theorem clsFrames_cons (p : ℕ) (b : Bool) (bits : List Bool) :
    clsFrames p (b :: bits) = List.replicate p (clsOf b) ++ clsFrames p bits := rfl

theorem clsFrames_append (p : ℕ) (bits bits' : List Bool) :
    clsFrames p (bits ++ bits') = clsFrames p bits ++ clsFrames p bits' := List.flatMap_append

/-- The frames of one symbol, then those of the others. -/
theorem runsTo_clsFrames_cons {p : ℕ} {b : Bool} {bits : List Bool} {s t u : State}
    (h : RunsTo (List.replicate p (clsOf b)) s t) (h' : RunsTo (clsFrames p bits) t u) :
    RunsTo (clsFrames p (b :: bits)) s u :=
  (runsTo_append ..).2 ⟨t, h, h'⟩

/-- The frames of a symbol sequence in two parts. -/
theorem runsTo_clsFrames_append {p : ℕ} {bits bits' : List Bool} {s t u : State}
    (h : RunsTo (clsFrames p bits) s t) (h' : RunsTo (clsFrames p bits') t u) :
    RunsTo (clsFrames p (bits ++ bits')) s u :=
  clsFrames_append p bits bits' ▸ (runsTo_append ..).2 ⟨t, h, h'⟩

/-! ## A window -/

/-- DEM in DECODE with K = `k`, the clock at `n`, `x` votes for space and `y` for mark, and the bits `ds` decided
since DEM_OUT was `out`. -/
structure Window (out : List Byte) (k : ℕ) (ds : List Bool) (n x y : ℕ) (s : State) : Prop where
  state : s.dem.state = .decode
  ksym : s.dem.ksym.toNat = k
  clock : s.dem.clock.toNat = n
  spaces : s.dem.spaces.toNat = x
  marks : s.dem.marks.toNat = y
  packed : Packed out ds s

namespace Window

variable {out : List Byte} {k n x y : ℕ} {ds : List Bool} {s : State}

/-- A frame of bit `b` below the boundary (R167, R168). -/
theorem vote (w : Window out k ds n x y s) (h : Word) (b : Bool) (hn : n + 1 < k) (hxy : x + y ≤ n) :
    Window out k ds (n + 1) (x + (!b).toNat) (y + b.toNat) (demodStep h (bitClass b) s) := by
  obtain ⟨hs, rfl, rfl, rfl, rfl, hp⟩ := w
  have hlt : s.dem.spaces.toNat + s.dem.marks.toNat < s.dem.ksym.toNat := by omega
  rw [demodStep_decode_votes hs hn]
  refine ⟨by simpa using hs, by simp, DemUnit.counted_clock_toNat _ hn, ?_, ?_, hp.congr rfl (by simp) (by simp)⟩
  · simp only [DemUnit.counted_spaces_toNat _ hlt]
    cases b <;> rfl
  · simp only [DemUnit.counted_marks_toNat _ hlt]
    cases b <;> rfl

/-- A frame of bit `b` that reaches the boundary (R169 to R171). -/
theorem decision (w : Window out k ds n x y s) (h : Word) (b : Bool) (hn : n + 1 = k) (hxy : x + y ≤ n) :
    Window out k (ds ++ [decide (x + (!b).toNat < y + b.toNat)])
      (min (x + (!b).toNat) (y + b.toNat)) 0 0 (demodStep h (bitClass b) s) := by
  obtain ⟨hs, rfl, rfl, rfl, rfl, hp⟩ := w
  have hlt : s.dem.spaces.toNat + s.dem.marks.toNat < s.dem.ksym.toNat := by omega
  have hspace : (if bitClass b = .space then 1 else 0) = (!b).toNat := by cases b <;> rfl
  have hmark : (if bitClass b = .mark then 1 else 0) = b.toNat := by cases b <;> rfl
  obtain ⟨hstate, hksym, hclock, hspaces, hmarks⟩ :=
    demodStep_at_decision (h := h) (c := bitClass b) hs hn.ge hp.bitpos_le hlt
  have hp' := hp.decision (h := h) (c := bitClass b) hs hn.ge
  rw [DemUnit.decidedBit_counted _ hlt, hspace, hmark] at hp'
  rw [hspace, hmark] at hclock
  exact ⟨hstate, congrArg _ hksym, hclock, congrArg _ hspaces, congrArg _ hmarks, hp'⟩

/-- `m` frames of bit `b` below the boundary. -/
theorem runsTo_votes (w : Window out k ds n x y s) (b : Bool) {m : ℕ} (hn : n + m < k) (hxy : x + y ≤ n) :
    ∃ t, RunsTo (List.replicate m (clsOf b)) s t ∧
      Window out k ds (n + m) (x + m * (!b).toNat) (y + m * b.toNat) t := by
  induction m generalizing n x y s with
  | zero => exact ⟨s, rfl, by simpa using w⟩
  | succ m ih =>
    have hone : (!b).toNat + b.toNat = 1 := by cases b <;> rfl
    obtain ⟨t, hrun, w'⟩ := ih (w.vote (encodeHeader (clsOf b)) b (by omega) hxy) (by omega) (by omega)
    refine ⟨t, ⟨_, exec_clsOf b (.inr (.inr w.state)), hrun⟩, ?_⟩
    convert w' using 1 <;> ring

/-- Frames of bit `b` up to the one that reaches the boundary. -/
theorem runsTo_decide (w : Window out k ds n x y s) (b : Bool) {m : ℕ} (hn : n + (m + 1) = k) (hxy : x + y ≤ n) :
    ∃ t, RunsTo (List.replicate (m + 1) (clsOf b)) s t ∧
      Window out k (ds ++ [decide (x + (m + 1) * (!b).toNat < y + (m + 1) * b.toNat)])
        (min (x + (m + 1) * (!b).toNat) (y + (m + 1) * b.toNat)) 0 0 t := by
  have hone : (!b).toNat + b.toNat = 1 := by cases b <;> rfl
  have hvotes : x + m * (!b).toNat + (y + m * b.toNat) ≤ n + m := by
    have hm : m * (!b).toNat + m * b.toNat = m := by rw [← Nat.mul_add, hone, Nat.mul_one]
    omega
  obtain ⟨t, hrun, w'⟩ := w.runsTo_votes b (m := m) (by omega) hxy
  have w'' := w'.decision (encodeHeader (clsOf b)) b (by omega) hvotes
  simp only [Nat.add_assoc, ← Nat.succ_mul] at w''
  rw [List.replicate_succ']
  exact ⟨_, (runsTo_append ..).2 ⟨t, hrun, _, exec_clsOf b (.inr (.inr w'.state)), rfl⟩, w''⟩

/-! ## Windows that are symbols (R191) -/

/-- From an aligned window the frames of a symbol decide its bit, with error 0. -/
theorem runsTo_symbol (w : Window out k ds 0 0 0 s) (hk : 0 < k) (b : Bool) :
    ∃ t, RunsTo (List.replicate k (clsOf b)) s t ∧ Window out k (ds ++ [b]) 0 0 0 t := by
  obtain ⟨m, rfl⟩ := Nat.exists_eq_add_one_of_ne_zero hk.ne'
  obtain ⟨t, hrun, w'⟩ := w.runsTo_decide b (m := m) (by omega) le_rfl
  refine ⟨t, hrun, ?_⟩
  cases b <;> simpa using w'

/-- From an aligned window every symbol is decided as it was sent. -/
theorem runsTo_symbols (w : Window out k ds 0 0 0 s) (hk : 0 < k) (bits : List Bool) :
    ∃ t, RunsTo (clsFrames k bits) s t ∧ Window out k (ds ++ bits) 0 0 0 t := by
  induction bits generalizing ds s with
  | nil => exact ⟨s, rfl, by simpa using w⟩
  | cons b bits ih =>
    obtain ⟨t, hrun, w'⟩ := w.runsTo_symbol hk b
    obtain ⟨u, hrun', w''⟩ := ih w'
    exact ⟨u, runsTo_clsFrames_cons hrun hrun', by simpa using w''⟩

/-! ## Windows that lag one frame (R190) -/

/-- A lagging window after MARK symbols, then one more MARK symbol: a 1 is decided and the window lags on. -/
theorem runsTo_lagging_mark (w : Window out k ds (k - 1) 0 (k - 1) s) (hk : 0 < k) :
    ∃ t, RunsTo (List.replicate k (clsOf true)) s t ∧ Window out k (ds ++ [true]) (k - 1) 0 (k - 1) t := by
  obtain ⟨m, rfl⟩ := Nat.exists_eq_add_one_of_ne_zero hk.ne'
  have w' := w.decision (encodeHeader (clsOf true)) true (by omega) (by omega)
  simp only [Bool.not_true, Bool.toNat_false, Bool.toNat_true, Nat.add_zero, Nat.zero_min] at w'
  obtain ⟨t, hrun, w''⟩ := w'.runsTo_votes true (m := m) (by omega) le_rfl
  refine ⟨t, ⟨_, exec_clsOf true (.inr (.inr w.state)), hrun⟩, ?_⟩
  simpa using w''

theorem runsTo_lagging_marks (w : Window out k ds (k - 1) 0 (k - 1) s) (hk : 0 < k) (n : ℕ) :
    ∃ t, RunsTo (clsFrames k (List.replicate n true)) s t ∧
      Window out k (ds ++ List.replicate n true) (k - 1) 0 (k - 1) t := by
  induction n generalizing ds s with
  | zero => exact ⟨s, rfl, by simpa using w⟩
  | succ n ih =>
    obtain ⟨t, hrun, w'⟩ := w.runsTo_lagging_mark hk
    obtain ⟨u, hrun', w''⟩ := ih w'
    exact ⟨u, runsTo_clsFrames_cons hrun hrun', by simpa [List.replicate_succ] using w''⟩

/-- A lagging window that ends on the first frame of a SPACE symbol decides 1 with error 1, but for the tie of K = 2
(R193); the next window is the rest of that symbol and is decided 0, and the windows are aligned (R191). -/
theorem runsTo_lagging_space (w : Window out k ds (k - 1) 0 (k - 1) s) (hk : 2 ≤ k) :
    ∃ t, RunsTo (List.replicate k (clsOf false)) s t ∧
      Window out k (ds ++ [decide (2 < k), false]) 0 0 0 t := by
  obtain ⟨m, rfl⟩ := Nat.exists_eq_add_of_le' hk
  have w' := w.decision (encodeHeader (clsOf false)) false (by omega) (by omega)
  simp only [Bool.not_false, Bool.toNat_false, Bool.toNat_true] at w'
  rw [Nat.zero_add, Nat.add_zero, Nat.min_eq_left (by omega)] at w'
  obtain ⟨t, hrun, w''⟩ := w'.runsTo_decide false (m := m) (by omega) (by omega)
  refine ⟨t, ⟨_, exec_clsOf false (.inr (.inr w.state)), hrun⟩, ?_⟩
  simpa using w''

end Window

end Sys2Proof.Machine
end

section
/-! SUPPORT. Whole streams on an aligned loop-back under ideal classes (42_demodulator.md R187 to R196). -/

namespace Sys2Proof.Machine

/-! ## The preamble (R189) -/

/-- A MARK frame locks the fresh unit; the frames of the preamble leave it in PREAMBLE_MARK, one frame short of
DECODE. -/
theorem runsTo_preamble {s : State} (hs : DemFresh s.dem) :
    ∃ clock, RunsTo (clsFrames s.dem.ksym.toNat [false, true]) s (s.atClock .preambleMark clock) ∧
      clock.toNat + 1 = s.dem.ksym.toNat := by
  obtain ⟨hstate, -, -, -, -, -, hk⟩ := id hs
  obtain ⟨m, hm⟩ := Nat.exists_eq_add_one_of_ne_zero hk.ne'
  have hspaces : RunsTo (List.replicate s.dem.ksym.toNat (clsOf false)) s s :=
    noPrematureLock _ s hs fun i hi => ⟨.space, List.eq_of_mem_replicate hi ▸ rfl, by simp⟩
  have hlock : exec (clsOf true) s = .next (s.atClock .preambleMark 0) :=
    (exec_clsOf true (.inl hstate)).trans (congrArg _ (demodStep_preambleSpace_mark hstate))
  obtain ⟨clock, hrun, hclock⟩ := runsTo_preambleMark (marks := List.replicate m (clsOf true))
    (s := s.atClock .preambleMark 0) rfl (by simp [hm]) fun i hi => List.eq_of_mem_replicate hi ▸ rfl
  have hmarks : RunsTo (List.replicate s.dem.ksym.toNat (clsOf true)) s (s.atClock .preambleMark clock) := by
    rw [hm]
    exact ⟨_, hlock, hrun⟩
  exact ⟨clock, runsTo_clsFrames_cons hspaces (runsTo_clsFrames_cons hmarks rfl), by simp [hclock, hm]⟩

/-- A first payload symbol of bit 1 enters DECODE with its first frame; the rest of its frames are the first votes,
and the windows lag one frame (R190). -/
theorem runsTo_preamble_mark {s : State} (hs : DemFresh s.dem) :
    ∃ t, RunsTo (clsFrames s.dem.ksym.toNat [false, true, true]) s t ∧
      Window s.demOut s.dem.ksym.toNat [] (s.dem.ksym.toNat - 1) 0 (s.dem.ksym.toNat - 1) t := by
  obtain ⟨clock, hpre, hclock⟩ := runsTo_preamble hs
  obtain ⟨-, -, hspaces, hmarks, hacc, hbit, hk⟩ := hs
  have henter := exec_clsOf (s := s.atClock .preambleMark clock) true (.inr (.inl rfl))
  rw [bitClass, if_pos rfl, demodStep_preambleMark_enters rfl hclock.ge] at henter
  have hwindow : Window s.demOut s.dem.ksym.toNat [] 0 0 0 (s.atClock .decode 0) :=
    ⟨rfl, rfl, rfl, by simp [hspaces], by simp [hmarks], packed_nil (s := s.atClock .decode 0) hbit hacc⟩
  obtain ⟨t, hrun, w⟩ := hwindow.runsTo_votes true (m := s.dem.ksym.toNat - 1) (by omega) le_rfl
  have hfirst : RunsTo (List.replicate s.dem.ksym.toNat (clsOf true)) (s.atClock .preambleMark clock) t := by
    rw [← Nat.sub_add_cancel hk, List.replicate_succ]
    exact ⟨_, henter, hrun⟩
  exact ⟨t, runsTo_clsFrames_append hpre (runsTo_clsFrames_cons hfirst rfl), by simpa using w⟩

/-! ## Payloads that begin with a 1 -/

/-- A payload of ones keeps the windows lagging: its last bit is never decided (R192). -/
theorem runsTo_ones {s : State} (hs : DemFresh s.dem) (n : ℕ) :
    ∃ t, RunsTo (clsFrames s.dem.ksym.toNat (false :: true :: true :: List.replicate n true)) s t ∧
      Window s.demOut s.dem.ksym.toNat (List.replicate n true) (s.dem.ksym.toNat - 1) 0 (s.dem.ksym.toNat - 1) t := by
  obtain ⟨t, hrun, w⟩ := runsTo_preamble_mark hs
  obtain ⟨-, -, -, -, -, -, hk⟩ := hs
  obtain ⟨u, hrun', w'⟩ := w.runsTo_lagging_marks hk n
  exact ⟨u, runsTo_clsFrames_append hrun hrun', w'⟩

/-- The first 0 aligns the windows; with K = 2 the 1 before it is lost to a tie (R191, R193). -/
theorem runsTo_ones_zero {s : State} (hs : DemFresh s.dem) (hk : 2 ≤ s.dem.ksym.toNat) (n : ℕ) (rest : List Bool) :
    ∃ t, RunsTo (clsFrames s.dem.ksym.toNat (false :: true :: true :: (List.replicate n true ++ false :: rest))) s t ∧
      Window s.demOut s.dem.ksym.toNat (List.replicate n true ++ decide (2 < s.dem.ksym.toNat) :: false :: rest)
        0 0 0 t := by
  obtain ⟨t, hrun, w⟩ := runsTo_ones hs n
  obtain ⟨u, hrun', w'⟩ := w.runsTo_lagging_space hk
  obtain ⟨v, hrun'', w''⟩ := w'.runsTo_symbols (by omega) rest
  exact ⟨v, runsTo_clsFrames_append hrun (runsTo_clsFrames_cons hrun' hrun''), by simpa using w''⟩

/-- The symbols of a stream, with the first payload bit in front (R137). -/
theorem streamBits_cons (b : Byte) (bs : List Byte) :
    streamBits (b :: bs) = false :: true :: b.getLsbD 0 :: ((byteBits b).tail ++ bs.flatMap byteBits) := rfl

/-- D.END in a window goes to DONE and keeps what is decided (R174). -/
theorem Window.runsTo_end {out : List Byte} {k n x y : ℕ} {ds : List Bool} {s : State}
    (w : Window out k ds n x y s) : ∃ t, RunsTo [.dEnd] s t ∧ t.dem.state = .done ∧ Packed out ds t := by
  have e := exec_dEnd_of_receiving (.inr (.inr w.state))
  rw [endDem_of_bitpos_le w.packed.bitpos_le] at e
  exact ⟨_, ⟨_, e, rfl⟩, rfl, w.packed.congr rfl rfl rfl⟩

/-- Settles O56: ones up to the first 0 are decided late, and the rest in step. -/
theorem alignedClassesDecodeExactly : Obligations.AlignedClassesDecodeExactly := by
  rintro p b bs s hs rfl hp hodd hzero
  rw [flatMap_byteBits_cons, hodd, List.mem_cons] at hzero
  obtain ⟨n, rest, hbits⟩ := exists_first_zero (hzero.resolve_left (by simp))
  obtain ⟨t, hrun, w⟩ := runsTo_ones_zero hs (by omega) n rest
  obtain ⟨u, hend, hdone, hpacked⟩ := w.runsTo_end
  have hpayload : List.replicate n true ++ decide (2 < s.dem.ksym.toNat) :: false :: rest =
      (b :: bs).flatMap byteBits ++ [] := by
    rw [List.append_nil, flatMap_byteBits_cons, hodd, hbits, decide_eq_true (show 2 < _ from hp), ← List.cons_append,
      ← List.replicate_succ, List.replicate_succ', List.append_assoc, List.singleton_append]
  rw [hpayload] at hpacked
  refine ⟨u, (runsTo_append ..).2 ⟨t, ?_, hend⟩, hdone, (hpacked.bytes_eq (by decide)).1⟩
  rwa [streamBits_cons, hodd, hbits]

/-- Settles O58: the windows lag to the end, so one bit is missing. -/
theorem allOnesStreamLosesLastByte : Obligations.AllOnesStreamLosesLastByte := by
  rintro p m s hs rfl
  obtain ⟨t, hrun, w⟩ := runsTo_ones hs (8 * m + 7)
  obtain ⟨u, hend, hdone, hpacked⟩ := w.runsTo_end
  have hsent : streamBits (List.replicate (m + 1) 0xFF) =
      false :: true :: true :: List.replicate (8 * m + 7) true := by
    rw [streamBits, flatMap_byteBits_replicate_ones, ← List.replicate_succ]
    rfl
  rw [List.replicate_add, ← flatMap_byteBits_replicate_ones] at hpacked
  obtain ⟨hout, hbit⟩ := hpacked.bytes_eq (by decide)
  exact ⟨u, (runsTo_append ..).2 ⟨t, hsent ▸ hrun, hend⟩, hdone, hout, hbit⟩

/-! ## Payloads that begin with a 0 (R194) -/

theorem length_clsFrames (p : ℕ) (bits : List Bool) : (clsFrames p bits).length = p * bits.length := by
  simp [clsFrames, List.length_flatMap, Nat.mul_comm]

/-- Settles O57: the first frame of a first bit 0 finds PREAMBLE_MARK one frame short of DECODE, and its fault
lasts. -/
theorem evenFirstByteFaults : Obligations.EvenFirstByteFaults := by
  rintro p b bs s hs rfl heven frames
  obtain ⟨clock, hpre, hclock⟩ := runsTo_preamble hs
  obtain ⟨rest, hframes⟩ : ∃ rest, frames = clsFrames s.dem.ksym.toNat [false, true] ++ clsOf false :: rest := by
    simp only [frames]
    rw [streamBits_cons, heven]
    change ∃ rest, clsFrames _ ([false, true] ++ false :: _) = _
    rw [clsFrames_append, clsFrames_cons, ← hclock, List.replicate_succ]
    exact ⟨_, rfl⟩
  have hlen : (clsFrames s.dem.ksym.toNat [false, true]).length = 2 * s.dem.ksym.toNat := by
    rw [length_clsFrames, Nat.mul_comm]
    rfl
  have hfault := exec_clsOf (s := s.atClock .preambleMark clock) false (.inr (.inl rfl))
  rw [demodStep_preambleMark_faults rfl (by decide)] at hfault
  set u := (s.atClock .preambleMark clock).raiseFault .dem .preamble (encodeHeader (clsOf false))
  obtain ⟨v, hrest⟩ := runsTo_total rest u
  have hrest_cls : ∀ i ∈ rest, ¬ resetsDem i := fun i hi => by
    have hmem : i ∈ frames := hframes ▸ by simp [hi]
    obtain ⟨d, -, hd⟩ := List.mem_flatMap.1 hmem
    exact List.eq_of_mem_replicate hd ▸ not_resetsDem_clsOf d
  obtain ⟨hdem, hout⟩ := runsTo_of_dem_error rfl hrest_cls hrest
  refine ⟨s.atClock .preambleMark clock, u, v, ?_, rfl, ?_, rfl, rfl, rfl, rfl, ?_, hdem, hout⟩
  · rw [hframes, List.take_left' hlen]
    exact hpre
  · rw [hframes, ← hlen, List.take_length_add_append]
    exact (runsTo_append ..).2 ⟨_, hpre, _, hfault, rfl⟩
  · rw [hframes]
    exact (runsTo_append ..).2 ⟨_, hpre, _, hfault, hrest⟩

/-! ## One or two frames a symbol (R193) -/

/-- A run of commands reaches one state. -/
theorem runsTo_unique {is : List Instr} {s t u : State} (ht : RunsTo is s t) (hu : RunsTo is s u) : t = u := by
  induction is generalizing s with
  | nil => exact ht.trans hu.symm
  | cons i is ih =>
    obtain ⟨x, hx, ht⟩ := ht
    obtain ⟨y, hy, hu⟩ := hu
    obtain rfl := Host.Outcome.next.inj (hx.symm.trans hy)
    exact ih ht hu

/-- With at most two frames a symbol the decided bits do not begin with the payload: the last bit is missing, or a tie
is decided 0 where a 1 was sent. -/
theorem runsTo_short_symbols {s : State} (hs : DemFresh s.dem) (hk : s.dem.ksym.toNat ≤ 2) (bits : List Bool) :
    ∃ t ds n x y, RunsTo (clsFrames s.dem.ksym.toNat (false :: true :: true :: bits)) s t ∧
      Window s.demOut s.dem.ksym.toNat ds n x y t ∧ ¬ true :: bits <+: ds := by
  by_cases h1 : s.dem.ksym.toNat = 1
  · obtain ⟨t, hrun, w⟩ := runsTo_preamble_mark hs
    have w0 : Window s.demOut s.dem.ksym.toNat [] 0 0 0 t := by simpa [h1] using w
    obtain ⟨u, hrun', w'⟩ := w0.runsTo_symbols (by omega) bits
    refine ⟨u, bits, _, _, _, runsTo_clsFrames_append hrun hrun', w', fun hpre => ?_⟩
    exact absurd hpre.length_le (by simp)
  · have h2 : s.dem.ksym.toNat = 2 := by
      obtain ⟨-, -, -, -, -, -, hpos⟩ := hs
      omega
    by_cases hzero : false ∈ bits
    · obtain ⟨n, rest, rfl⟩ := exists_first_zero hzero
      obtain ⟨t, hrun, w⟩ := runsTo_ones_zero hs h2.ge n rest
      refine ⟨t, _, _, _, _, hrun, w, fun hpre => ?_⟩
      rw [← List.cons_append, ← List.replicate_succ, List.replicate_succ', List.append_assoc,
        List.prefix_append_right_inj, h2] at hpre
      simp at hpre
    · obtain ⟨t, hrun, w⟩ := runsTo_ones hs bits.length
      rw [← eq_replicate_true hzero] at hrun w
      exact ⟨t, bits, _, _, _, hrun, w, fun hpre => absurd hpre.length_le (by simp)⟩

/-- Settles O59: an even first byte faults, and after an odd one the decided bits are not those sent. -/
theorem twoFramesPerSymbolFail : Obligations.TwoFramesPerSymbolFail := by
  rintro p bs s t hs rfl hp hne hrun hout
  obtain ⟨b, bs, rfl⟩ := List.exists_cons_of_ne_nil hne
  obtain ⟨w, hrun, hend⟩ := (runsTo_append ..).1 hrun
  cases hb : b.getLsbD 0 with
  | false =>
    obtain ⟨-, u, v, -, -, -, herror, -, -, -, hv, hdem, hquiet⟩ := evenFirstByteFaults _ b bs s hs rfl hb
    obtain rfl := runsTo_unique hrun hv
    obtain ⟨-, hkept⟩ := runsTo_of_dem_error (hdem ▸ herror) (by simp [resetsDem]) hend
    simp [hkept, hquiet] at hout
  | true =>
    obtain ⟨v, ds, n, x, y, hv, hwindow, hpre⟩ :=
      runsTo_short_symbols hs hp ((byteBits b).tail ++ bs.flatMap byteBits)
    rw [streamBits_cons, hb] at hrun
    obtain rfl := runsTo_unique hrun hv
    obtain ⟨u, hend', -, hpacked⟩ := hwindow.runsTo_end
    obtain rfl := runsTo_unique hend hend'
    rw [← hb, ← flatMap_byteBits_cons] at hpre
    exact hpre (hpacked.begins_with_bytes hout)

end Sys2Proof.Machine
end

section
/-! SUPPORT. The aligned loop-back under an ideal detector (42_demodulator.md R187, R195, R196): the frames that MOD
emits, and DEM fed with them by D.FRAME instead of D.CLS. -/

namespace Sys2Proof.Machine

/-! ## D.FRAME in place of D.CLS -/

/-- Outside IDLE no move but a reset changes the configuration or the effective registers that detection reads. -/
theorem DemMove.setup_kept {i : Instr} {d d' : DemUnit} {bytes : List Byte}
    (hm : DemMove (encodeHeader i) d d' bytes) (hi : ¬ resetsDem i) (hs : d.state ≠ .idle) :
    d'.cfg = d.cfg ∧ d'.srEff = d.srEff ∧ d'.spfEff = d.spfEff := by
  cases hm with
  | reset hh => exact absurd (hh.imp (encodeHeader_eq_dRst_iff i).1 (encodeHeader_eq_grst_iff i).1) hi
  | configure _ _ hidle => exact absurd hidle hs
  | start hidle _ _ => exact absurd hidle hs
  | _ => simp

/-- Under the detector the frame `f` has the size and the class of a symbol of bit `b`. -/
def HeardAs (detect : Detector) (d : DemUnit) (f : List Sample) (b : Bool) : Prop :=
  f.length = d.spfEff.toNat ∧ frameClass detect d (packSamples f) = bitClass b

theorem HeardAs.congr {detect : Detector} {d d' : DemUnit} {f : List Sample} {b : Bool} (h : HeardAs detect d f b)
    (hd : d'.cfg = d.cfg ∧ d'.srEff = d.srEff ∧ d'.spfEff = d.spfEff) : HeardAs detect d' f b := by
  obtain ⟨hcfg, hsr, hspf⟩ := hd
  simpa only [HeardAs, frameClass, hcfg, hsr, hspf] using h

/-- A D.CLS that does not end in ERROR found DEM receiving. -/
theorem receiving_of_exec_clsOf {b : Bool} {s u : State} (e : exec (clsOf b) s = .next u)
    (hu : u.dem.state ≠ .error) : s.dem.Receiving := by
  have he := (Host.Outcome.next.inj e).symm
  rcases demCommand_cases (encodeHeader (clsOf b)) DemState.acceptsStream
    (demodStep (encodeHeader (clsOf b)) (classify (!b) b)) s with ⟨hs, h⟩ | ⟨-, hk, -⟩ | ⟨-, -, h⟩
  · exact absurd (he.trans h ▸ hs) hu
  · exact (DemState.acceptsStream_iff _).1 hk
  · exact absurd (he.trans h ▸ rfl) hu

/-- Feeding frames by D.FRAME does what the D.CLS commands of their classes do, where those do not end in ERROR
(R173). -/
theorem feedFrames_of_runsTo {detect : Detector} {frames : List (List Sample)} {bits : List Bool} {s v : State}
    (h : List.Forall₂ (HeardAs detect s.dem) frames bits) (hrun : RunsTo (bits.map clsOf) s v)
    (hv : v.dem.state ≠ .error) : feedFrames detect frames s = v := by
  induction frames generalizing bits s with
  | nil =>
    cases h
    exact Eq.symm hrun
  | cons f frames ih =>
    cases h with
    | @cons _ b _ bits hf hrest =>
      obtain ⟨u, e, hrun⟩ := hrun
      have hu : u.dem.state ≠ .error := fun herror => by
        have hcls : ∀ i ∈ bits.map clsOf, ¬ resetsDem i := fun i hi => by
          obtain ⟨c, -, rfl⟩ := List.mem_map.1 hi
          exact not_resetsDem_clsOf c
        obtain ⟨hdem, -⟩ := runsTo_of_dem_error herror hcls hrun
        exact hv (hdem ▸ herror)
      have hs := receiving_of_exec_clsOf e hu
      obtain ⟨hlen, hclass⟩ := hf
      have hstep := exec_clsOf b hs
      obtain rfl := Host.Outcome.next.inj (hstep.symm.trans e)
      have hframe := exec_dCls_eq_frameCommand (detect := detect) (payload := packSamples f) (sp := !b) (mk := b) hs
        (by rw [length_packSamples, hlen]) (by rw [hclass, classify_not_self])
        (by rw [classify_not_self]; exact hu)
      obtain ⟨_, -, hm⟩ := demMove_of_exec e
      have hkept := hm.setup_kept (not_resetsDem_clsOf b) (by rcases hs with h | h | h <;> simp [h])
      change feedFrames detect frames (frameCommand detect (packSamples f) s) = v
      rw [← Host.Outcome.next.inj (e.symm.trans hframe)]
      exact ih (hrest.imp fun _ _ h => h.congr hkept) hrun

/-! ## The frames of whole symbols -/

/-- A sample sequence is cut into frames in one way. -/
theorem Framed.unique {spf : ℕ} {all rest rest' : List Sample} {frames frames' : List (List Sample)}
    (h : Framed spf all frames rest) (h' : Framed spf all frames' rest') : frames = frames' ∧ rest = rest' := by
  have hlen : frames.length = frames'.length := h.frames_length.trans h'.frames_length.symm
  refine ⟨List.ext_getElem? fun q => ?_, by rw [h.rest_eq, h'.rest_eq, hlen]⟩
  by_cases hq : q < frames.length
  · rw [h.getElem?_frames hq, h'.getElem?_frames (hlen ▸ hq)]
  · rw [List.getElem?_eq_none (Nat.not_lt.1 hq), List.getElem?_eq_none (hlen ▸ Nat.not_lt.1 hq)]

/-- The frame `f` is `spf` samples within a symbol of bit `b` (41_modulator.md R142). -/
def WithinSymbol (m : ModUnit) (f : List Sample) (b : Bool) : Prop :=
  ∃ k, k + m.spfEff.toNat ≤ m.nsym.toNat ∧ f = ((sym m b).drop k).take m.spfEff.toNat

section
variable {m : ModUnit} {p : ℕ}

/-- A symbol of P · spf samples is P frames. -/
theorem framed_symbol (hspf : 0 < m.spfEff.toNat) (hp : m.nsym.toNat = p * m.spfEff.toNat) (b : Bool) :
    ∃ frames, Framed m.spfEff.toNat (sym m b) frames [] ∧
      List.Forall₂ (WithinSymbol m) frames (List.replicate p b) := by
  obtain ⟨frames, -, hframed⟩ := slice_framed hspf (sym m b)
  have hcount : frames.length = p := by rw [hframed.frames_length, length_sym, hp, Nat.mul_div_cancel _ hspf]
  have hrest : (slice m.spfEff.toNat (sym m b)).2 = [] := by
    rw [← List.length_eq_zero_iff, hframed.rest_length_eq, length_sym, hp, Nat.mul_mod_left]
  rw [hrest] at hframed
  refine ⟨frames, hframed, List.forall₂_iff_get.2 ⟨by rw [hcount, List.length_replicate], fun q hq _ => ?_⟩⟩
  refine ⟨q * m.spfEff.toNat, ?_, ?_⟩
  · rw [← Nat.succ_mul, hp]
    exact Nat.mul_le_mul_right _ (hcount ▸ hq)
  · have hget := hframed.getElem?_frames hq
    simpa [List.getElem?_eq_getElem hq] using hget

/-- Symbols of P · spf samples are P frames each (R187). -/
theorem framed_symbols (hspf : 0 < m.spfEff.toNat) (hp : m.nsym.toNat = p * m.spfEff.toNat) (bits : List Bool) :
    ∃ frames, Framed m.spfEff.toNat (bits.flatMap (sym m)) frames [] ∧
      List.Forall₂ (WithinSymbol m) frames (bits.flatMap (List.replicate p)) := by
  induction bits with
  | nil => exact ⟨[], Framed.nil hspf, .nil⟩
  | cons b bits ih =>
    obtain ⟨frames, hframed, hwithin⟩ := framed_symbol hspf hp b
    obtain ⟨frames', hframed', hwithin'⟩ := ih
    exact ⟨frames ++ frames', hframed.append hframed', List.rel_append hwithin hwithin'⟩

/-- The stream of bytes is the symbols of its bits (R137). -/
theorem streamSamples_eq_flatMap_streamBits {bs : List Byte} (hbs : bs ≠ []) :
    streamSamples m bs = (streamBits bs).flatMap (sym m) := by
  rw [streamSamples_of_ne_nil m hbs, funext (byteSamples_eq_flatMap_byteBits m), ← List.flatMap_assoc]
  simp [preambleSamples, streamBits]

/-- An ideal detector hears a frame within a symbol as the symbol's bit (R195). -/
theorem WithinSymbol.heardAs {detect : Detector} {d : DemUnit} {f : List Sample} {b : Bool}
    (h : WithinSymbol m f b) (hideal : IdealDetector detect m) (hsr : d.srEff = m.srEff) (hspf : d.spfEff = m.spfEff)
    (hspace : d.cfg.space = m.cfg.space) (hmark : d.cfg.mark = m.cfg.mark) : HeardAs detect d f b := by
  obtain ⟨k, hk, rfl⟩ := h
  have hlen : (((sym m b).drop k).take m.spfEff.toNat).length = m.spfEff.toNat := by
    rw [List.length_take_of_le]
    rw [List.length_drop, length_sym]
    omega
  obtain ⟨hown, hother⟩ := hideal b k hk
  refine ⟨hlen.trans (by rw [hspf]), ?_⟩
  have hsamples := frameSamples_packSamples (((sym m b).drop k).take m.spfEff.toNat)
  rw [hlen] at hsamples
  rw [← classify_not_self]
  simp only [frameClass, hsr, hspf, hspace, hmark, hsamples]
  cases b with
  | false => exact congrArg₂ classify hown hother
  | true => exact congrArg₂ classify hother hown

end

/-! ## The loop-back -/

/-- A run that does not address DEM leaves it and its queue alone (R72). -/
theorem runsTo_dem_frame {is : List Instr} {s t : State} (his : ∀ i ∈ is, touches .dem i = false)
    (hrun : RunsTo is s t) : t.dem = s.dem ∧ t.demOut = s.demOut := by
  induction is generalizing s with
  | nil => exact hrun ▸ ⟨rfl, rfl⟩
  | cons i is ih =>
    obtain ⟨u, e, hrest⟩ := hrun
    obtain ⟨-, hframe, -⟩ := commandsTouchOneUnit i s u e
    obtain ⟨hdem, hout⟩ := hframe (his i List.mem_cons_self)
    obtain ⟨hdem', hout'⟩ := ih (fun j hj => his j (List.mem_cons_of_mem i hj)) hrest
    exact ⟨hdem'.trans hdem, hout'.trans hout⟩

/-- The frames of a symbol sequence, command by command. -/
theorem clsFrames_eq_map (p : ℕ) (bits : List Bool) :
    clsFrames p bits = (bits.flatMap (List.replicate p)).map clsOf := by
  simp [clsFrames, List.map_flatMap]

/-- Settles O60: the FRAMEs lie within symbols, so DEM hears the classes of the stream, and those decode exactly. -/
theorem loopbackRoundTrip : Obligations.LoopbackRoundTrip := by
  intro detect p b bs s hmod hdem hsr hspf hspace hmark hnsym hk hp hideal hodd hzero
  obtain ⟨-, -, -, hpos⟩ := id hmod
  obtain ⟨t, frames, tail, hrun, -, hout, hconcat, hlen, -, htail⟩ := wholeStreamIsEmittedExactly (b :: bs) s hmod
  have hcut : Framed s.mod.spfEff.toNat (streamSamples s.mod (b :: bs)) frames tail :=
    ⟨hconcat, hlen, htail ▸ Nat.mod_lt _ hpos⟩
  obtain ⟨frames', hcut', hwithin⟩ := framed_symbols hpos hnsym (streamBits (b :: bs))
  rw [← streamSamples_eq_flatMap_streamBits (List.cons_ne_nil b bs)] at hcut'
  obtain ⟨rfl, rfl⟩ := hcut.unique hcut'
  have hmodOnly : ∀ i ∈ (b :: bs).map Instr.mByte ++ [.mEnd], touches .dem i = false := fun i hi => by
    rcases List.mem_append.1 hi with hi | hi
    · obtain ⟨_, -, rfl⟩ := List.mem_map.1 hi
      rfl
    · exact List.mem_singleton.1 hi ▸ rfl
  obtain ⟨htdem, htout⟩ := runsTo_dem_frame hmodOnly hrun
  obtain ⟨u, hcls, hdone, hbytes⟩ := alignedClassesDecodeExactly p b bs t (htdem ▸ hdem) (htdem ▸ hk) hp hodd hzero
  obtain ⟨w, hframes, x, hend, rfl⟩ := (runsTo_append ..).1 hcls
  have hw : w.dem.state ≠ .error := fun herror => by
    obtain ⟨hkept, -⟩ := runsTo_of_dem_error (is := [.dEnd]) herror (by simp [resetsDem]) ⟨u, hend, rfl⟩
    simp [hkept, herror] at hdone
  have hheard : List.Forall₂ (HeardAs detect t.dem) frames ((streamBits (b :: bs)).flatMap (List.replicate p)) :=
    hwithin.imp fun f c h => htdem ▸ h.heardAs hideal hsr hspf hspace hmark
  rw [clsFrames_eq_map] at hframes
  refine ⟨t, frames, hrun, by simpa using hout, u, ?_, hdone, by rw [hbytes, htout]⟩
  rw [feedFrames_of_runsTo hheard hframes hw]
  exact hend

end Sys2Proof.Machine
end

section
/-! SUPPORT. Faults and illegal headers at a whole delivered command: what ERROR ignores, what a fault writes, and who
writes ILL (60_exceptions.md R203 to R207). -/

namespace Sys2Proof.Machine

/-! ## ERROR ignores every command but the unit's reset (R205) -/

/-- A whole command with a legal header: the step executes the command that the encoder gives this header. -/
theorem step_of_legal {s : State} {h : Word} {ws : List Word} (hs : s.cmdIn = h :: ws)
    (hle : hdrLen h ≤ ws.length) (hl : legal h = true) :
    ∃ i, encodeHeader i = h ∧ step s = exec i { s with cmdIn := ws.drop (hdrLen h) } := by
  have hlen : (ws.take (hdrLen h)).length = hdrLen h := List.length_take_of_le hle
  obtain ⟨i, hdec⟩ := (exists_decodeCommand_iff hlen).2 hl
  exact ⟨i, encodeHeader_of_decodeCommand hlen hdec, step_of_instr (hs ▸ takeCommand_of_le hle) hdec⟩

/-- UNIT 1 addresses MOD alone (R82). -/
theorem touches_dem_of_hdrUnit {i : Instr} (hu : (hdrUnit (encodeHeader i)).toNat = 1) :
    touches .dem i = false := by
  cases i <;> simp_all [encodeHeader, touches]

/-- UNIT 2 addresses DEM alone (R82). -/
theorem touches_mod_of_hdrUnit {i : Instr} (hu : (hdrUnit (encodeHeader i)).toNat = 2) :
    touches .mod i = false := by
  cases i <;> simp_all [encodeHeader, touches]

/-- MOD in ERROR makes no move but its reset (R205). -/
theorem ModMove.keep_of_error {h : Word} {m m' : ModUnit} {items : List ModItem} (hm : ModMove h m m' items)
    (hrst : h ≠ encodeHeader .mRst) (hgrst : h ≠ encodeHeader .grst) (hs : m.state = .error) :
    m' = m ∧ items = [] := by
  cases hm with
  | keep => exact ⟨rfl, rfl⟩
  | reset hh => exact absurd hh (not_or.2 ⟨hrst, hgrst⟩)
  | fault hne _ => exact absurd hs hne
  | configure _ _ hidle => cases hs.symm.trans hidle
  | start hidle _ _ => cases hs.symm.trans hidle
  | push _ hrun => cases hs.symm.trans hrun
  | finish hrun _ => cases hs.symm.trans hrun

theorem exec_of_mod_error {i : Instr} {s : State} (hs : s.mod.state = .error)
    (hu : (hdrUnit (encodeHeader i)).toNat = 1) (hrst : encodeHeader i ≠ encodeHeader .mRst) :
    exec i s = .next s := by
  obtain ⟨t, e⟩ := exec_next i s
  obtain ⟨m, items, hm, rfl⟩ := modEffect_of_exec (touches_dem_of_hdrUnit hu) e
  have hgrst : encodeHeader i ≠ encodeHeader .grst := fun h => by
    rw [h] at hu
    simp [encodeHeader] at hu
  obtain ⟨rfl, rfl⟩ := hm.keep_of_error hrst hgrst hs
  simpa using e

theorem exec_of_dem_error {i : Instr} {s : State} (hs : s.dem.state = .error)
    (hu : (hdrUnit (encodeHeader i)).toNat = 2) (hrst : encodeHeader i ≠ encodeHeader .dRst) :
    exec i s = .next s := by
  obtain ⟨t, e⟩ := exec_next i s
  obtain ⟨d, bytes, hd, rfl⟩ := demEffect_of_exec (touches_mod_of_hdrUnit hu) e
  have hreset : ¬ resetsDem i := by
    rintro (rfl | rfl)
    · exact hrst rfl
    · simp [encodeHeader] at hu
  obtain ⟨rfl, rfl⟩ := hd.keep_of_error hreset hs
  simpa using e

/-- Settles O17: an illegal header has the effect of R89 in ERROR, and a legal one is a command of the unit that moves
nothing. -/
theorem errorIgnoresAllButReset : Obligations.ErrorIgnoresAllButReset := by
  intro s h ws hs hle
  cases hl : legal h with
  | false =>
    obtain ⟨-, -, hmod, -, hdem⟩ := stepOnIllegalHeader s h ws hs hle hl
    exact ⟨fun hu _ => hmod hu, fun hu _ => hdem hu⟩
  | true =>
    obtain ⟨i, rfl, e⟩ := step_of_legal hs hle hl
    rw [e]
    exact ⟨fun hu hrst he => exec_of_mod_error he hu hrst, fun hu hrst he => exec_of_dem_error he hu hrst⟩

/-! ## A fault writes three registers (R203, R204) -/

/-- MOD enters ERROR by the fault move alone. -/
theorem ModMove.fault_of_error {h : Word} {m m' : ModUnit} {items : List ModItem} (hm : ModMove h m m' items)
    (hs : m.state ≠ .error) (hs' : m'.state = .error) :
    m' = { m with state := .error, cause := m'.cause, fcmd := h } ∧ items = [] := by
  cases hm with
  | fault _ _ => exact ⟨rfl, rfl⟩
  | keep => exact absurd hs' hs
  | configure _ _ _ => exact absurd hs' hs
  | push _ _ => exact absurd hs' hs
  | reset _ => cases hs'
  | start _ _ _ => cases hs'
  | finish _ _ => cases hs'

/-- DEM enters ERROR by the fault move alone where BITPOS is at most 7, which rules E_BITPOS_OVF out (R183). -/
theorem DemMove.fault_of_error {h : Word} {d d' : DemUnit} {bytes : List Byte} (hd : DemMove h d d' bytes)
    (hb : d.bitpos.toNat ≤ 7) (hs : d.state ≠ .error) (hs' : d'.state = .error) :
    d' = { d with state := .error, cause := d'.cause, fcmd := h } ∧ bytes = [] := by
  cases hd with
  | fault _ _ => exact ⟨rfl, rfl⟩
  | overflow _ _ _ h7 => omega
  | keep => exact absurd hs' hs
  | configure _ _ _ => exact absurd hs' hs
  | countMark _ _ => exact absurd hs' hs
  | vote c _ _ => exact absurd (d.counted_state c ▸ hs') hs
  | fold c _ _ _ => exact absurd (d.counted_state c ▸ hs') hs
  | emit c _ _ _ => exact absurd (d.counted_state c ▸ hs') hs
  | reset _ => cases hs'
  | start _ _ _ => cases hs'
  | lock _ => cases hs'
  | enterDecode _ _ => cases hs'
  | finish _ _ _ => cases hs'
  | finishByte _ _ _ => cases hs'

theorem ModEffect.fault_of_error {h : Word} {s t : State} (e : ModEffect h s t) (hs : s.mod.state ≠ .error)
    (ht : t.mod.state = .error) :
    t = { s with mod := { s.mod with state := .error, cause := t.mod.cause, fcmd := h } } := by
  obtain ⟨m, items, hm, rfl⟩ := e
  obtain ⟨hfault, rfl⟩ := hm.fault_of_error hs ht
  rw [List.append_nil, ← hfault]

theorem DemEffect.fault_of_error {h : Word} {s t : State} (e : DemEffect h s t) (hb : s.dem.bitpos.toNat ≤ 7)
    (hs : s.dem.state ≠ .error) (ht : t.dem.state = .error) :
    t = { s with dem := { s.dem with state := .error, cause := t.dem.cause, fcmd := h } } := by
  obtain ⟨d, bytes, hd, rfl⟩ := e
  obtain ⟨hfault, rfl⟩ := hd.fault_of_error hb hs ht
  rw [List.append_nil, ← hfault]

/-- Settles O51: the unit that enters ERROR made the fault move, and the command moved nothing else. -/
theorem faultsArePrecise : Obligations.FaultsArePrecise := by
  intro i s t hb e
  rcases exec_cases e with ⟨-, rfl⟩ | hm | hd
  · exact ⟨fun _ ht => (nomatch ht), fun _ ht => (nomatch ht)⟩
  · exact ⟨hm.fault_of_error, fun hs ht => absurd (hm.dem_frame.1 ▸ ht) hs⟩
  · exact ⟨fun hs ht => absurd (hd.mod_frame.1 ▸ ht) hs, hd.fault_of_error hb⟩

/-! ## ILL (R23, R207) -/

/-- An illegal header sets ILL where its UNIT is no unit's, and otherwise leaves it. -/
theorem illegalCommand_ill (h : Word) (s : State) :
    ((hdrUnit h).toNat ≠ 1 ∧ (hdrUnit h).toNat ≠ 2 ∧ (illegalCommand h s).ill = true) ∨
      (illegalCommand h s).ill = s.ill := by
  rcases illegalCommand_cases h s with ⟨h1, h2, e⟩ | ⟨-, -, e⟩ | ⟨-, -, e⟩ | ⟨-, -, e⟩ | ⟨-, -, e⟩ <;> rw [e]
  · exact .inl ⟨h1, h2, rfl⟩
  all_goals exact .inr rfl

/-- Everything a step on a whole command can do to ILL. -/
theorem step_ill {s t : State} {h : Word} {ws : List Word} (hs : s.cmdIn = h :: ws) (hle : hdrLen h ≤ ws.length)
    (e : step s = .next t) :
    t.ill = s.ill ∨ (h = encodeHeader .grst ∧ t.ill = false) ∨
      (legal h = false ∧ (hdrUnit h).toNat ≠ 1 ∧ (hdrUnit h).toNat ≠ 2 ∧ t.ill = true) := by
  cases hl : legal h with
  | false =>
    obtain rfl := Host.Outcome.next.inj ((step_of_not_legal hs hle hl).symm.trans e)
    rcases illegalCommand_ill h { s with cmdIn := ws.drop (hdrLen h) } with ⟨h1, h2, hset⟩ | hkept
    · exact .inr (.inr ⟨rfl, h1, h2, hset⟩)
    · exact .inl hkept
  | true =>
    obtain ⟨i, rfl, hstep⟩ := step_of_legal hs hle hl
    rw [hstep] at e
    by_cases hi : i = .grst
    · subst hi
      obtain rfl := Host.Outcome.next.inj e
      exact .inr (.inl ⟨rfl, rfl⟩)
    · exact .inl ((exec_global_frame e).1 hi)

/-- Settles O52: a step keeps ILL, or ran GRST and cleared it, or ran an illegal global header and set it. -/
theorem illegalFlagIsSticky : Obligations.IllegalFlagIsSticky := by
  intro s t h ws hs hle e
  rcases step_ill hs hle e with hkept | ⟨hgrst, hclear⟩ | ⟨hl, h1, h2, hset⟩
  · rw [hkept]
    exact ⟨fun hill hclear => absurd (hill.symm.trans hclear) (by decide),
      fun hill hset => absurd (hill.symm.trans hset) (by decide)⟩
  · exact ⟨fun _ _ => hgrst, fun _ hset => absurd (hclear.symm.trans hset) (by decide)⟩
  · exact ⟨fun _ hclear => absurd (hset.symm.trans hclear) (by decide), fun _ _ => ⟨hl, by omega⟩⟩

end Sys2Proof.Machine
end

section
/-! SUPPORT. The unit a command addresses sees nothing of the rest of the state, so that a run acts on a unit as the
commands that address it do (20_memory.md R72; 41_modulator.md R141; 70_reset_and_hazards.md R239). -/

namespace Sys2Proof.Machine

/-- The second state agrees with the first on the unit's registers and on its queue; the rest may differ. -/
def SameUnit : UnitId → State → State → Prop
  | .mod, s, s' => s'.mod = s.mod ∧ s'.modOut = s.modOut
  | .dem, s, s' => s'.dem = s.dem ∧ s'.demOut = s.demOut

theorem SameUnit.symm {u : UnitId} {s t : State} (h : SameUnit u s t) : SameUnit u t s :=
  match u, h with
  | .mod, ⟨hreg, hout⟩ => ⟨hreg.symm, hout.symm⟩
  | .dem, ⟨hreg, hout⟩ => ⟨hreg.symm, hout.symm⟩

theorem SameUnit.trans {u : UnitId} {s t v : State} (h : SameUnit u s t) (h' : SameUnit u t v) : SameUnit u s v :=
  match u, h, h' with
  | .mod, ⟨hreg, hout⟩, ⟨hreg', hout'⟩ => ⟨hreg'.trans hreg, hout'.trans hout⟩
  | .dem, ⟨hreg, hout⟩, ⟨hreg', hout'⟩ => ⟨hreg'.trans hreg, hout'.trans hout⟩

theorem SameUnit.inError_eq {u : UnitId} {s s' : State} (h : SameUnit u s s') : s'.inError u = s.inError u := by
  cases u with
  | mod => exact congrArg (·.state == .error) h.1
  | dem => exact congrArg (·.state == .error) h.1

/-- A command that does not address the unit leaves it and its queue as they were (R72). -/
theorem sameUnit_of_not_touches {u : UnitId} {i : Instr} {s t : State} (hi : touches u i = false)
    (e : exec i s = .next t) : SameUnit u s t := by
  obtain ⟨hmod, hdem, -⟩ := commandsTouchOneUnit i s t e
  cases u with
  | mod => exact hmod hi
  | dem => exact hdem hi

/-- What the rule does to the unit depends on the unit alone. -/
def ActsWithin (u : UnitId) (act : State → State) : Prop :=
  ∀ s s' : State, SameUnit u s s' → SameUnit u (act s) (act s')

theorem actsWithin_raiseFault (u : UnitId) (c : Cause) (h : Word) : ActsWithin u (State.raiseFault u c h) := by
  intro s s' hsame
  cases u with
  | mod => exact ⟨by simp only [State.raiseFault, hsame.1], hsame.2⟩
  | dem => exact ⟨by simp only [State.raiseFault, hsame.1], hsame.2⟩

theorem actsWithin_resetUnit (u : UnitId) : ActsWithin u (State.resetUnit u) := by
  intro s s' hsame
  cases u with
  | mod => exact ⟨rfl, hsame.2⟩
  | dem => exact ⟨rfl, hsame.2⟩

theorem actsWithin_resetAll (u : UnitId) : ActsWithin u State.resetAll := by
  intro s s' hsame
  cases u with
  | mod => exact ⟨rfl, hsame.2⟩
  | dem => exact ⟨rfl, hsame.2⟩

/-! ## The rules of MOD -/

theorem actsWithin_modCommand {ok : ModState → Bool} {act : State → State} (h : Word)
    (hact : ActsWithin .mod act) : ActsWithin .mod (modCommand h ok act) := by
  intro s s' hsame
  simp only [modCommand, hsame.inError_eq, hsame.1]
  split
  · exact hsame
  split
  · exact hact s s' hsame
  · exact actsWithin_raiseFault .mod .state h s s' hsame

theorem actsWithin_writeModCfg (f : CfgField) (v : Word) : ActsWithin .mod (writeModCfg f v) :=
  fun _ _ ⟨hmod, hout⟩ => ⟨by rw [writeModCfg_mod, writeModCfg_mod, hmod], hout⟩

theorem actsWithin_startMod (h : Word) : ActsWithin .mod (startMod h) := by
  intro s s' hsame
  obtain ⟨hmod, hout⟩ := id hsame
  simp only [startMod, hmod]
  split
  · exact actsWithin_raiseFault .mod _ h s s' hsame
  · exact ⟨rfl, hout⟩

theorem actsWithin_pushByte (b : Byte) : ActsWithin .mod (pushByte b) :=
  fun _ _ ⟨hmod, hout⟩ => ⟨by simp only [pushByte, State.emitMod_mod, hmod],
    by simp only [pushByte, State.emitMod_modOut, hmod, hout]⟩

theorem actsWithin_endMod : ActsWithin .mod endMod :=
  fun _ _ ⟨hmod, hout⟩ => ⟨by simp only [endMod, State.emitMod_mod, hmod],
    by simp only [endMod, State.emitMod_modOut, hmod, hout]⟩

/-! ## The rules of DEM -/

theorem actsWithin_demCommand {ok : DemState → Bool} {act : State → State} (h : Word)
    (hact : ActsWithin .dem act) : ActsWithin .dem (demCommand h ok act) := by
  intro s s' hsame
  simp only [demCommand, hsame.inError_eq, hsame.1]
  split
  · exact hsame
  split
  · exact hact s s' hsame
  · exact actsWithin_raiseFault .dem .state h s s' hsame

theorem actsWithin_writeDemCfg (f : CfgField) (v : Word) : ActsWithin .dem (writeDemCfg f v) :=
  fun _ _ ⟨hdem, hout⟩ => ⟨by rw [writeDemCfg_dem, writeDemCfg_dem, hdem], hout⟩

theorem actsWithin_startDem (h : Word) : ActsWithin .dem (startDem h) := by
  intro s s' hsame
  obtain ⟨hdem, hout⟩ := id hsame
  simp only [startDem, hdem]
  split
  · exact actsWithin_raiseFault .dem _ h s s' hsame
  · exact ⟨rfl, hout⟩

theorem actsWithin_stepPreambleSpace (c : ToneClass) : ActsWithin .dem (stepPreambleSpace c) := by
  intro s s' hsame
  cases c with
  | mark => exact ⟨by simp only [stepPreambleSpace, hsame.1], hsame.2⟩
  | space => exact hsame
  | ambig => exact hsame

theorem actsWithin_stepPreambleMark (h : Word) (c : ToneClass) : ActsWithin .dem (stepPreambleMark h c) := by
  intro s s' hsame
  cases c with
  | space => exact actsWithin_raiseFault .dem .preamble h s s' hsame
  | ambig => exact actsWithin_raiseFault .dem .preamble h s s' hsame
  | mark =>
    simp only [stepPreambleMark, hsame.1]
    split
    · exact ⟨rfl, hsame.2⟩
    · exact ⟨rfl, hsame.2⟩

theorem actsWithin_decideSymbol (h : Word) : ActsWithin .dem (decideSymbol h) := by
  intro s s' ⟨hdem, hout⟩
  simp only [decideSymbol, hdem]
  split
  · exact ⟨rfl, congrArg (· ++ _) hout⟩
  split
  · exact ⟨rfl, hout⟩
  · exact ⟨rfl, hout⟩

theorem actsWithin_stepDecode (h : Word) (c : ToneClass) : ActsWithin .dem (stepDecode h c) := by
  intro s s' ⟨hdem, hout⟩
  simp only [stepDecode, hdem]
  split
  · exact actsWithin_decideSymbol h _ _ ⟨rfl, hout⟩
  · exact ⟨rfl, hout⟩

theorem actsWithin_demodStep (h : Word) (c : ToneClass) : ActsWithin .dem (demodStep h c) := by
  intro s s' hsame
  simp only [demodStep, hsame.1]
  split
  · exact actsWithin_stepPreambleSpace c s s' hsame
  · exact actsWithin_stepPreambleMark h c s s' hsame
  · exact actsWithin_stepDecode h c s s' hsame
  all_goals exact hsame

theorem actsWithin_deliverFrame (detect : Detector) (h : Word) (payload : List Word) :
    ActsWithin .dem (deliverFrame detect h payload) := by
  intro s s' hsame
  simp only [deliverFrame, hsame.1]
  split
  · exact actsWithin_raiseFault .dem .frameLen h s s' hsame
  · exact actsWithin_demodStep h _ s s' hsame

theorem actsWithin_endDem : ActsWithin .dem endDem := by
  intro s s' ⟨hdem, hout⟩
  simp only [endDem, hdem]
  split
  · exact ⟨rfl, congrArg (· ++ _) hout⟩
  · exact ⟨rfl, hout⟩

/-! ## Commands and runs -/

/-- A command that addresses the unit does to it what depends on the unit alone. -/
theorem actsWithin_of_touches {u : UnitId} {i : Instr} (hi : touches u i = true) :
    ∃ act, ActsWithin u act ∧ ∀ s, exec i s = .next (act s) := by
  cases u with
  | mod =>
    cases i with
    | grst => exact ⟨_, actsWithin_resetAll _, fun _ => rfl⟩
    | mCfgw f v => exact ⟨_, actsWithin_modCommand _ (actsWithin_writeModCfg f v), fun _ => rfl⟩
    | mStart => exact ⟨_, actsWithin_modCommand _ (actsWithin_startMod _), fun _ => rfl⟩
    | mByte b => exact ⟨_, actsWithin_modCommand _ (actsWithin_pushByte b), fun _ => rfl⟩
    | mEnd => exact ⟨_, actsWithin_modCommand _ actsWithin_endMod, fun _ => rfl⟩
    | mRst => exact ⟨_, actsWithin_resetUnit _, fun _ => rfl⟩
    | _ => exact nomatch hi
  | dem =>
    cases i with
    | grst => exact ⟨_, actsWithin_resetAll _, fun _ => rfl⟩
    | dCfgw f v => exact ⟨_, actsWithin_demCommand _ (actsWithin_writeDemCfg f v), fun _ => rfl⟩
    | dStart => exact ⟨_, actsWithin_demCommand _ (actsWithin_startDem _), fun _ => rfl⟩
    | dFrame payload => exact ⟨_, actsWithin_demCommand _ (actsWithin_deliverFrame _ _ payload), fun _ => rfl⟩
    | dEnd => exact ⟨_, actsWithin_demCommand _ actsWithin_endDem, fun _ => rfl⟩
    | dCls space mark => exact ⟨_, actsWithin_demCommand _ (actsWithin_demodStep _ _), fun _ => rfl⟩
    | dRst => exact ⟨_, actsWithin_resetUnit _, fun _ => rfl⟩
    | _ => exact nomatch hi

/-- A run acts on a unit as its commands that address the unit do, from any state that agrees on the unit. -/
theorem runsTo_filter_touches {u : UnitId} {is : List Instr} {s s' t : State} (hsame : SameUnit u s s')
    (hrun : RunsTo is s t) : ∃ t', RunsTo (is.filter (touches u)) s' t' ∧ SameUnit u t t' := by
  induction is generalizing s s' with
  | nil => exact ⟨s', rfl, hrun ▸ hsame⟩
  | cons i is ih =>
    obtain ⟨v, e, hrest⟩ := hrun
    cases hi : touches u i with
    | false =>
      rw [List.filter_cons_of_neg (by simp [hi])]
      exact ih ((sameUnit_of_not_touches hi e).symm.trans hsame) hrest
    | true =>
      obtain ⟨act, hact, hexec⟩ := actsWithin_of_touches hi
      obtain rfl := Host.Outcome.next.inj ((hexec s).symm.trans e)
      obtain ⟨t', hrun', ht⟩ := ih (hact s s' hsame) hrest
      rw [List.filter_cons_of_pos hi]
      exact ⟨t', ⟨act s', hexec s', hrun'⟩, ht⟩

/-- Settles O55: a command that does not address the unit can be dropped, and one that does sees the unit alone. -/
theorem unitSeesOnlyItsCommands : Obligations.UnitSeesOnlyItsCommands := fun _ _ _ _ hrun =>
  ⟨fun hmod hout => runsTo_filter_touches (u := .mod) ⟨hmod, hout⟩ hrun,
    fun hdem hout => runsTo_filter_touches (u := .dem) ⟨hdem, hout⟩ hrun⟩

end Sys2Proof.Machine
end

section
/-! SUPPORT. The resets and the register values after power-on (70_reset_and_hazards.md R230, R231). -/

namespace Sys2Proof.Machine

/-- The mapped registers after power-on: only M.STATUS is not 0, because FIRST is set (R231). -/
theorem regRead_reset_of_mem : ∀ n ∈ mappedAddrs,
    State.reset.regRead (BitVec.ofNat 12 n) = if BitVec.ofNat 12 n = (0x100 : RegAddr) then 0x00000008 else 0 := by
  decide

/-- Settles O9: the mapped addresses are read one by one, and any other address reads 0. -/
theorem powerOnRegisters : Obligations.PowerOnRegisters := by
  refine ⟨fun a => ?_, rfl, rfl, rfl, rfl, rfl, rfl⟩
  by_cases ha : a.toNat ∈ mappedAddrs
  · simpa only [BitVec.ofNat_toNat, BitVec.setWidth_eq] using regRead_reset_of_mem a.toNat ha
  · have hne : a ≠ 0x100 := fun h => ha (by rw [h]; decide)
    rw [regRead_of_not_mem _ ha, if_neg hne]

/-- Settles O10: no reset looks at the state it resets, so each clause is its rule written out. -/
theorem fourResets : Obligations.FourResets :=
  fun _ => ⟨rfl, rfl, rfl, rfl, rfl, rfl, rfl, rfl⟩

end Sys2Proof.Machine
end
